-- ==== Sys2Proof/Word.lean ====
section
/-! DEFINITION. The number types of LZC: the 32-bit word (R8), the symbol (R9, R231), the phrase (R39)
and the 96-bit token record word (R96). -/

namespace Sys2Proof

/-- `IDXW = 32` (R8, 00_scope.md): the width of every register, index, code, length and count. -/
abbrev Word := BitVec 32

/-- A Symbol (R9, 00_scope.md). The widest symbol has 24 bits; an instance with a smaller `SYMW` uses
the numbers below `2^SYMW`. DESIGN CHOICE, log entry 8. -/
abbrev Sym := BitVec 24

/-- A sequence of symbols; a Phrase is a non-empty one (R39, 10_state.md). -/
abbrev Phrase := List Sym

/-- The 96-bit word by which the host sees a token record (R96, 30_encoding.md). -/
abbrev Record := BitVec 96

/-- The 32-bit word of a number. R232 (45_host_interface.md): no number the rules form reaches `2^32`. -/
abbrev Word.ofNum (n : Nat) : Word := BitVec.ofNat 32 n

end Sys2Proof
end

