-- ==== Sys2Proof/Syntax.lean ====
section
/-! DEFINITION. The instruction set of LZC: the eight commands (R3, R91), in the order of the opcode table. -/

namespace Sys2Proof

/-- The commands a host can issue (R3, 00_scope.md). The command word has no operand field (R92,
30_encoding.md): every operand is the content of fixed registers and memories. -/
inductive Instr where
  /-- `LZ77.ENC`, R140. -/
  | lz77Enc
  /-- `LZ78.ENC`, R170. -/
  | lz78Enc
  /-- `LZW.ENC`, R190. -/
  | lzwEnc
  /-- `SB.LPM`, R125. -/
  | sbLpm
  /-- `LZ77.DEC`, R153. -/
  | lz77Dec
  /-- `LZ78.DEC`, R177. -/
  | lz78Dec
  /-- `LZW.DEC`, R199. -/
  | lzwDec
  /-- `SB.SLICE`, R126. -/
  | sbSlice
  deriving DecidableEq, Repr

end Sys2Proof
end

