-- ==== Sys2Proof/Config.lean ====
section
/-! DEFINITION. What an instance of LZC fixes (R9, R10) and the values the spec leaves unspecified
(U1, U2 of 93_implementation_defined.md). -/

namespace Sys2Proof.Config

/-- The parameters of an instance (R9, R10, 00_scope.md; U9). `Params.wf` of WellFormed.lean states their
ranges. The machine state carries them, so that the model is a model of every instance (DESIGN CHOICE,
log entry 1); no step changes them. -/
structure Params where
  /-- `SYMW`, the width of a symbol. -/
  symW : Nat
  /-- `SYM_CAP`, the entries of `SYM`. -/
  symCap : Nat
  /-- `TOK_CAP`, the entries of `TOK`. -/
  tokCap : Nat
  /-- `DICT_CAP`, the most entries a dictionary may hold. -/
  dictCap : Nat
  /-- `ALPHA_CAP`, the entries of `ALPHA`. -/
  alphaCap : Nat
  deriving DecidableEq, Repr

/-- The reference instance (R10, 00_scope.md). -/
def Params.reference : Params :=
  { symW := 8, symCap := 65536, tokCap := 65536, dictCap := 65536, alphaCap := 256 }

/-- FREE VALUE (U1, U2; R272, R275; log entries 2 and 3): what entry `i` of `SYM` holds when nothing has
written it since its contents last became unspecified. The first argument counts how often they have. -/
opaque freeSym (gen i : Nat) : Sym

/-- FREE VALUE (U1, U2; R272, R275; log entries 2 and 3): the 96-bit record in an unwritten entry of `TOK`. -/
opaque freeTok (gen i : Nat) : Record

/-- FREE VALUE (U1; R272, R275; log entry 2): what an unwritten entry of `ALPHA` holds. -/
opaque freeAlpha (gen i : Nat) : Sym

end Sys2Proof.Config
end

