-- ==== Sys2Proof/WellFormed.lean ====
section
/-! DEFINITION. Well-formed commands (R92) and well-formed instance parameters (R9, R10). -/

namespace Sys2Proof

/-- A command word carries no operand, no register specifier and no immediate (R92, 30_encoding.md): a
command has no field that could be out of range, so every one is well formed. -/
def Instr.wf : Instr → Bool
  | .lz77Enc => true
  | .lz78Enc => true
  | .lzwEnc => true
  | .sbLpm => true
  | .lz77Dec => true
  | .lz78Dec => true
  | .lzwDec => true
  | .sbSlice => true

/-- The largest capacity of `SYM`, `TOK` and the dictionary: `2^32 - 2` (R10, 00_scope.md). -/
def Config.maxCap : Nat := 4294967294

/-- The ranges of the parameters: `1 <= SYMW <= 24` (R9); every capacity at least 1, `SYM_CAP`, `TOK_CAP`
and `DICT_CAP` at most `2^32 - 2`, `ALPHA_CAP <= min(2^SYMW, DICT_CAP)` (R10, 00_scope.md). -/
def Config.Params.wf (p : Config.Params) : Bool :=
  (decide (1 ≤ p.symW) && decide (p.symW ≤ 24)) &&
  (decide (1 ≤ p.symCap) && decide (p.symCap ≤ Config.maxCap)) &&
  (decide (1 ≤ p.tokCap) && decide (p.tokCap ≤ Config.maxCap)) &&
  (decide (1 ≤ p.dictCap) && decide (p.dictCap ≤ Config.maxCap)) &&
  (decide (1 ≤ p.alphaCap) && decide (p.alphaCap ≤ min (2 ^ p.symW) p.dictCap))

end Sys2Proof
end

