-- ==== Sys2Proof/Decode.lean ====
section
/-! DEFINITION. The command word (R90 to R93, 30_encoding.md): the decoder, total on every 32-bit word, and
the encoder. -/

namespace Sys2Proof

/-- Why a word is no command. -/
inductive DecodeError where
  /-- One of the bits 31 to 3 is set (R93, 30_encoding.md). -/
  | illegalCommand (w : Word)
  deriving DecidableEq, Repr

/-- `ALG`, bits 1:0 (R90). -/
def cmdAlg (w : Word) : BitVec 2 := w.extractLsb' 0 2

/-- `DIR`, bit 2 (R90). -/
def cmdDir (w : Word) : BitVec 1 := w.extractLsb' 2 1

/-- `ZERO`, bits 31:3 (R90). -/
def cmdZero (w : Word) : BitVec 29 := w.extractLsb' 3 29

/-- The command in the row `DIR`, `ALG` of the opcode map (R91, 30_encoding.md). -/
def commandOf (dir : BitVec 1) (alg : BitVec 2) : Instr :=
  if dir = 0#1 then
    if alg = 0#2 then .lz77Enc
    else if alg = 1#2 then .lz78Enc
    else if alg = 2#2 then .lzwEnc
    else .sbLpm
  else
    if alg = 0#2 then .lz77Dec
    else if alg = 1#2 then .lz78Dec
    else if alg = 2#2 then .lzwDec
    else .sbSlice

/-- The decoder of R91 (30_encoding.md): a word with a bit of `ZERO` set is no command (R93), any other is
the row of its low three bits. -/
def decode (w : Word) : Except DecodeError Instr :=
  if cmdZero w = 0#29 then .ok (commandOf (cmdDir w) (cmdAlg w))
  else .error (.illegalCommand w)

/-- `ALG` of a command (R90, R91): 0 LZ77, 1 LZ78, 2 LZW, 3 Symbol Buffer. -/
def algOf : Instr → BitVec 2
  | .lz77Enc => 0#2
  | .lz78Enc => 1#2
  | .lzwEnc => 2#2
  | .sbLpm => 3#2
  | .lz77Dec => 0#2
  | .lz78Dec => 1#2
  | .lzwDec => 2#2
  | .sbSlice => 3#2

/-- `DIR` of a command (R90, R91): 0 encode or longest-prefix match, 1 decode or slice. -/
def dirOf : Instr → BitVec 1
  | .lz77Enc => 0#1
  | .lz78Enc => 0#1
  | .lzwEnc => 0#1
  | .sbLpm => 0#1
  | .lz77Dec => 1#1
  | .lz78Dec => 1#1
  | .lzwDec => 1#1
  | .sbSlice => 1#1

/-- The command word of a command: `ZERO`, `DIR`, `ALG` from the most significant bit down (R90). -/
def encode (i : Instr) : Word := (0#29 ++ dirOf i) ++ algOf i

/-- The command word whose low `nbits` bits are those of `w` and whose other bits are 0. A command is one
whole 32-bit word and LZC has no byte order (R61, R90), so laying the bits out is this number. -/
def tableWord (nbits w : Nat) : Word := Word.ofNum (w % 2 ^ nbits)

/-- The command the decoder reads from the opcode table's numbering of bits: bit 0 is the least
significant bit of the one command word. Bits beyond a 32-bit word belong to no command. -/
def decodeTableWord (nbits w : Nat) : Option Instr :=
  if w % 2 ^ nbits < 2 ^ 32 then (decode (tableWord nbits w)).toOption else none

end Sys2Proof
end

