-- ==== Sys2Proof/Machine/State.lean ====
section
/-! DEFINITION. The state of LZC as plain data (R20 to R44, 10_state.md), the reasons a step can stop, and
the state after reset. -/

namespace Sys2Proof.Machine

open Sys2Proof.Config

/-- The error kinds (R240, R241, 60_exceptions.md); exactly five (U6). -/
inductive ErrKind where
  /-- Code 1: an LZW input symbol outside the alphabet (R242). -/
  | unknownSymbol
  /-- Code 2: an invalid token (R243). -/
  | corruptToken
  /-- Code 3: a non-positive LZ77 size, or an empty or repeating alphabet (R244). -/
  | invalidConfiguration
  /-- Code 4: a word that is no command (R245). -/
  | illegalCommand
  /-- Code 5: a length or a result larger than a memory (R246). -/
  | capacityExceeded
  deriving DecidableEq, Repr

/-- One Token record (R34, 10_state.md; R96, 30_encoding.md). -/
structure Token where
  /-- `TAG`: 0 LZ77, 1 LZ78, 2 LZW, 3 reserved. -/
  tag : BitVec 2
  /-- `HAS_SYM`: the optional symbol is present. -/
  hasSym : Bool
  /-- `SYM`: the trailing symbol. -/
  sym : Sym
  /-- `A`: LZ77 offset, LZ78 or LZW code. -/
  a : Word
  /-- `B`: LZ77 length. -/
  b : Word
  deriving DecidableEq, Repr

/-- One entry-addressed memory (R60, 20_memory.md). `cells` lists the entries written since the contents
last became unspecified, indices strictly rising (`Memory.wf`); an entry not listed holds no value the
spec states, and reads as a free value chosen by `gen` and the index (R272, R275, U1, U2; log entries 2
and 14). `gen`, the model's own field, counts how often the contents became unspecified. -/
structure Memory (α : Type) where
  gen : Nat
  cells : List (Nat × α)
  deriving DecidableEq, Repr

/-- What the host or the platform can do to LZC (R220, R221, 45_host_interface.md; R270,
70_reset_and_hazards.md). An index is any number: those outside a space are the host's too (R62). -/
inductive HostOp where
  /-- `RDREG i` (R220). -/
  | rdReg (i : Nat)
  /-- `WRREG i, v` (R220); with `i = 0` it issues the command `v` (R22, R223). -/
  | wrReg (i : Nat) (v : Word)
  /-- `RDSYM i` (R221). -/
  | rdSym (i : Nat)
  /-- `WRSYM i, v` (R221): `v` is any number, of which the low `SYMW` bits are stored (R64). -/
  | wrSym (i : Nat) (v : Nat)
  /-- `RDTOK i` (R221). -/
  | rdTok (i : Nat)
  /-- `WRTOK i, rec` (R221). -/
  | wrTok (i : Nat) (rec : Record)
  /-- `RDALPHA i` (R221). -/
  | rdAlpha (i : Nat)
  /-- `WRALPHA i, v` (R221). -/
  | wrAlpha (i : Nat) (v : Nat)
  /-- The reset input (R270). -/
  | reset
  deriving DecidableEq, Repr

/-- What a host read returns. -/
inductive Reply where
  /-- From `RDREG`. -/
  | word (v : Word)
  /-- From `RDSYM` and `RDALPHA`. -/
  | entry (v : Sym)
  /-- From `RDTOK`. -/
  | record (v : Record)
  deriving DecidableEq, Repr

/-- The faults of a step: there are none. Every error of LZC is reported in `STATUS` and leaves the block
idle (R248, R252, 60_exceptions.md), no access can fault (R66, 20_memory.md), and every command
terminates (R227, 45_host_interface.md); so the type has no constructor. Log entry 13, safe. -/
inductive Fault where
  deriving DecidableEq, Repr

/-- The refusals of a step. -/
inductive Refusal where
  /-- Answered by an arm of `exec` that has no meaning yet. Safe: the machine stops where the hardware
  goes on. No arm of this model answers it. -/
  | notModelled (mnemonic : String)
  /-- Answered by `hostStep` for a host access, other than a read of `STATUS`, while `STATUS.BUSY = 1`:
  the spec defines nothing for it (R279, 70_reset_and_hazards.md; U3, treatment `refuse`). Safe: the
  machine stops. No state reached from reset has `BUSY = 1` (log entry 6). -/
  | busyAccess
  deriving DecidableEq, Repr

/-- The state of LZC between two operations of the host. Registers: R21 (10_state.md). Working state does
not outlive a command (R42), and a command is one step (R224), so none is held here (log entry 4). -/
structure State where
  /-- The parameters of the instance (R9, R10): constants, no machine state (log entry 1). -/
  params : Params
  /-- `STATUS.BUSY` (R23). -/
  busy : Bool
  /-- `STATUS.DONE` (R23). -/
  done : Bool
  /-- `STATUS.ERR` (R23): no error, or the kind. -/
  err : Option ErrKind
  /-- `ERRINFO`, register 2 (R24). -/
  errinfo : Word
  /-- `WSIZE`, register 3 (R28). -/
  wsize : Word
  /-- `LSIZE`, register 4 (R28). -/
  lsize : Word
  /-- `ALPHA_LEN`, register 5 (R29). -/
  alphaLen : Word
  /-- `SYM_LEN`, register 6 (R25). -/
  symLen : Word
  /-- `TOK_LEN`, register 7 (R26). -/
  tokLen : Word
  /-- `QPOS`, register 8 (R31). -/
  qpos : Word
  /-- `QEND`, register 9 (R31). -/
  qend : Word
  /-- `QMAX`, register 10 (R31). -/
  qmax : Word
  /-- `CLO`, register 11 (R31). -/
  clo : Word
  /-- `CHI`, register 12 (R31). -/
  chi : Word
  /-- `RLEN`, register 13 (R32). -/
  rlen : Word
  /-- `ROFF`, register 14 (R32). -/
  roff : Word
  /-- `DCOUNT`, register 15 (R27). -/
  dcount : Word
  /-- The symbol memory `SYM` (R33). -/
  sym : Memory Sym
  /-- The token memory `TOK` (R34). -/
  tok : Memory Token
  /-- The alphabet memory `ALPHA` (R30). -/
  alpha : Memory Sym
  /-- The model's own field: the operations the host has still to perform, the next one first (R105, R224;
  log entry 5). -/
  script : List HostOp
  /-- The model's own field: what the last host operation returned, if it was a read (log entry 11). -/
  reply : Option Reply
  deriving DecidableEq, Repr

/-- A memory no entry of which has been written: every entry is unspecified (R272). -/
def Memory.unwritten {α : Type} (gen : Nat) : Memory α := { gen := gen, cells := [] }

/-- The machine right after reset (R44, R271): every register 0, every memory entry unspecified (R272), the
reference instance of R10 (log entry 1), the host with nothing pending (log entry 5). -/
def State.reset : State :=
  { params := Params.reference
    busy := false, done := false, err := none, errinfo := 0#32
    wsize := 0#32, lsize := 0#32, alphaLen := 0#32, symLen := 0#32, tokLen := 0#32
    qpos := 0#32, qend := 0#32, qmax := 0#32, clo := 0#32, chi := 0#32
    rlen := 0#32, roff := 0#32, dcount := 0#32
    sym := Memory.unwritten 0, tok := Memory.unwritten 0, alpha := Memory.unwritten 0
    script := [], reply := none }

end Sys2Proof.Machine
end

