-- ==== Sys2Proof/Machine/Flags.lean ====
section
/-! DEFINITION. The flags of LZC: the `STATUS` word with its `ERR` code (R23, R241), and the sign test of the
LZ77 sizes (R28, R230). There is no other flag or condition code. -/

namespace Sys2Proof.Machine

/-- The code of an error kind in `STATUS.ERR` (R241, 60_exceptions.md). -/
def ErrKind.code : ErrKind → BitVec 3
  | .unknownSymbol => 1#3
  | .corruptToken => 2#3
  | .invalidConfiguration => 3#3
  | .illegalCommand => 4#3
  | .capacityExceeded => 5#3

/-- `STATUS.ERR`: 0 is no error (R23, R241). -/
def errCode : Option ErrKind → BitVec 3
  | none => 0#3
  | some k => k.code

/-- The `STATUS` word (R23, 10_state.md): bit 0 `BUSY`, bit 1 `DONE`, bits 3:2 zero, bits 6:4 `ERR`, bits 31:7
zero. -/
def statusWord (busy done : Bool) (err : Option ErrKind) : Word :=
  (((0#25 ++ errCode err) ++ 0#2) ++ BitVec.ofBool done) ++ BitVec.ofBool busy

/-- `sint(w) >= 1` (R12, 00_scope.md; R28, 10_state.md): the word read as a two's complement number is
positive. -/
def isPositive (w : Word) : Bool := decide (0 < w.toInt)

end Sys2Proof.Machine
end

