-- ==== Sys2Proof/Machine/Ops.lean ====
section
/-! DEFINITION. The named operations over memories and registers (R60 to R64, R220, R221), what the start, the
success and the error of a command write (R223, R226, R248 to R250), and the reset (R271, R272). -/

namespace Sys2Proof.Machine

open Sys2Proof.Config

/-! ### One memory -/

/-- The value listed at index `i`, if there is one. -/
def cellAt {α : Type} : List (Nat × α) → Nat → Option α
  | [], _ => none
  | (j, v) :: rest, i => if j = i then some v else cellAt rest i

/-- The list with `v` at index `i`, indices still strictly rising. -/
def setCell {α : Type} (i : Nat) (v : α) : List (Nat × α) → List (Nat × α)
  | [] => [(i, v)]
  | (j, w) :: rest =>
    if i < j then (i, v) :: (j, w) :: rest
    else if i = j then (i, v) :: rest
    else (j, w) :: setCell i v rest

/-- Indices strictly rising, each above `lo`. -/
def risingFrom {α : Type} (lo : Nat) : List (Nat × α) → Bool
  | [] => true
  | (j, _) :: rest => decide (lo ≤ j) && risingFrom (j + 1) rest

/-- The canonical form of a memory: indices strictly rising. An entry not listed has no stated value (U1), so
no listed entry repeats what an unlisted one reads as. -/
abbrev Memory.wf {α : Type} (m : Memory α) : Bool := risingFrom 0 m.cells

/-- Entry `i` of a memory: what was written there, else the free value `free gen i` (R272, R275). -/
def Memory.read {α : Type} (free : Nat → Nat → α) (m : Memory α) (i : Nat) : α :=
  match cellAt m.cells i with
  | some v => v
  | none => free m.gen i

/-- `MemWrite(space, i, v)` (R60, 20_memory.md). -/
def Memory.write {α : Type} (m : Memory α) (i : Nat) (v : α) : Memory α :=
  { m with cells := setCell i v m.cells }

/-- Writes a sequence to consecutive entries, the first at `i`, in order. -/
def Memory.writeFrom {α : Type} (m : Memory α) : Nat → List α → Memory α
  | _, [] => m
  | i, v :: rest => Memory.writeFrom (m.write i v) (i + 1) rest

/-- Every entry becomes unspecified (R250, R272; U1, U2): nothing is listed, and the free values are those of
a fresh generation. -/
def Memory.scramble {α : Type} (m : Memory α) : Memory α := Memory.unwritten (m.gen + 1)

/-! ### The three memories of the state -/

/-- `v mod 2^SYMW` (R64, 20_memory.md). -/
def narrow (symW v : Nat) : Sym := BitVec.ofNat 24 (v % 2 ^ symW)

/-- The five fields a record word stores (R64, R96): the unused bits are dropped. -/
def unpackToken (symW : Nat) (r : Record) : Token :=
  { tag := r.extractLsb' 89 2
    hasSym := r.getLsbD 88
    sym := narrow symW (r.extractLsb' 64 24).toNat
    a := r.extractLsb' 0 32
    b := r.extractLsb' 32 32 }

/-- The 96-bit word of a record (R96, 30_encoding.md): `A` bits 31:0, `B` bits 63:32, `SYM` from bit 64,
`HAS_SYM` bit 88, `TAG` bits 90:89, every other bit 0. -/
def packToken (symW : Nat) (t : Token) : Record :=
  ((((0#5 ++ t.tag) ++ BitVec.ofBool t.hasSym) ++ narrow symW t.sym.toNat) ++ t.b) ++ t.a

/-- The all-zero record, what a read beyond `TOK_CAP` returns (R62, 20_memory.md). -/
def zeroToken : Token := { tag := 0#2, hasSym := false, sym := 0#24, a := 0#32, b := 0#32 }

/-- What an unwritten entry of `SYM` reads as: any `SYMW`-bit value (R275; U1). -/
def State.freeSymAt (s : State) (gen i : Nat) : Sym := narrow s.params.symW (freeSym gen i).toNat

/-- What an unwritten entry of `TOK` reads as: any record (R275; U1). -/
def State.freeTokAt (s : State) (gen i : Nat) : Token := unpackToken s.params.symW (freeTok gen i)

/-- What an unwritten entry of `ALPHA` reads as: any `SYMW`-bit value (R275; U1). -/
def State.freeAlphaAt (s : State) (gen i : Nat) : Sym := narrow s.params.symW (freeAlpha gen i).toNat

/-- `SYM[i]`; 0 at or beyond `SYM_CAP` (R62, R221). -/
def State.symAt (s : State) (i : Nat) : Sym :=
  if i < s.params.symCap then s.sym.read s.freeSymAt i else 0#24

/-- `TOK[i]`; the all-zero record at or beyond `TOK_CAP` (R62, R221). -/
def State.tokAt (s : State) (i : Nat) : Token :=
  if i < s.params.tokCap then s.tok.read s.freeTokAt i else zeroToken

/-- `ALPHA[i]`; 0 at or beyond `ALPHA_CAP` (R62, R221). -/
def State.alphaAt (s : State) (i : Nat) : Sym :=
  if i < s.params.alphaCap then s.alpha.read s.freeAlphaAt i else 0#24

/-- `WRSYM i, v` (R221): stores `v mod 2^SYMW` (R64); ignored at or beyond `SYM_CAP` (R62). -/
def State.writeSym (i v : Nat) (s : State) : State :=
  if i < s.params.symCap then { s with sym := s.sym.write i (narrow s.params.symW v) } else s

/-- `WRTOK i, rec` (R221): stores the five fields (R64); ignored at or beyond `TOK_CAP` (R62). -/
def State.writeTok (i : Nat) (rec : Record) (s : State) : State :=
  if i < s.params.tokCap then { s with tok := s.tok.write i (unpackToken s.params.symW rec) } else s

/-- `WRALPHA i, v` (R221): stores `v mod 2^SYMW` (R64); ignored at or beyond `ALPHA_CAP` (R62). -/
def State.writeAlpha (i v : Nat) (s : State) : State :=
  if i < s.params.alphaCap then { s with alpha := s.alpha.write i (narrow s.params.symW v) } else s

/-! ### The register space -/

/-- `STATUS` as the host reads it (R23). -/
def State.status (s : State) : Word := statusWord s.busy s.done s.err

/-- `RDREG i` (R220): the registers of R21 (10_state.md); `CMD` and every number above 15 read 0. -/
def State.readReg (s : State) (i : Nat) : Word :=
  match i with
  | 0 => 0#32
  | 1 => s.status
  | 2 => s.errinfo
  | 3 => s.wsize
  | 4 => s.lsize
  | 5 => s.alphaLen
  | 6 => s.symLen
  | 7 => s.tokLen
  | 8 => s.qpos
  | 9 => s.qend
  | 10 => s.qmax
  | 11 => s.clo
  | 12 => s.chi
  | 13 => s.rlen
  | 14 => s.roff
  | 15 => s.dcount
  | _ => 0#32

/-- `WRREG i, v` for `i` other than `CMD` (R220): the read/write registers 3 to 12 take `v`; a write to a
read-only register or to a number above 15 does nothing (R21, R63). -/
def State.writeReg (i : Nat) (v : Word) (s : State) : State :=
  match i with
  | 3 => { s with wsize := v }
  | 4 => { s with lsize := v }
  | 5 => { s with alphaLen := v }
  | 6 => { s with symLen := v }
  | 7 => { s with tokLen := v }
  | 8 => { s with qpos := v }
  | 9 => { s with qend := v }
  | 10 => { s with qmax := v }
  | 11 => { s with clo := v }
  | 12 => { s with chi := v }
  | _ => s

/-! ### The life of a command -/

/-- What issuing a command writes before anything else (R223): `BUSY <- 1`, `DONE <- 0`. -/
def State.start (s : State) : State := { s with busy := true, done := false }

/-- The last line of a successful command (R226): `STATUS.ERR <- 0`, `ERRINFO <- 0`, `BUSY <- 0`, `DONE <- 1`. -/
def State.succeed (s : State) : State :=
  { s with err := none, errinfo := 0#32, busy := false, done := true }

/-- `raise Kind(info)`, what LZC has for taking an exception (R248, 60_exceptions.md): the kind goes to
`STATUS.ERR`, `info` to `ERRINFO`, `BUSY <- 0`, `DONE <- 1`. Nothing else is saved and control goes nowhere.
There is nothing to return from (R252): the next command may be issued at once. -/
def State.raise (kind : ErrKind) (info : Word) (s : State) : State :=
  { s with err := some kind, errinfo := info, busy := false, done := true }

/-- A `raise` inside an encode command: `TOK_LEN <- 0`, `DCOUNT <- 0` (R249). -/
def State.raiseEncode (kind : ErrKind) (info : Word) (s : State) : State :=
  State.raise kind info { s with tokLen := 0#32, dcount := 0#32 }

/-- A `raise` inside a decode command: `SYM_LEN <- 0`, `DCOUNT <- 0` (R249). -/
def State.raiseDecode (kind : ErrKind) (info : Word) (s : State) : State :=
  State.raise kind info { s with symLen := 0#32, dcount := 0#32 }

/-- A `raise` inside a query command: `RLEN <- 0`, `ROFF <- 0` (R249). -/
def State.raiseQuery (kind : ErrKind) (info : Word) (s : State) : State :=
  State.raise kind info { s with rlen := 0#32, roff := 0#32 }

/-- Every entry of `TOK` becomes unspecified: a run-time error of an encode (R250; U2). -/
def State.scrambleTok (s : State) : State := { s with tok := s.tok.scramble }

/-- Every entry of `SYM` becomes unspecified: a run-time error of a decode (R250; U2). -/
def State.scrambleSym (s : State) : State := { s with sym := s.sym.scramble }

/-- What a `raise` inside a command's loop carries (R248): the kind and `info`. -/
structure Raise where
  kind : ErrKind
  info : Word
  deriving DecidableEq, Repr

/-- `emit(tok)` (R104, 30_encoding.md): `out` is the token stream so far, `T_out` its length; a full `TOK`
raises `CapacityExceeded(pos)`. -/
def emit (tokCap pos : Nat) (tok : Token) (out : List Token) : Except Raise (List Token) :=
  if out.length = tokCap then .error { kind := .capacityExceeded, info := Word.ofNum pos }
  else .ok (out ++ [tok])

/-- Appends an entry to a dictionary (R38, 10_state.md); a full one raises `CapacityExceeded(info)` (R246 (d)). -/
def insertPhrase (dictCap info : Nat) (p : Phrase) (dict : List Phrase) : Except Raise (List Phrase) :=
  if dict.length = dictCap then .error { kind := .capacityExceeded, info := Word.ofNum info }
  else .ok (dict ++ [p])

/-- The end of an encode command's loop: the tokens and the dictionary size go to `TOK[0..T)`, `TOK_LEN` and
`DCOUNT` (R26, R27, R251), or the error of the loop is raised, with `TOK` unspecified (R249, R250). -/
def State.finishEncode (r : Except Raise (List Token × Nat)) (s : State) : State :=
  match r with
  | .error e => State.raiseEncode e.kind e.info s.scrambleTok
  | .ok (toks, dcount) =>
    State.succeed
      { s with
        tok := s.tok.writeFrom 0 toks
        tokLen := Word.ofNum toks.length
        dcount := Word.ofNum dcount }

/-- The end of a decode command's loop: the symbols and the dictionary size go to `SYM[0..n)`, `SYM_LEN` and
`DCOUNT` (R25, R27, R251), or the error of the loop is raised, with `SYM` unspecified (R249, R250). -/
def State.finishDecode (r : Except Raise (List Sym × Nat)) (s : State) : State :=
  match r with
  | .error e => State.raiseDecode e.kind e.info s.scrambleSym
  | .ok (syms, dcount) =>
    State.succeed
      { s with
        sym := s.sym.writeFrom 0 syms
        symLen := Word.ofNum syms.length
        dcount := Word.ofNum dcount }

/-- The end of a query command: `RLEN`, `ROFF` (R32). -/
def State.finishQuery (len off : Nat) (s : State) : State :=
  State.succeed { s with rlen := Word.ofNum len, roff := Word.ofNum off }

/-- The reset input (R270 to R273, 70_reset_and_hazards.md): every register 0, every entry of the memories
unspecified, no command executing. The instance and the host's own pending operations are not LZC's to reset
(log entry 10). -/
def State.resetInput (s : State) : State :=
  { s with
    busy := false, done := false, err := none, errinfo := 0#32
    wsize := 0#32, lsize := 0#32, alphaLen := 0#32, symLen := 0#32, tokLen := 0#32
    qpos := 0#32, qend := 0#32, qmax := 0#32, clo := 0#32, chi := 0#32
    rlen := 0#32, roff := 0#32, dcount := 0#32
    sym := s.sym.scramble, tok := s.tok.scramble, alpha := s.alpha.scramble }

end Sys2Proof.Machine
end

