-- ==== Sys2Proof/Machine/Operands.lean ====
section
/-! DEFINITION. The operand forms: the views of `SYM`, `TOK` and `ALPHA` the commands read (R25, R26, R29, R31),
the configuration tests (R141, R191), the token shapes (R94 to R103) and the sequence primitives of R13. -/

namespace Sys2Proof.Machine

/-! ### Sequences -/

/-- `s[i..j)` (R11, 00_scope.md). -/
def subseq {α : Type} (xs : List α) (i j : Nat) : List α := (xs.drop i).take (j - i)

/-- `lastn(s, n)`, the last `n` elements (R13, 00_scope.md). -/
def lastn {α : Type} (xs : List α) (n : Nat) : List α := xs.drop (xs.length - min n xs.length)

/-- `slice(s, i, n)`, the clamped slice (R13, 00_scope.md; R123, 40_symbol_buffer.md): `s[i' .. i'+n')` with
`i' = min(i, |s|)` and `n' = min(n, |s| - i')`. -/
def slice {α : Type} (xs : List α) (i n : Nat) : List α :=
  let i' := min i xs.length
  let n' := min n (xs.length - i')
  subseq xs i' (i' + n')

/-- `opt(o)` in `s ++ opt(o)` (R12, 00_scope.md). -/
def optSym : Option Sym → List Sym
  | some x => [x]
  | none => []

/-! ### Views of the memories -/

/-- `SYM[lo..hi)` (R12, R25). -/
def State.symView (s : State) (lo hi : Nat) : List Sym := (List.range' lo (hi - lo)).map s.symAt

/-- The input `SYM[0..SYM_LEN)` of an encode (R25). -/
def State.input (s : State) : List Sym := s.symView 0 s.symLen.toNat

/-- The token stream `TOK[0..TOK_LEN)` of a decode (R26). -/
def State.stream (s : State) : List Token := (List.range' 0 s.tokLen.toNat).map s.tokAt

/-- The initial alphabet `ALPHA[0..ALPHA_LEN)` (R29, R30). -/
def State.alphabet (s : State) : List Sym := (List.range' 0 s.alphaLen.toNat).map s.alphaAt

/-! ### Tests before a command looks at its input (R247, priorities 2 to 3) -/

/-- `SYM_LEN > SYM_CAP` (R246 (a)). -/
def State.symLenTooLong (s : State) : Bool := decide (s.params.symCap < s.symLen.toNat)

/-- `TOK_LEN > TOK_CAP` (R246 (a)). -/
def State.tokLenTooLong (s : State) : Bool := decide (s.params.tokCap < s.tokLen.toNat)

/-- `ALPHA_LEN > ALPHA_CAP` (R246 (a)). -/
def State.alphaLenTooLong (s : State) : Bool := decide (s.params.alphaCap < s.alphaLen.toNat)

/-- `W <= 0 or L <= 0`, signed, fails (R141, 41_lz77.md). -/
def State.sizesValid (s : State) : Bool := isPositive s.wsize && isPositive s.lsize

/-- Two equal entries in a sequence. -/
def hasRepeat : List Sym → Bool
  | [] => false
  | x :: rest => rest.contains x || hasRepeat rest

/-- The alphabet is non-empty and its entries are distinct (R191, 43_lzw.md). -/
def alphabetValid (alpha : List Sym) : Bool := !alpha.isEmpty && !hasRepeat alpha

/-- The index of the first symbol outside the alphabet, scanning left to right (R192, 43_lzw.md); `i` is the
index of the first symbol of the list. -/
def firstUnknown (alpha : List Sym) : List Sym → Nat → Option Nat
  | [], _ => none
  | c :: rest, i => if alpha.contains c then firstUnknown alpha rest (i + 1) else some i

/-! ### The token shapes -/

/-- A record of variant `tag` in canonical form (R97 to R100): `SYM` is 0 when the symbol is absent. -/
def mkToken (tag : BitVec 2) (a b : Nat) (s : Option Sym) : Token :=
  match s with
  | some x => { tag := tag, hasSym := true, sym := x, a := Word.ofNum a, b := Word.ofNum b }
  | none => { tag := tag, hasSym := false, sym := 0#24, a := Word.ofNum a, b := Word.ofNum b }

/-- `TAG` of an LZ77Token (R96). -/
def tagLz77 : BitVec 2 := 0#2

/-- `TAG` of an LZ78Token (R96). -/
def tagLz78 : BitVec 2 := 1#2

/-- `TAG` of an LZWToken (R96). -/
def tagLzw : BitVec 2 := 2#2

/-- The LZ77 token `(off, len, s)` (R97). -/
def lz77Token (off len : Nat) (s : Option Sym) : Token := mkToken tagLz77 off len s

/-- The LZ78 token `(k, s)` (R98). -/
def lz78Token (k : Nat) (s : Option Sym) : Token := mkToken tagLz78 k 0 s

/-- The LZW token `k` (R99). -/
def lzwToken (k : Nat) : Token := mkToken tagLzw k 0 none

/-- The optional trailing symbol a decoder reads (R101, R102): `SYM` is ignored when `HAS_SYM = 0`. -/
def Token.symbol (t : Token) : Option Sym := if t.hasSym then some t.sym else none

end Sys2Proof.Machine
end

