-- ==== Sys2Proof/Machine/SymbolBuffer.lean ====
section
/-! DEFINITION. The Symbol Buffer: the longest-prefix match (R120 to R122) and the two query commands `SB.LPM`
(R125) and `SB.SLICE` (R126). -/

namespace Sys2Proof.Machine

/-- `p` occurs in `c` at `q` (R11, 00_scope.md): `q + |p| <= |c|` and `c[q..q+|p|) = p`. -/
def occursAt (p c : List Sym) (q : Nat) : Bool :=
  decide (q + p.length ≤ c.length) && decide (subseq c q (q + p.length) = p)

/-- The greatest start, not above the last argument, at which `p` occurs in `c`: the inner loop of R122
(40_symbol_buffer.md). -/
def lastOccurrence (p c : List Sym) : Nat → Option Nat
  | 0 => if occursAt p c 0 then some 0 else none
  | q + 1 => if occursAt p c (q + 1) then some (q + 1) else lastOccurrence p c q

/-- The outer loop of R122, from length `l` down to 1: the first length whose prefix of `seq` occurs in `ctx`,
with its offset `|ctx| - q`; `(0, 0)` when none does. -/
def lpmFrom (seq ctx : List Sym) : Nat → Nat × Nat
  | 0 => (0, 0)
  | l + 1 =>
    match lastOccurrence (seq.take (l + 1)) ctx (ctx.length - (l + 1)) with
    | some q => (l + 1, ctx.length - q)
    | none => lpmFrom seq ctx l

/-- `LPM(seq, m, ctx) -> (len, off)` (R120 to R122, 40_symbol_buffer.md): the longest prefix of `seq`, at most
`m` long, that occurs in `ctx`, and the offset of its right-most occurrence. -/
def lpm (seq : List Sym) (m : Nat) (ctx : List Sym) : Nat × Nat :=
  lpmFrom seq ctx (min m (min seq.length ctx.length))

/-- `SB.LPM` (R125, 40_symbol_buffer.md): the query over the clamped views `SYM[qpos..qend)` and
`SYM[clo..chi)`. -/
def execSbLpm (s : State) : Host.Outcome State Fault Refusal :=
  if s.symLenTooLong then .next (State.raiseQuery .capacityExceeded 0#32 s)
  else
    let n := s.symLen.toNat
    let qend := min s.qend.toNat n
    let qpos := min s.qpos.toNat qend
    let chi := min s.chi.toNat n
    let clo := min s.clo.toNat chi
    let r := lpm (s.symView qpos qend) s.qmax.toNat (s.symView clo chi)
    .next (State.finishQuery r.1 r.2 s)

/-- `SB.SLICE` (R126, 40_symbol_buffer.md): the clamped bounds of `slice(SYM[0..N), QPOS, QMAX)`. -/
def execSbSlice (s : State) : Host.Outcome State Fault Refusal :=
  if s.symLenTooLong then .next (State.raiseQuery .capacityExceeded 0#32 s)
  else
    let n := s.symLen.toNat
    let off := min s.qpos.toNat n
    let len := min s.qmax.toNat (n - off)
    .next (State.finishQuery len off s)

end Sys2Proof.Machine
end

