-- ==== Sys2Proof/Machine/Lz77.lean ====
section
/-! DEFINITION. The LZ77 engine: `LZ77.ENC` (R140 to R152) and `LZ77.DEC` (R153 to R159). -/

namespace Sys2Proof.Machine

open Sys2Proof.Config

/-- The working state of `LZ77.ENC`: the cursor `pos` (R35), the Search Window (R36), the Lookahead Buffer (R37),
and the tokens emitted so far, whose number is the cursor `T_out` (R35). -/
structure Lz77EncWork where
  pos : Nat
  win : List Sym
  la : List Sym
  out : List Token
  deriving DecidableEq, Repr

/-- The working state an encode starts from (R142, 41_lz77.md). -/
def lz77EncInit (l : Nat) (input : List Sym) : Lz77EncWork :=
  { pos := 0, win := [], la := slice input 0 l, out := [] }

/-- The token of a step and the number of symbols it consumes (R145, R146, R147): `len` and `off` are the
match. -/
def lz77Emission (input : List Sym) (pos len off : Nat) : Token × Nat :=
  if 1 ≤ len then
    match input[pos + len]? with
    | some x => (lz77Token off len (some x), len + 1)
    | none => (lz77Token off len none, len)
  else (lz77Token 0 0 input[pos]?, 1)

/-- One iteration of the loop of R140: the search (R144), the token (R145 to R147), the window (R148), the
lookahead (R149). -/
def lz77EncStep (p : Params) (w l : Nat) (input : List Sym) (k : Lz77EncWork) : Except Raise Lz77EncWork :=
  let r := lpm k.la (min l k.la.length) k.win
  let e := lz77Emission input k.pos r.1 r.2
  match emit p.tokCap k.pos e.1 k.out with
  | .error x => .error x
  | .ok out =>
    .ok
      { pos := k.pos + e.2
        win := lastn (k.win ++ subseq input k.pos (k.pos + e.2)) w
        la := slice input (k.pos + e.2) l
        out := out }

/-- `while pos < N` of R140. An iteration advances `pos` by at least 1 (R150), so `|SYM[0..N)|` iterations always
suffice (R227); the first argument counts them. -/
def lz77EncLoop (p : Params) (w l : Nat) (input : List Sym) : Nat → Lz77EncWork → Except Raise Lz77EncWork
  | 0, k => .ok k
  | fuel + 1, k =>
    if k.pos < input.length then
      match lz77EncStep p w l input k with
      | .error x => .error x
      | .ok k' => lz77EncLoop p w l input fuel k'
    else .ok k

/-- The function-level `encode` of LZ77 (R140 to R150): the tokens, and the dictionary size 0 (R27). -/
def lz77Encode (p : Params) (w l : Nat) (input : List Sym) : Except Raise (List Token × Nat) :=
  match lz77EncLoop p w l input input.length (lz77EncInit l input) with
  | .error x => .error x
  | .ok k => .ok (k.out, 0)

/-- `LZ77.ENC` (R140, 41_lz77.md). -/
def execLz77Enc (s : State) : Host.Outcome State Fault Refusal :=
  if s.symLenTooLong then .next (State.raiseEncode .capacityExceeded 0#32 s)
  else if !s.sizesValid then .next (State.raiseEncode .invalidConfiguration 0#32 s)
  else .next (State.finishEncode (lz77Encode s.params s.wsize.toNat s.lsize.toNat s.input) s)

/-- `raise CorruptToken(t)` inside a decode loop (R243). -/
def corruptToken {α : Type} (t : Nat) : Except Raise α :=
  .error { kind := .corruptToken, info := Word.ofNum t }

/-- `raise CapacityExceeded(t)` inside a decode loop (R246 (c)). -/
def outputFull {α : Type} (t : Nat) : Except Raise α :=
  .error { kind := .capacityExceeded, info := Word.ofNum t }

/-- One token of `LZ77.DEC` (R153): the tests of R154, the room for its symbols, the copy and the trailing symbol
(R155). `out` is `SYM[0..n)`. The copied span ends at or before `n`, so the order of copying is unobservable
(R68, 20_memory.md). -/
def lz77DecStep (p : Params) (t : Nat) (r : Token) (out : List Sym) : Except Raise (List Sym) :=
  let n := out.length
  let off := r.a.toNat
  let len := r.b.toNat
  if r.tag ≠ tagLz77 then corruptToken t
  else if n < off then corruptToken t
  else if off < len then corruptToken t
  else if len = 0 ∧ r.symbol = none then corruptToken t
  else if p.symCap - n < len + (optSym r.symbol).length then outputFull t
  else .ok ((out ++ subseq out (n - off) (n - off + len)) ++ optSym r.symbol)

/-- `for t from 0 to T - 1` of R153: the tokens from index `t` on, strictly left to right. -/
def lz77DecLoop (p : Params) : List Token → Nat → List Sym → Except Raise (List Sym)
  | [], _, out => .ok out
  | r :: rest, t, out =>
    match lz77DecStep p t r out with
    | .error x => .error x
    | .ok out' => lz77DecLoop p rest (t + 1) out'

/-- The function-level `decode` of LZ77 (R153 to R158): the symbols, and the dictionary size 0 (R27). It does not
take `W` or `L` (R156). -/
def lz77Decode (p : Params) (toks : List Token) : Except Raise (List Sym × Nat) :=
  match lz77DecLoop p toks 0 [] with
  | .error x => .error x
  | .ok out => .ok (out, 0)

/-- `LZ77.DEC` (R153, 41_lz77.md). -/
def execLz77Dec (s : State) : Host.Outcome State Fault Refusal :=
  if s.tokLenTooLong then .next (State.raiseDecode .capacityExceeded 0#32 s)
  else if !s.sizesValid then .next (State.raiseDecode .invalidConfiguration 0#32 s)
  else .next (State.finishDecode (lz77Decode s.params s.stream) s)

end Sys2Proof.Machine
end

