-- ==== Sys2Proof/Machine/Lz78.lean ====
section
/-! DEFINITION. The LZ78 engine: `LZ78.ENC` (R170 to R176) and `LZ78.DEC` (R177 to R182). Element `k - 1` of the
dictionary list is the entry with code `k`, `k >= 1` (R38). -/

namespace Sys2Proof.Machine

open Sys2Proof.Config

/-- The working state of `LZ78.ENC`: the cursor `pos` (R35), the Dictionary (R38), the tokens emitted so far. -/
structure Lz78EncWork where
  pos : Nat
  dict : List Phrase
  out : List Token
  deriving DecidableEq, Repr

/-- The search of R170, entry by entry in code order: `code` is the code of the first phrase of the list, `best`
the match so far, `(0, 0)` for none. A later entry wins only when it is longer, so the lowest code of the
greatest length is kept. -/
def longestEntryFrom (rest : List Sym) : List Phrase → Nat → Nat × Nat → Nat × Nat
  | [], _, best => best
  | p :: ps, code, best =>
    longestEntryFrom rest ps (code + 1)
      (if p.isPrefixOf rest && (decide (best.1 = 0) || decide (best.2 < p.length)) then (code, p.length)
       else best)

/-- `longest_entry(D, rest)` (R170, R172, 42_lz78.md): the code and the length of the longest dictionary phrase
that is a prefix of `rest`; `(0, 0)` if there is none. -/
def longestEntry (dict : List Phrase) (rest : List Sym) : Nat × Nat := longestEntryFrom rest dict 1 (0, 0)

/-- One iteration of the loop of R170: the search (R172), the token (R173, R174), the insertion (R175), which is
made for every token. -/
def lz78EncStep (p : Params) (input : List Sym) (k : Lz78EncWork) : Except Raise Lz78EncWork :=
  let m := longestEntry k.dict (input.drop k.pos)
  let s := input[k.pos + m.2]?
  let adv := m.2 + (optSym s).length
  match emit p.tokCap k.pos (lz78Token m.1 s) k.out with
  | .error x => .error x
  | .ok out =>
    match insertPhrase p.dictCap k.pos (subseq input k.pos (k.pos + adv)) k.dict with
    | .error x => .error x
    | .ok dict => .ok { pos := k.pos + adv, dict := dict, out := out }

/-- `while pos < N` of R170. An iteration advances `pos` by at least 1 (R176 (g)), so `|SYM[0..N)|` iterations
always suffice (R227); the first argument counts them. -/
def lz78EncLoop (p : Params) (input : List Sym) : Nat → Lz78EncWork → Except Raise Lz78EncWork
  | 0, k => .ok k
  | fuel + 1, k =>
    if k.pos < input.length then
      match lz78EncStep p input k with
      | .error x => .error x
      | .ok k' => lz78EncLoop p input fuel k'
    else .ok k

/-- The function-level `encode` of LZ78 (R170 to R175), from the working state of R171: the tokens and
`|DICT|`. -/
def lz78Encode (p : Params) (input : List Sym) : Except Raise (List Token × Nat) :=
  match lz78EncLoop p input input.length { pos := 0, dict := [], out := [] } with
  | .error x => .error x
  | .ok k => .ok (k.out, k.dict.length)

/-- `LZ78.ENC` (R170, 42_lz78.md). -/
def execLz78Enc (s : State) : Host.Outcome State Fault Refusal :=
  if s.symLenTooLong then .next (State.raiseEncode .capacityExceeded 0#32 s)
  else .next (State.finishEncode (lz78Encode s.params s.input) s)

/-- The working state of `LZ78.DEC`: the Dictionary (R38) and the output `SYM[0..n)`. -/
structure Lz78DecWork where
  dict : List Phrase
  out : List Sym
  deriving DecidableEq, Repr

/-- `phrase(k)` (42_lz78.md): `[]` for code 0, else the entry with code `k`. -/
def lz78Phrase (dict : List Phrase) (k : Nat) : List Sym :=
  match k with
  | 0 => []
  | j + 1 => dict.getD j []

/-- One token of `LZ78.DEC` (R177): the failures (R179, R180), the room for its symbols and its entry, the output
and the insertion (R178). -/
def lz78DecStep (p : Params) (t : Nat) (r : Token) (w : Lz78DecWork) : Except Raise Lz78DecWork :=
  let k := r.a.toNat
  let new := lz78Phrase w.dict k ++ optSym r.symbol
  if r.tag ≠ tagLz78 then corruptToken t
  else if w.dict.length < k then corruptToken t
  else if k = 0 ∧ r.symbol = none then corruptToken t
  else if p.symCap - w.out.length < new.length then outputFull t
  else
    match insertPhrase p.dictCap t new w.dict with
    | .error x => .error x
    | .ok dict => .ok { dict := dict, out := w.out ++ new }

/-- `for t from 0 to T - 1` of R177. -/
def lz78DecLoop (p : Params) : List Token → Nat → Lz78DecWork → Except Raise Lz78DecWork
  | [], _, w => .ok w
  | r :: rest, t, w =>
    match lz78DecStep p t r w with
    | .error x => .error x
    | .ok w' => lz78DecLoop p rest (t + 1) w'

/-- The function-level `decode` of LZ78 (R177 to R181): the symbols and `|DICT|`. -/
def lz78Decode (p : Params) (toks : List Token) : Except Raise (List Sym × Nat) :=
  match lz78DecLoop p toks 0 { dict := [], out := [] } with
  | .error x => .error x
  | .ok w => .ok (w.out, w.dict.length)

/-- `LZ78.DEC` (R177, 42_lz78.md). -/
def execLz78Dec (s : State) : Host.Outcome State Fault Refusal :=
  if s.tokLenTooLong then .next (State.raiseDecode .capacityExceeded 0#32 s)
  else .next (State.finishDecode (lz78Decode s.params s.stream) s)

end Sys2Proof.Machine
end

