-- ==== Sys2Proof/Machine/Lzw.lean ====
section
/-! DEFINITION. The LZW engine: `LZW.ENC` (R190 to R198) and `LZW.DEC` (R199 to R205). Element `k` of the dictionary
list is the entry with code `k`, `k >= 0` (R38). -/

namespace Sys2Proof.Machine

open Sys2Proof.Config

/-- The seeded dictionary (R193, 43_lzw.md): entry `k` is the one-symbol phrase `[ALPHA[k]]`. -/
def lzwSeeds (alpha : List Sym) : List Phrase := alpha.map (fun x => [x])

/-- `code(p)` (43_lzw.md): the code of the entry whose phrase is `p`. It is used only where there is one (R196);
elsewhere it is `|DICT|` (DEDUCED, log entry 17). -/
def codeOf (dict : List Phrase) (p : Phrase) : Nat := dict.idxOf p

/-- The working state of `LZW.ENC`: the Dictionary (R38), the accumulator `CUR` (R40), the tokens emitted so far. -/
structure LzwEncWork where
  dict : List Phrase
  cur : Phrase
  out : List Token
  deriving DecidableEq, Repr

/-- One symbol `c = SYM[pos]` of the loop of R190: extend (R195), or emit, insert, reset, in that order (R197). -/
def lzwEncStep (p : Params) (pos : Nat) (c : Sym) (k : LzwEncWork) : Except Raise LzwEncWork :=
  if k.dict.contains (k.cur ++ [c]) then .ok { k with cur := k.cur ++ [c] }
  else
    match emit p.tokCap pos (lzwToken (codeOf k.dict k.cur)) k.out with
    | .error x => .error x
    | .ok out =>
      match insertPhrase p.dictCap pos (k.cur ++ [c]) k.dict with
      | .error x => .error x
      | .ok dict => .ok { dict := dict, cur := [c], out := out }

/-- `for pos from 1 to N - 1` of R190: the list is what follows, `pos` the index of its first symbol. -/
def lzwEncLoop (p : Params) : List Sym → Nat → LzwEncWork → Except Raise LzwEncWork
  | [], _, k => .ok k
  | c :: rest, pos, k =>
    match lzwEncStep p pos c k with
    | .error x => .error x
    | .ok k' => lzwEncLoop p rest (pos + 1) k'

/-- The working state an encode starts from (R193, R194): the seeds, and the first input symbol as the accumulator. -/
def lzwEncInit (alpha : List Sym) (c : Sym) : LzwEncWork := { dict := lzwSeeds alpha, cur := [c], out := [] }

/-- The function-level `encode` of LZW (R193 to R198) on an input closed under the alphabet: the seeds, the
accumulator's start (R194), the loop, the flush (R198); the tokens and `|DICT|`. -/
def lzwEncode (p : Params) (alpha input : List Sym) : Except Raise (List Token × Nat) :=
  match input with
  | [] => .ok ([], (lzwSeeds alpha).length)
  | c :: rest =>
    match lzwEncLoop p rest 1 (lzwEncInit alpha c) with
    | .error x => .error x
    | .ok k =>
      match emit p.tokCap input.length (lzwToken (codeOf k.dict k.cur)) k.out with
      | .error x => .error x
      | .ok out => .ok (out, k.dict.length)

/-- `LZW.ENC` (R190, 43_lzw.md). The first three errors are raised before any token is written (R192, R250). -/
def execLzwEnc (s : State) : Host.Outcome State Fault Refusal :=
  if s.symLenTooLong || s.alphaLenTooLong then .next (State.raiseEncode .capacityExceeded 0#32 s)
  else if !alphabetValid s.alphabet then .next (State.raiseEncode .invalidConfiguration 0#32 s)
  else
    match firstUnknown s.alphabet s.input 0 with
    | some i => .next (State.raiseEncode .unknownSymbol (Word.ofNum i) s)
    | none => .next (State.finishEncode (lzwEncode s.params s.alphabet s.input) s)

/-- The working state of `LZW.DEC`: the Dictionary (R38), the previous phrase `PREV` (R41), the output `SYM[0..n)`. -/
structure LzwDecWork where
  dict : List Phrase
  prev : Option Phrase
  out : List Sym
  deriving DecidableEq, Repr

/-- `first(p)` as a sequence (R13, 00_scope.md): the first symbol of a non-empty phrase. -/
def firstSym (p : Phrase) : List Sym := p.take 1

/-- The phrase of code `k` (R199): an entry (R200), or the entry being defined in this very step (R201), or none
(R202). -/
def lzwResolve (dict : List Phrase) (prev : Option Phrase) (k : Nat) : Option Phrase :=
  if k < dict.length then dict[k]?
  else if k = dict.length then prev.map (fun p => p ++ firstSym p)
  else none

/-- The insertion of a token (R200): `p ++ [first(ph)]` when there is a previous phrase `p`, nothing for the first
token. -/
def lzwDecInsert (p : Params) (t : Nat) (ph : Phrase) (w : LzwDecWork) : Except Raise (List Phrase) :=
  match w.prev with
  | none => .ok w.dict
  | some q => insertPhrase p.dictCap t (q ++ firstSym ph) w.dict

/-- One token of `LZW.DEC` (R199). -/
def lzwDecStep (p : Params) (t : Nat) (r : Token) (w : LzwDecWork) : Except Raise LzwDecWork :=
  if r.tag ≠ tagLzw then corruptToken t
  else
    match lzwResolve w.dict w.prev r.a.toNat with
    | none => corruptToken t
    | some ph =>
      if p.symCap - w.out.length < ph.length then outputFull t
      else
        match lzwDecInsert p t ph w with
        | .error x => .error x
        | .ok dict => .ok { dict := dict, prev := some ph, out := w.out ++ ph }

/-- `for t from 0 to T - 1` of R199. -/
def lzwDecLoop (p : Params) : List Token → Nat → LzwDecWork → Except Raise LzwDecWork
  | [], _, w => .ok w
  | r :: rest, t, w =>
    match lzwDecStep p t r w with
    | .error x => .error x
    | .ok w' => lzwDecLoop p rest (t + 1) w'

/-- The function-level `decode` of LZW (R199 to R203): the symbols and `|DICT|`. -/
def lzwDecode (p : Params) (alpha : List Sym) (toks : List Token) : Except Raise (List Sym × Nat) :=
  match lzwDecLoop p toks 0 { dict := lzwSeeds alpha, prev := none, out := [] } with
  | .error x => .error x
  | .ok w => .ok (w.out, w.dict.length)

/-- `LZW.DEC` (R199, 43_lzw.md). -/
def execLzwDec (s : State) : Host.Outcome State Fault Refusal :=
  if s.tokLenTooLong || s.alphaLenTooLong then .next (State.raiseDecode .capacityExceeded 0#32 s)
  else if !alphabetValid s.alphabet then .next (State.raiseDecode .invalidConfiguration 0#32 s)
  else .next (State.finishDecode (lzwDecode s.params s.alphabet s.stream) s)

end Sys2Proof.Machine
end

