-- ==== Sys2Proof/Machine/Dispatch.lean ====
section
/-! DEFINITION. The meaning of every command (R91, 30_encoding.md), one arm each, in the order of the opcode
table. -/

namespace Sys2Proof.Machine

def exec (i : Instr) (s : State) : Host.Outcome State Fault Refusal :=
  match i with
  | .lz77Enc => Sys2Proof.Machine.execLz77Enc s
  | .lz78Enc => Sys2Proof.Machine.execLz78Enc s
  | .lzwEnc => Sys2Proof.Machine.execLzwEnc s
  | .sbLpm => Sys2Proof.Machine.execSbLpm s
  | .lz77Dec => Sys2Proof.Machine.execLz77Dec s
  | .lz78Dec => Sys2Proof.Machine.execLz78Dec s
  | .lzwDec => Sys2Proof.Machine.execLzwDec s
  | .sbSlice => Sys2Proof.Machine.execSbSlice s

end Sys2Proof.Machine
end

