-- ==== Sys2Proof/Machine/HostPort.lean ====
section
/-! DEFINITION. The host's side of LZC: the register and memory operations (R220, R221), issuing a command (R223),
the busy rule (R279) and the reset input (R270). -/

namespace Sys2Proof.Machine

/-- `WRREG CMD, w` while `BUSY = 0` (R223, 45_host_interface.md): `BUSY <- 1`, `DONE <- 0`, then the command of the
word, or `raise IllegalCommand(w)` (R93, R245). Whichever it is leaves `BUSY = 0`, `DONE = 1` (R226), so a whole
command is one transition (R224). -/
def State.issue (w : Word) (s : State) : Host.Outcome State Fault Refusal :=
  match decode w with
  | .ok i => exec i s.start
  | .error (.illegalCommand x) => .next (State.raise .illegalCommand x s.start)

/-- What may be done while `STATUS.BUSY = 1`: reading `STATUS` (R279), and the reset input, which is the
platform's and not an access of the host's (R273). -/
def HostOp.allowedWhileBusy : HostOp → Bool
  | .rdReg i => decide (i = 1)
  | .reset => true
  | .wrReg _ _ => false
  | .rdSym _ => false
  | .wrSym _ _ => false
  | .rdTok _ => false
  | .wrTok _ _ => false
  | .rdAlpha _ => false
  | .wrAlpha _ _ => false

/-- `WRREG i, v` while `BUSY = 0` (R220): a write to `CMD` issues a command (R22, R223). -/
def State.hostWriteReg (i : Nat) (v : Word) (s : State) : Host.Outcome State Fault Refusal :=
  if i = 0 then State.issue v s else .next (State.writeReg i v s)

/-- What an operation of the host or the platform does when it may be done (R220, R221, R270). A read changes
nothing but the value returned (R63). -/
def HostOp.perform (op : HostOp) (s : State) : Host.Outcome State Fault Refusal :=
  match op with
  | .rdReg i => .next { s with reply := some (.word (s.readReg i)) }
  | .wrReg i v => State.hostWriteReg i v s
  | .rdSym i => .next { s with reply := some (.entry (s.symAt i)) }
  | .wrSym i v => .next (State.writeSym i v s)
  | .rdTok i => .next { s with reply := some (.record (packToken s.params.symW (s.tokAt i))) }
  | .wrTok i r => .next (State.writeTok i r s)
  | .rdAlpha i => .next { s with reply := some (.entry (s.alphaAt i)) }
  | .wrAlpha i v => .next (State.writeAlpha i v s)
  | .reset => .next s.resetInput

/-- One operation of the host or the platform. An access the busy rule forbids is refused (R279; U3; log
entry 6). -/
def hostStep (op : HostOp) (s : State) : Host.Outcome State Fault Refusal :=
  if s.busy && !op.allowedWhileBusy then .refused .busyAccess else op.perform s

/-- The state the operation at the head of the script acts on: the operation is taken off the script, and the last
returned value is gone. -/
def State.take (s : State) (rest : List HostOp) : State := { s with script := rest, reply := none }

/-- The next operation of the host; when it has none pending, LZC is idle and nothing changes (R252, R258; log
entry 5). -/
def runPending (s : State) : Host.Outcome State Fault Refusal :=
  match s.script with
  | [] => .next s
  | op :: rest => hostStep op (s.take rest)

/-- The host is about to write `w` to `CMD`, with LZC not busy, as R223 asks; its other operations come after. -/
def State.loadCommand (w : Word) (s : State) : State :=
  { s with busy := false, script := .wrReg 0 w :: s.script }

end Sys2Proof.Machine
end

