-- ==== Sys2Proof/Machine/Step.lean ====
section
/-! DEFINITION. One step of LZC and its host: the host's next operation, a whole command when that operation is a
write to `CMD` (R224, 45_host_interface.md). -/

namespace Sys2Proof.Machine

/-- One step: the next pending operation of the host (R220, R221, R223, R270). LZC fetches no instructions (R35,
10_state.md): a command reaches it as the word the host writes to `CMD`. -/
def step (s : State) : Host.Outcome State Fault Refusal := runPending s

/-- `s` with the host about to write the command word whose low `nbits` bits are those of `w`, every other bit 0,
to `CMD` (R22, R223): the next step issues exactly it. Log entries 5 and 15. -/
def State.withFetchWord (s : State) (nbits w : Nat) : State := State.loadCommand (tableWord nbits w) s

end Sys2Proof.Machine
end

