-- ==== Sys2Proof/Safety.lean ====
section
/-! DEFINITION. What counts as a safe state and a valid stream, in the terms the claims use: the invariants of the
memories and of the status registers, what each class of command may change (table after R32, 10_state.md),
and the token streams a decoder accepts (R154, R179, R180, R202) described without the decoders. -/

namespace Sys2Proof.Machine

open Sys2Proof.Config

/-! ### Invariants -/

/-- A symbol below `2^SYMW` (R9, 00_scope.md). -/
def symFits (symW : Nat) (x : Sym) : Bool := decide (x.toNat < 2 ^ symW)

/-- Every listed index is below the capacity and every listed value satisfies `ok`. -/
def cellsWithin {α : Type} (cap : Nat) (ok : α → Bool) (cells : List (Nat × α)) : Bool :=
  cells.all (fun c => decide (c.1 < cap) && ok c.2)

/-- The memories are as R30, R33 and R34 (10_state.md) say: in canonical form, no entry listed at or beyond the
capacity, every stored symbol `SYMW` bits wide. -/
def State.memoriesOk (s : State) : Bool :=
  (s.sym.wf && s.tok.wf && s.alpha.wf) &&
  cellsWithin s.params.symCap (symFits s.params.symW) s.sym.cells &&
  cellsWithin s.params.tokCap (fun t => symFits s.params.symW t.sym) s.tok.cells &&
  cellsWithin s.params.alphaCap (symFits s.params.symW) s.alpha.cells

/-- What `ERRINFO` may hold beside each value of `STATUS.ERR` (R241, R246, 60_exceptions.md). For `CapacityExceeded`
it is 0 or a cursor `pos <= N <= SYM_CAP` of an encode, or a token index `t < T <= TOK_CAP` of a decode. -/
def State.errinfoOk (s : State) : Bool :=
  match s.err with
  | none => decide (s.errinfo = 0#32)
  | some .unknownSymbol => decide (s.errinfo.toNat < s.params.symCap)
  | some .corruptToken => decide (s.errinfo.toNat < s.params.tokCap)
  | some .invalidConfiguration => decide (s.errinfo = 0#32)
  | some .illegalCommand => decide (8 ≤ s.errinfo.toNat)
  | some .capacityExceeded =>
    decide (s.errinfo.toNat ≤ s.params.symCap) || decide (s.errinfo.toNat < s.params.tokCap)

/-- The registers only the engine writes are consistent: not busy between commands (R43), an error only after a
command has completed (R23), `ERRINFO` as R241 says, a dictionary size and query results within the
capacities (R27, R32). -/
def State.statusOk (s : State) : Bool :=
  (!s.busy && (s.done || s.err.isNone)) && s.errinfoOk &&
  decide (s.dcount.toNat ≤ s.params.dictCap) &&
  (decide (s.rlen.toNat ≤ s.params.symCap) && decide (s.roff.toNat ≤ s.params.symCap))

/-! ### Frames -/

/-- `t` is `s` but for what an encode command may write (table after R32): `TOK`, `TOK_LEN`, `DCOUNT`, `STATUS`,
`ERRINFO`. -/
def State.encodeFrame (s t : State) : Prop :=
  t = { s with tok := t.tok, tokLen := t.tokLen, dcount := t.dcount,
               busy := t.busy, done := t.done, err := t.err, errinfo := t.errinfo }

/-- `t` is `s` but for what a decode command may write (table after R32): `SYM`, `SYM_LEN`, `DCOUNT`, `STATUS`,
`ERRINFO`. -/
def State.decodeFrame (s t : State) : Prop :=
  t = { s with sym := t.sym, symLen := t.symLen, dcount := t.dcount,
               busy := t.busy, done := t.done, err := t.err, errinfo := t.errinfo }

/-- `t` is `s` but for what a query command may write (R32): `RLEN`, `ROFF`, `STATUS`, `ERRINFO`. -/
def State.queryFrame (s t : State) : Prop :=
  t = { s with rlen := t.rlen, roff := t.roff,
               busy := t.busy, done := t.done, err := t.err, errinfo := t.errinfo }

/-! ### LZ77: the input parsed by views, and valid streams -/

/-- The tokens are those R140 prescribes from cursor `pos` on, the window and the lookahead being the views of the
input of R151 (41_lz77.md). -/
def lz77Parse (w l : Nat) (input : List Sym) : Nat → List Token → Prop
  | pos, [] => pos = input.length
  | pos, t :: ts =>
    let m := lpm (subseq input pos (min (pos + l) input.length)) l (subseq input (pos - w) pos)
    pos < input.length ∧
    if m.1 = 0 then t = lz77Token 0 0 input[pos]? ∧ lz77Parse w l input (pos + 1) ts
    else t = lz77Token m.2 m.1 input[pos + m.1]? ∧
         lz77Parse w l input (min (pos + m.1 + 1) input.length) ts

/-- The number of symbols an LZ77 token stands for (R152 (d)). -/
def lz77Span (t : Token) : Nat := t.b.toNat + (optSym t.symbol).length

/-- The number of symbols a stream of LZ77 tokens stands for. -/
def lz77Total (ts : List Token) : Nat := (ts.map lz77Span).sum

/-- The tests of R101 and R154 on a token read when `n` symbols have been produced. -/
def lz77TokenValid (n : Nat) (t : Token) : Bool :=
  decide (t.tag = 0#2) && decide (t.a.toNat ≤ n) && decide (t.b.toNat ≤ t.a.toNat) &&
  !(decide (t.b.toNat = 0) && t.symbol.isNone)

/-- Every token of the stream is valid and its symbols fit, `n` symbols having been produced before it. -/
def lz77StreamValid (symCap : Nat) : Nat → List Token → Bool
  | _, [] => true
  | n, t :: ts =>
    lz77TokenValid n t && decide (n + lz77Span t ≤ symCap) && lz77StreamValid symCap (n + lz77Span t) ts

/-! ### LZ78: the input parsed, and valid streams by the lengths of the phrases alone -/

/-- The tokens are those R170 prescribes from cursor `pos` on with the dictionary `dict`: the longest entry (R172),
the symbol after it if there is one (R173, R174), and the consumed symbols as the next entry (R175). -/
def lz78Parse (input : List Sym) : List Phrase → Nat → List Token → Prop
  | _, pos, [] => pos = input.length
  | dict, pos, t :: ts =>
    let m := longestEntry dict (input.drop pos)
    let next := min (pos + m.2 + 1) input.length
    pos < input.length ∧ t = lz78Token m.1 input[pos + m.2]? ∧
    lz78Parse input (dict ++ [subseq input pos next]) next ts

/-- The length of the phrase an LZ78 token appends, `lens` being the lengths of the entries 1, 2, ... (R178). -/
def lz78Span (lens : List Nat) (t : Token) : Nat :=
  (if t.a.toNat = 0 then 0 else lens.getD (t.a.toNat - 1) 0) + (optSym t.symbol).length

/-- The lengths of the phrases a stream of LZ78 tokens appends after entries of lengths `lens`: the token's own
phrase becomes the next entry (R175, R178). -/
def lz78Lens : List Nat → List Token → List Nat
  | lens, [] => lens
  | lens, t :: ts => lz78Lens (lens ++ [lz78Span lens t]) ts

/-- The tests of R101, R179 and R180 on a token read when there are `size` entries. -/
def lz78TokenValid (size : Nat) (t : Token) : Bool :=
  decide (t.tag = 1#2) && decide (t.a.toNat ≤ size) && !(decide (t.a.toNat = 0) && t.symbol.isNone)

/-- Every token of the stream is valid, its symbols fit, and its entry fits. -/
def lz78StreamValid (symCap dictCap : Nat) : List Nat → List Token → Bool
  | _, [] => true
  | lens, t :: ts =>
    lz78TokenValid lens.length t && decide (lens.sum + lz78Span lens t ≤ symCap) &&
    decide (lens.length + 1 ≤ dictCap) && lz78StreamValid symCap dictCap (lens ++ [lz78Span lens t]) ts

/-! ### LZW: the input parsed, and valid streams by the lengths of the phrases alone -/

/-- The tokens are those R190 prescribes with the dictionary `dict` and the accumulator `cur`, the list being the
input symbols still to come: extend (R195), or emit, insert and reset (R197), and the flush at the end (R198). -/
def lzwParse : List Phrase → Phrase → List Sym → List Token → Prop
  | dict, cur, [], ts => ∃ n, dict[n]? = some cur ∧ ts = [lzwToken n]
  | dict, cur, c :: rest, ts =>
    if cur ++ [c] ∈ dict then lzwParse dict (cur ++ [c]) rest ts
    else ∃ n ts', dict[n]? = some cur ∧ ts = lzwToken n :: ts' ∧ lzwParse (dict ++ [cur ++ [c]]) [c] rest ts'

/-- The tokens of an input (R190, R194): none for the empty one, else those from the seeds and the first symbol on. -/
def lzwParseInput (alpha : List Sym) : List Sym → List Token → Prop
  | [], ts => ts = []
  | c :: rest, ts => lzwParse (alpha.map (fun x => [x])) [c] rest ts

/-- The length of the phrase an LZW token appends, `a` being the alphabet's length and `lens` the lengths of the
phrases of the tokens before it: a seed has one symbol, and the entry of code `a + j` is the phrase of token `j`
and one symbol more (R193, R200, R201). -/
def lzwSpan (a : Nat) (lens : List Nat) (t : Token) : Nat :=
  if t.a.toNat < a then 1 else lens.getD (t.a.toNat - a) 0 + 1

/-- The lengths of the phrases of a stream of LZW tokens, after phrases of lengths `lens`. -/
def lzwLens (a : Nat) : List Nat → List Token → List Nat
  | lens, [] => lens
  | lens, t :: ts => lzwLens a (lens ++ [lzwSpan a lens t]) ts

/-- The tests of R101 and R202 on the token with index `t`: the valid codes are `k < A` at `t = 0` and
`k <= A + t - 1` at `t >= 1`. -/
def lzwTokenValid (a t : Nat) (r : Token) : Bool := decide (r.tag = 2#2) && decide (r.a.toNat < a + t)

/-- Every token of the stream is valid, its symbols fit, and the entry it inserts fits: there are `A + t` entries
after token `t` (R202). -/
def lzwStreamValid (symCap dictCap a : Nat) : List Nat → List Token → Bool
  | _, [] => true
  | lens, t :: ts =>
    lzwTokenValid a lens.length t && decide (lens.sum + lzwSpan a lens t ≤ symCap) &&
    decide (a + lens.length ≤ dictCap) && lzwStreamValid symCap dictCap a (lens ++ [lzwSpan a lens t]) ts

end Sys2Proof.Machine
end

