-- ==== Sys2Proof/Certificates/Slice0/Obligations.lean ====
section
/-! DEFINITION. The statements for the provers: what the rules of spec/ say LZC does, one `def Obligations.<Name>`
each. -/

open Sys2Proof Sys2Proof.Machine Sys2Proof.Config

/-! ### The command word -/

/-- R91 (30_encoding.md): the eight rows of the opcode map, and every word with one of the bits 31 to 3 set is
illegal. -/
def Obligations.OpcodeMapDecodes : Prop :=
  decode 0x00000000#32 = .ok .lz77Enc ∧ decode 0x00000001#32 = .ok .lz78Enc ∧
  decode 0x00000002#32 = .ok .lzwEnc ∧ decode 0x00000003#32 = .ok .sbLpm ∧
  decode 0x00000004#32 = .ok .lz77Dec ∧ decode 0x00000005#32 = .ok .lz78Dec ∧
  decode 0x00000006#32 = .ok .lzwDec ∧ decode 0x00000007#32 = .ok .sbSlice ∧
  ∀ w : Word, w &&& 0xFFFFFFF8#32 ≠ 0#32 → decode w = .error (.illegalCommand w)

/-- R90, R91 (30_encoding.md): decoding an encoded command gives it back, and a command has one word only. -/
def Obligations.DecodeAndEncodeAgree : Prop :=
  (∀ i : Instr, i.wf = true → decode (encode i) = .ok i) ∧
  (∀ (w : Word) (i : Instr), decode w = .ok i → w = encode i)

/-! ### The token record -/

/-- R97, R98, R99 (30_encoding.md): the records of the three token shapes, and the reference words. -/
def Obligations.TokenRecordsAreCanonical : Prop :=
  (∀ off len x, lz77Token off len (some x) =
      { tag := 0#2, hasSym := true, sym := x, a := BitVec.ofNat 32 off, b := BitVec.ofNat 32 len }) ∧
  (∀ off len, lz77Token off len none =
      { tag := 0#2, hasSym := false, sym := 0#24, a := BitVec.ofNat 32 off, b := BitVec.ofNat 32 len }) ∧
  (∀ k x, lz78Token k (some x) =
      { tag := 1#2, hasSym := true, sym := x, a := BitVec.ofNat 32 k, b := 0#32 }) ∧
  (∀ k, lz78Token k none =
      { tag := 1#2, hasSym := false, sym := 0#24, a := BitVec.ofNat 32 k, b := 0#32 }) ∧
  (∀ k, lzwToken k =
      { tag := 2#2, hasSym := false, sym := 0#24, a := BitVec.ofNat 32 k, b := 0#32 }) ∧
  packToken 8 (lz77Token 3 3 (some 0x61#24)) = 0x010000610000000300000003#96 ∧
  packToken 8 (lz77Token 6 1 none) = 0x000000000000000100000006#96 ∧
  packToken 8 (lz78Token 1 (some 0x62#24)) = 0x030000620000000000000001#96 ∧
  packToken 8 (lz78Token 5 none) = 0x020000000000000000000005#96 ∧
  packToken 8 (lzwToken 4) = 0x040000000000000000000004#96

/-- R96 (30_encoding.md), R64 (20_memory.md): where each field of a record stands in its 96-bit word, and which bits
are zero; a record whose symbol is `SYMW` bits wide is read back whole; a record word reads back with the unused bits
zero and every other bit as written. -/
def Obligations.RecordLayout : Prop :=
  (∀ (symW : Nat) (t : Token), symW ≤ 24 → t.sym.toNat < 2 ^ symW →
    (packToken symW t).extractLsb' 0 32 = t.a ∧ (packToken symW t).extractLsb' 32 32 = t.b ∧
    (packToken symW t).extractLsb' 64 24 = t.sym ∧ (packToken symW t).getLsbD 88 = t.hasSym ∧
    (packToken symW t).extractLsb' 89 2 = t.tag ∧ (packToken symW t).extractLsb' 91 5 = 0#5 ∧
    (∀ j, 64 + symW ≤ j → j < 88 → (packToken symW t).getLsbD j = false) ∧
    unpackToken symW (packToken symW t) = t) ∧
  (∀ (symW : Nat) (r : Record) (j : Nat), symW ≤ 24 →
    (packToken symW (unpackToken symW r)).getLsbD j =
      if j < 64 + symW ∨ (88 ≤ j ∧ j < 91) then r.getLsbD j else false)

/-! ### Steps -/

/-- R223 (45_host_interface.md): when the host, with LZC not busy, writes to `CMD` a word that decodes to a command,
the step is that command's execution, after `BUSY <- 1`, `DONE <- 0`; `withFetchWord` sets such a step up. -/
def Obligations.StepRunsDecodedCommand : Prop :=
  (∀ (s : State) (w : Word) (rest : List HostOp) (i : Instr), s.busy = false →
    s.script = .wrReg 0 w :: rest → decode w = .ok i →
    step s = exec i { s with script := rest, reply := none, busy := true, done := false }) ∧
  (∀ (s : State) (w : Word) (i : Instr), decode w = .ok i →
    step (s.withFetchWord 32 w.toNat) = exec i { s with reply := none, busy := true, done := false })

/-- R224, R226, R227 (45_host_interface.md), R66 (20_memory.md): from every state every command completes, with `BUSY = 0`
and `DONE = 1`; with `BUSY = 0` every operation of the host, and the reset input, answers a next state with
`BUSY = 0`. -/
def Obligations.EveryCommandCompletes : Prop :=
  (∀ (i : Instr) (s : State), ∃ t, exec i s = .next t ∧ t.busy = false ∧ t.done = true) ∧
  (∀ s : State, s.busy = false → ∃ t, step s = .next t ∧ t.busy = false)

/-- R245 (60_exceptions.md): a word that is no command changes `STATUS` and `ERRINFO` and nothing else. -/
def Obligations.IllegalCommandTouchesOnlyStatus : Prop :=
  ∀ (s : State) (w : Word) (rest : List HostOp), s.busy = false → s.script = .wrReg 0 w :: rest →
    w &&& 0xFFFFFFF8#32 ≠ 0#32 →
    step s = .next { s with script := rest, reply := none, busy := false, done := true,
                            err := some .illegalCommand, errinfo := w }

/-- R279 (70_reset_and_hazards.md), and the model's choices of log entries 5 and 6: with no operation pending nothing
changes; while `BUSY = 1` reading `STATUS` is answered and every other access is refused by name. -/
def Obligations.IdleStepAndBusyRule : Prop :=
  (∀ s : State, s.script = [] → step s = .next s) ∧
  (∀ (s : State) (rest : List HostOp), s.busy = true → s.script = .rdReg 1 :: rest →
    step s = .next { s with script := rest, reply := some (.word (statusWord true s.done s.err)) }) ∧
  (∀ (s : State) (op : HostOp) (rest : List HostOp), s.busy = true → s.script = op :: rest →
    op ≠ .rdReg 1 → op ≠ .reset → step s = .refused .busyAccess)

/-! ### Host operations -/

/-- R23 (10_state.md): the bits of the `STATUS` word. -/
def Obligations.StatusWordFields : Prop :=
  ∀ (busy done : Bool) (err : Option ErrKind),
    (statusWord busy done err).getLsbD 0 = busy ∧ (statusWord busy done err).getLsbD 1 = done ∧
    (statusWord busy done err).extractLsb' 2 2 = 0#2 ∧ (statusWord busy done err).extractLsb' 7 25 = 0#25 ∧
    (statusWord busy done err).extractLsb' 4 3 =
      (match err with
       | none => 0#3
       | some .unknownSymbol => 1#3
       | some .corruptToken => 2#3
       | some .invalidConfiguration => 3#3
       | some .illegalCommand => 4#3
       | some .capacityExceeded => 5#3)

/-- R220 (45_host_interface.md) with the table of R21 (10_state.md): what `RDREG` returns, what `WRREG` to a
read/write register, to `CMD`, and to any other number does. -/
def Obligations.RegisterOperations : Prop :=
  (∀ (s : State) (i : Nat) (rest : List HostOp), s.busy = false → s.script = .rdReg i :: rest →
    step s = .next { s with
      script := rest
      reply := some (.word (([0#32, statusWord s.busy s.done s.err, s.errinfo, s.wsize, s.lsize, s.alphaLen,
        s.symLen, s.tokLen, s.qpos, s.qend, s.qmax, s.clo, s.chi, s.rlen, s.roff, s.dcount] : List Word).getD
          i 0#32)) }) ∧
  (∀ (s : State) (i : Nat) (v : Word) (rest : List HostOp), s.busy = false → s.script = .wrReg i v :: rest →
    3 ≤ i → i ≤ 12 →
    ∃ t, step s = .next t ∧ t.readReg i = v ∧ (∀ j, j ≠ i → t.readReg j = s.readReg j) ∧
      t.params = s.params ∧ t.sym = s.sym ∧ t.tok = s.tok ∧ t.alpha = s.alpha ∧ t.script = rest ∧
      t.reply = none) ∧
  (∀ (s : State) (v : Word) (rest : List HostOp), s.busy = false → s.script = .wrReg 0 v :: rest →
    step s = State.issue v { s with script := rest, reply := none }) ∧
  (∀ (s : State) (i : Nat) (v : Word) (rest : List HostOp), s.busy = false → s.script = .wrReg i v :: rest →
    i ≠ 0 → (i < 3 ∨ 12 < i) → step s = .next { s with script := rest, reply := none })

/-- R221 (45_host_interface.md): the host's reads and writes of `SYM`, `ALPHA` and `TOK`, in and out of range, and
that a write changes no other entry and nothing else. -/
def Obligations.MemoryOperations : Prop :=
  (∀ (s : State) (i : Nat) (rest : List HostOp), s.busy = false → s.script = .rdSym i :: rest →
    step s = .next { s with script := rest, reply := some (.entry (s.symAt i)) } ∧
    (s.params.symCap ≤ i → s.symAt i = 0#24)) ∧
  (∀ (s : State) (i : Nat) (rest : List HostOp), s.busy = false → s.script = .rdAlpha i :: rest →
    step s = .next { s with script := rest, reply := some (.entry (s.alphaAt i)) } ∧
    (s.params.alphaCap ≤ i → s.alphaAt i = 0#24)) ∧
  (∀ (s : State) (i : Nat) (rest : List HostOp), s.busy = false → s.script = .rdTok i :: rest →
    step s = .next { s with script := rest, reply := some (.record (packToken s.params.symW (s.tokAt i))) } ∧
    (s.params.tokCap ≤ i → packToken s.params.symW (s.tokAt i) = 0#96)) ∧
  (∀ (s : State) (i v : Nat) (rest : List HostOp), s.busy = false → s.script = .wrSym i v :: rest →
    ∃ t, step s = .next t ∧ t = { s with script := rest, reply := none, sym := t.sym } ∧
      ∀ j, t.symAt j = if j = i ∧ i < s.params.symCap then BitVec.ofNat 24 (v % 2 ^ s.params.symW)
        else s.symAt j) ∧
  (∀ (s : State) (i v : Nat) (rest : List HostOp), s.busy = false → s.script = .wrAlpha i v :: rest →
    ∃ t, step s = .next t ∧ t = { s with script := rest, reply := none, alpha := t.alpha } ∧
      ∀ j, t.alphaAt j = if j = i ∧ i < s.params.alphaCap then BitVec.ofNat 24 (v % 2 ^ s.params.symW)
        else s.alphaAt j) ∧
  (∀ (s : State) (i : Nat) (r : Record) (rest : List HostOp), s.busy = false → s.script = .wrTok i r :: rest →
    ∃ t, step s = .next t ∧ t = { s with script := rest, reply := none, tok := t.tok } ∧
      ∀ j, t.tokAt j = if j = i ∧ i < s.params.tokCap then
          { tag := r.extractLsb' 89 2, hasSym := r.getLsbD 88,
            sym := BitVec.ofNat 24 ((r.extractLsb' 64 24).toNat % 2 ^ s.params.symW),
            a := r.extractLsb' 0 32, b := r.extractLsb' 32 32 }
        else s.tokAt j)

/-- R271 (70_reset_and_hazards.md): after reset every register reads 0, `STATUS` included, so nothing executes; the reset
input does the same from any state, busy or not. -/
def Obligations.ResetLeavesRegistersZero : Prop :=
  (∀ i, State.reset.readReg i = 0#32) ∧ State.reset.busy = false ∧ State.reset.done = false ∧
  State.reset.err = none ∧
  (∀ (s : State) (rest : List HostOp), s.script = .reset :: rest →
    ∃ t, step s = .next t ∧ (∀ i, t.readReg i = 0#32) ∧ t.busy = false ∧ t.done = false ∧ t.err = none)

/-- R272 (70_reset_and_hazards.md) in the model's form: reset leaves every memory with nothing listed, so every entry
reads as a free value, of a fresh generation after the reset input (log entry 2); the instance and the host's own
operations stay (log entries 1, 5 and 10). -/
def Obligations.ResetLeavesMemoriesUnspecified : Prop :=
  State.reset.params = Params.reference ∧
  State.reset.sym.cells = [] ∧ State.reset.tok.cells = [] ∧ State.reset.alpha.cells = [] ∧
  (∀ (s : State) (rest : List HostOp), s.script = .reset :: rest →
    ∃ t, step s = .next t ∧ t.params = s.params ∧ t.script = rest ∧ t.reply = none ∧
      t.sym = { gen := s.sym.gen + 1, cells := [] } ∧ t.tok = { gen := s.tok.gen + 1, cells := [] } ∧
      t.alpha = { gen := s.alpha.gen + 1, cells := [] } ∧
      ∀ i, i < s.params.symCap →
        t.symAt i = BitVec.ofNat 24 ((Config.freeSym (s.sym.gen + 1) i).toNat % 2 ^ s.params.symW))

/-! ### The Symbol Buffer -/

/-- R120 (40_symbol_buffer.md): the length `LPM` reports is the greatest length, at most `m` and `|seq|`, of a prefix
of `seq` that occurs in `ctx`; when it is 0; and that it is at most `|ctx|`. -/
def Obligations.LpmLengthIsGreatest : Prop :=
  ∀ (seq : List Sym) (m : Nat) (ctx : List Sym),
    (lpm seq m ctx).1 ≤ min m seq.length ∧
    ((lpm seq m ctx).1 = 0 ∨ ∃ q, occursAt (seq.take (lpm seq m ctx).1) ctx q = true) ∧
    (∀ l, l ≤ min m seq.length → (∃ q, occursAt (seq.take l) ctx q = true) → l ≤ (lpm seq m ctx).1) ∧
    ((lpm seq m ctx).1 = 0 ↔ m = 0 ∨ seq = [] ∨ ctx = [] ∨ ∀ x, seq[0]? = some x → x ∉ ctx) ∧
    (lpm seq m ctx).1 ≤ ctx.length

/-- R121 (40_symbol_buffer.md): the offset `LPM` reports is that of the occurrence with the greatest start; no match is
`(0, 0)`; and `len <= off <= |ctx|`. -/
def Obligations.LpmReportsRightmost : Prop :=
  ∀ (seq : List Sym) (m : Nat) (ctx : List Sym),
    ((lpm seq m ctx).1 = 0 → (lpm seq m ctx).2 = 0) ∧
    (1 ≤ (lpm seq m ctx).1 →
      (∃ q, occursAt (seq.take (lpm seq m ctx).1) ctx q = true ∧ (lpm seq m ctx).2 = ctx.length - q ∧
        ∀ q', occursAt (seq.take (lpm seq m ctx).1) ctx q' = true → q' ≤ q) ∧
      (lpm seq m ctx).1 ≤ (lpm seq m ctx).2 ∧ (lpm seq m ctx).2 ≤ ctx.length)

/-- R123 (40_symbol_buffer.md): a slice starts at `min(i, |s|)`, has `min(n, |s| - i')` elements, and is what remains
from `i` cut at `n`; a start at or past the end gives the empty sequence. -/
def Obligations.SliceIsClamped : Prop :=
  ∀ (s : List Sym) (i n : Nat),
    slice s i n = subseq s (min i s.length) (min i s.length + min n (s.length - min i s.length)) ∧
    (slice s i n).length = min n (s.length - min i s.length) ∧
    slice s i n = (s.drop i).take n ∧ (s.length ≤ i → slice s i n = [])

/-- R125 (40_symbol_buffer.md): `SB.LPM` on an input length that fits completes with the match of the two clamped views,
on one that does not with `CapacityExceeded(0)`, and writes nothing else. -/
def Obligations.SbLpmAnswersQuery : Prop :=
  ∀ s : State,
    let n := s.symLen.toNat
    let qend := min s.qend.toNat n
    let qpos := min s.qpos.toNat qend
    let chi := min s.chi.toNat n
    let clo := min s.clo.toNat chi
    let r := lpm ((List.range (qend - qpos)).map (fun j => s.symAt (qpos + j))) s.qmax.toNat
      ((List.range (chi - clo)).map (fun j => s.symAt (clo + j)))
    (n ≤ s.params.symCap →
      exec .sbLpm s = .next { s with rlen := BitVec.ofNat 32 r.1, roff := BitVec.ofNat 32 r.2,
                                     busy := false, done := true, err := none, errinfo := 0#32 }) ∧
    (s.params.symCap < n →
      exec .sbLpm s = .next { s with rlen := 0#32, roff := 0#32, busy := false, done := true,
                                     err := some .capacityExceeded, errinfo := 0#32 })

/-- R126 (40_symbol_buffer.md): `SB.SLICE` completes with the clamped bounds of the slice of the valid symbols, or with
`CapacityExceeded(0)`, and writes nothing else. -/
def Obligations.SbSliceAnswersBounds : Prop :=
  ∀ s : State,
    let n := s.symLen.toNat
    let off := min s.qpos.toNat n
    slice s.input s.qpos.toNat s.qmax.toNat = subseq s.input off (off + min s.qmax.toNat (n - off)) ∧
    (n ≤ s.params.symCap →
      exec .sbSlice s = .next { s with roff := BitVec.ofNat 32 off,
                                       rlen := BitVec.ofNat 32 (min s.qmax.toNat (n - off)),
                                       busy := false, done := true, err := none, errinfo := 0#32 }) ∧
    (s.params.symCap < n →
      exec .sbSlice s = .next { s with rlen := 0#32, roff := 0#32, busy := false, done := true,
                                       err := some .capacityExceeded, errinfo := 0#32 })

/-- R125 (40_symbol_buffer.md), R151 (41_lz77.md): the search of one `LZ77.ENC` step at cursor `pos` is the query
`QPOS = CHI = pos`, `QEND = N`, `QMAX = L`, `CLO = max(0, pos - W)`. -/
def Obligations.SbLpmIsTheLz77Search : Prop :=
  ∀ (s : State) (w l pos : Nat), s.symLen.toNat ≤ s.params.symCap → pos ≤ s.symLen.toNat →
    s.qpos.toNat = pos → s.chi.toNat = pos → s.qend = s.symLen → s.qmax.toNat = l → s.clo.toNat = pos - w →
    ∃ t, exec .sbLpm s = .next t ∧ t.err = none ∧
      (t.rlen.toNat, t.roff.toNat) =
        lpm (slice s.input pos l) (min l (slice s.input pos l).length) (lastn (s.input.take pos) w)

/-! ### Errors before a command looks at its input -/

/-- R246 (a), R247, R249 (60_exceptions.md): an input length beyond its memory raises `CapacityExceeded(0)`, whatever
the configuration and the input; the output lengths are zeroed and nothing else changes. -/
def Obligations.InputLengthBeyondMemory : Prop :=
  ∀ s : State,
    (s.params.symCap < s.symLen.toNat →
      exec .lz77Enc s = .next { s with tokLen := 0#32, dcount := 0#32, busy := false, done := true,
                                       err := some .capacityExceeded, errinfo := 0#32 } ∧
      exec .lz78Enc s = .next { s with tokLen := 0#32, dcount := 0#32, busy := false, done := true,
                                       err := some .capacityExceeded, errinfo := 0#32 }) ∧
    (s.params.symCap < s.symLen.toNat ∨ s.params.alphaCap < s.alphaLen.toNat →
      exec .lzwEnc s = .next { s with tokLen := 0#32, dcount := 0#32, busy := false, done := true,
                                      err := some .capacityExceeded, errinfo := 0#32 }) ∧
    (s.params.tokCap < s.tokLen.toNat →
      exec .lz77Dec s = .next { s with symLen := 0#32, dcount := 0#32, busy := false, done := true,
                                       err := some .capacityExceeded, errinfo := 0#32 } ∧
      exec .lz78Dec s = .next { s with symLen := 0#32, dcount := 0#32, busy := false, done := true,
                                       err := some .capacityExceeded, errinfo := 0#32 }) ∧
    (s.params.tokCap < s.tokLen.toNat ∨ s.params.alphaCap < s.alphaLen.toNat →
      exec .lzwDec s = .next { s with symLen := 0#32, dcount := 0#32, busy := false, done := true,
                                      err := some .capacityExceeded, errinfo := 0#32 })

/-- R141 (41_lz77.md): a window or lookahead size that is not positive as a signed number makes both LZ77 commands raise
`InvalidConfiguration(0)`, whatever the input, the empty one included. -/
def Obligations.Lz77SizesMustBePositive : Prop :=
  ∀ s : State, s.wsize.toInt ≤ 0 ∨ s.lsize.toInt ≤ 0 →
    (s.symLen.toNat ≤ s.params.symCap →
      exec .lz77Enc s = .next { s with tokLen := 0#32, dcount := 0#32, busy := false, done := true,
                                       err := some .invalidConfiguration, errinfo := 0#32 }) ∧
    (s.tokLen.toNat ≤ s.params.tokCap →
      exec .lz77Dec s = .next { s with symLen := 0#32, dcount := 0#32, busy := false, done := true,
                                       err := some .invalidConfiguration, errinfo := 0#32 })

/-- R191 (43_lzw.md): an empty alphabet or one with two equal entries makes both LZW commands raise
`InvalidConfiguration(0)`, whatever the input; a valid alphabet has at most `min(ALPHA_CAP, 2^SYMW)` entries. -/
def Obligations.LzwAlphabetMustBeDistinct : Prop :=
  ∀ s : State,
    (s.alphaLen.toNat ≤ s.params.alphaCap →
      (s.alphaLen.toNat = 0 ∨ ∃ i j, i < j ∧ j < s.alphaLen.toNat ∧ s.alphaAt i = s.alphaAt j) →
      (s.symLen.toNat ≤ s.params.symCap →
        exec .lzwEnc s = .next { s with tokLen := 0#32, dcount := 0#32, busy := false, done := true,
                                        err := some .invalidConfiguration, errinfo := 0#32 }) ∧
      (s.tokLen.toNat ≤ s.params.tokCap →
        exec .lzwDec s = .next { s with symLen := 0#32, dcount := 0#32, busy := false, done := true,
                                        err := some .invalidConfiguration, errinfo := 0#32 })) ∧
    (∀ t, s.params.wf = true → exec .lzwEnc s = .next t → t.err = none →
      1 ≤ s.alphaLen.toNat ∧ s.alphaLen.toNat ≤ min s.params.alphaCap (2 ^ s.params.symW))

/-- R242 (60_exceptions.md): `LZW.ENC` raises `UnknownSymbol(i)` for the least `i` whose symbol is outside the alphabet,
before any output; no other command raises it. -/
def Obligations.UnknownSymbolIsTheFirst : Prop :=
  (∀ (s : State) (i : Nat), s.symLen.toNat ≤ s.params.symCap → s.alphaLen.toNat ≤ s.params.alphaCap →
    1 ≤ s.alphaLen.toNat → (∀ a b, a < b → b < s.alphaLen.toNat → s.alphaAt a ≠ s.alphaAt b) →
    i < s.symLen.toNat → (∀ j, j < s.alphaLen.toNat → s.symAt i ≠ s.alphaAt j) →
    (∀ i', i' < i → ∃ j, j < s.alphaLen.toNat ∧ s.symAt i' = s.alphaAt j) →
    exec .lzwEnc s = .next { s with tokLen := 0#32, dcount := 0#32, busy := false, done := true,
                                    err := some .unknownSymbol, errinfo := BitVec.ofNat 32 i }) ∧
  (∀ (i : Instr) (s t : State), exec i s = .next t → t.err = some .unknownSymbol → i = .lzwEnc)

/-- R241 to R246 (60_exceptions.md): the table of which command can raise which kind, and what `ERRINFO` may then be: the
index of a symbol, the index of a token, 0, and for `CapacityExceeded` a cursor `pos <= N` of an encode, 0 or a token
index `t < T` of a decode, 0 of a query. -/
def Obligations.ErrorKindsByCommand : Prop :=
  ∀ (i : Instr) (s t : State) (k : ErrKind), exec i s = .next t → t.err = some k →
    (k = .unknownSymbol → i = .lzwEnc ∧ t.errinfo.toNat < s.symLen.toNat) ∧
    (k = .corruptToken → (i = .lz77Dec ∨ i = .lz78Dec ∨ i = .lzwDec) ∧ t.errinfo.toNat < s.tokLen.toNat) ∧
    (k = .invalidConfiguration → (i = .lz77Enc ∨ i = .lz77Dec ∨ i = .lzwEnc ∨ i = .lzwDec) ∧ t.errinfo = 0#32) ∧
    (k = .capacityExceeded →
      (i = .lz77Enc ∨ i = .lz78Enc ∨ i = .lzwEnc → t.errinfo.toNat ≤ s.symLen.toNat) ∧
      (i = .lz77Dec ∨ i = .lz78Dec ∨ i = .lzwDec → t.errinfo = 0#32 ∨ t.errinfo.toNat < s.tokLen.toNat) ∧
      (i = .sbLpm ∨ i = .sbSlice → t.errinfo = 0#32)) ∧
    k ≠ .illegalCommand

/-! ### What a command changes -/

/-- The table after R32 (10_state.md), R250 and R251 (60_exceptions.md): an encode command changes at most `TOK`,
`TOK_LEN`, `DCOUNT`, `STATUS`, `ERRINFO`, and a successful one leaves every entry of `TOK` at or above `TOK_LEN` as it
was. -/
def Obligations.EncodeFrame : Prop :=
  ∀ (i : Instr) (s t : State), i = .lz77Enc ∨ i = .lz78Enc ∨ i = .lzwEnc → exec i s = .next t →
    State.encodeFrame s t ∧
    (s.params.wf = true → t.err = none → ∀ j, t.tokLen.toNat ≤ j → t.tokAt j = s.tokAt j)

/-- The table after R32 (10_state.md), R250 and R251 (60_exceptions.md): a decode command changes at most `SYM`,
`SYM_LEN`, `DCOUNT`, `STATUS`, `ERRINFO`, and a successful one leaves every entry of `SYM` at or above `SYM_LEN` as it
was. -/
def Obligations.DecodeFrame : Prop :=
  ∀ (i : Instr) (s t : State), i = .lz77Dec ∨ i = .lz78Dec ∨ i = .lzwDec → exec i s = .next t →
    State.decodeFrame s t ∧
    (s.params.wf = true → t.err = none → ∀ j, t.symLen.toNat ≤ j → t.symAt j = s.symAt j)

/-- R32 (10_state.md): a query command writes `RLEN`, `ROFF`, `STATUS`, `ERRINFO` and nothing else; the six engine
commands do not write `RLEN` and `ROFF`, and a host write to either is ignored. -/
def Obligations.QueryResultsWrittenByQueriesOnly : Prop :=
  (∀ (i : Instr) (s t : State), i = .sbLpm ∨ i = .sbSlice → exec i s = .next t → State.queryFrame s t) ∧
  (∀ (i : Instr) (s t : State), i ≠ .sbLpm → i ≠ .sbSlice → exec i s = .next t →
    t.rlen = s.rlen ∧ t.roff = s.roff) ∧
  (∀ (s : State) (i : Nat) (v : Word) (rest : List HostOp), s.busy = false → i = 13 ∨ i = 14 →
    s.script = .wrReg i v :: rest → step s = .next { s with script := rest, reply := none })

/-- R249 (60_exceptions.md): after an error the output length and the other result registers are 0, and the length of
the input and every configuration register keep their values; `IllegalCommand` writes none of these. -/
def Obligations.ResultRegistersAfterError : Prop :=
  (∀ (i : Instr) (s t : State) (k : ErrKind), exec i s = .next t → t.err = some k →
    (i = .lz77Enc ∨ i = .lz78Enc ∨ i = .lzwEnc →
      t.tokLen = 0#32 ∧ t.dcount = 0#32 ∧ State.encodeFrame s t) ∧
    (i = .lz77Dec ∨ i = .lz78Dec ∨ i = .lzwDec →
      t.symLen = 0#32 ∧ t.dcount = 0#32 ∧ State.decodeFrame s t) ∧
    (i = .sbLpm ∨ i = .sbSlice → t.rlen = 0#32 ∧ t.roff = 0#32 ∧ State.queryFrame s t)) ∧
  (∀ (s : State) (w : Word) (rest : List HostOp), s.busy = false → s.script = .wrReg 0 w :: rest →
    w &&& 0xFFFFFFF8#32 ≠ 0#32 →
    ∃ t, step s = .next t ∧ t.tokLen = s.tokLen ∧ t.symLen = s.symLen ∧ t.dcount = s.dcount ∧
      t.rlen = s.rlen ∧ t.roff = s.roff)

/-- R250 (60_exceptions.md): the input memory and `ALPHA` are never written; an error of priority 2 to 4 leaves the output
memory unchanged; after a run-time error every entry of it is unspecified, which in the model is a free value of a
fresh generation (log entry 3). -/
def Obligations.MemoriesAfterError : Prop :=
  (∀ (i : Instr) (s t : State), i = .lz77Enc ∨ i = .lz78Enc ∨ i = .lzwEnc → exec i s = .next t → t.err ≠ none →
    t.sym = s.sym ∧ t.alpha = s.alpha ∧
    (t.err = some .invalidConfiguration ∨ t.err = some .unknownSymbol ∨ s.params.symCap < s.symLen.toNat ∨
      (i = .lzwEnc ∧ s.params.alphaCap < s.alphaLen.toNat) → t.tok = s.tok) ∧
    (t.err = some .capacityExceeded → s.symLen.toNat ≤ s.params.symCap →
      (i = .lzwEnc → s.alphaLen.toNat ≤ s.params.alphaCap) →
      ∀ j, j < s.params.tokCap →
        t.tokAt j = unpackToken s.params.symW (Config.freeTok (s.tok.gen + 1) j))) ∧
  (∀ (i : Instr) (s t : State), i = .lz77Dec ∨ i = .lz78Dec ∨ i = .lzwDec → exec i s = .next t → t.err ≠ none →
    t.tok = s.tok ∧ t.alpha = s.alpha ∧
    (t.err = some .invalidConfiguration ∨ s.params.tokCap < s.tokLen.toNat ∨
      (i = .lzwDec ∧ s.params.alphaCap < s.alphaLen.toNat) → t.sym = s.sym) ∧
    (t.err = some .corruptToken ∨ (t.err = some .capacityExceeded ∧ s.tokLen.toNat ≤ s.params.tokCap ∧
        (i = .lzwDec → s.alphaLen.toNat ≤ s.params.alphaCap)) →
      ∀ j, j < s.params.symCap →
        t.symAt j = BitVec.ofNat 24 ((Config.freeSym (s.sym.gen + 1) j).toNat % 2 ^ s.params.symW)))

/-! ### LZ77 -/

/-- R140 to R150 (41_lz77.md): with positive sizes, an input that fits `SYM` and whose length fits `TOK`, `LZ77.ENC`
succeeds; the tokens it leaves are those of the search over the views of the input, at most one per symbol. -/
def Obligations.Lz77EncodeSucceeds : Prop :=
  ∀ s : State, s.symLen.toNat ≤ s.params.symCap → s.symLen.toNat ≤ s.params.tokCap →
    0 < s.wsize.toInt → 0 < s.lsize.toInt →
    ∃ t, exec .lz77Enc s = .next t ∧ t.err = none ∧ t.errinfo = 0#32 ∧ t.dcount = 0#32 ∧
      t.busy = false ∧ t.done = true ∧ t.tokLen.toNat ≤ s.symLen.toNat ∧
      lz77Parse s.wsize.toNat s.lsize.toNat s.input 0 t.stream

/-- R104 (30_encoding.md), R140, R151 (41_lz77.md), R246 (b) (60_exceptions.md): the tokens of the search over the views of
the input are `LZ77.ENC`'s output when they fit `TOK`; otherwise the first one that does not fit raises
`CapacityExceeded` with the cursor at its step. -/
def Obligations.Lz77EncodeIsTheParse : Prop :=
  ∀ (s : State) (toks : List Token), s.params.wf = true → s.symLen.toNat ≤ s.params.symCap →
    0 < s.wsize.toInt → 0 < s.lsize.toInt →
    lz77Parse s.wsize.toNat s.lsize.toNat s.input 0 toks →
    if toks.length ≤ s.params.tokCap then
      ∃ t, exec .lz77Enc s = .next t ∧ t.err = none ∧ t.stream = toks
    else
      ∃ t, exec .lz77Enc s = .next t ∧ t.err = some .capacityExceeded ∧
        t.errinfo = BitVec.ofNat 32 (lz77Total (toks.take s.params.tokCap)) ∧ t.tokLen = 0#32 ∧ t.dcount = 0#32

/-- R151 (41_lz77.md): at the top of every iteration the Search Window is `SYM[max(0, pos - W) .. pos)` and the Lookahead
Buffer `SYM[pos .. min(pos + L, N))`: so they are at the start, and an iteration keeps them so. -/
def Obligations.Lz77WindowIsAView : Prop :=
  (∀ (l : Nat) (input : List Sym), (lz77EncInit l input).pos = 0 ∧ (lz77EncInit l input).win = [] ∧
    (lz77EncInit l input).la = subseq input 0 (min l input.length)) ∧
  (∀ (p : Params) (w l : Nat) (input : List Sym) (k k' : Lz77EncWork), k.pos < input.length →
    k.win = subseq input (k.pos - w) k.pos → k.la = subseq input k.pos (min (k.pos + l) input.length) →
    lz77EncStep p w l input k = .ok k' →
    k.pos < k'.pos ∧ k'.pos ≤ input.length ∧
    k'.win = subseq input (k'.pos - w) k'.pos ∧ k'.la = subseq input k'.pos (min (k'.pos + l) input.length))

/-- R152 (41_lz77.md): the properties (a) to (f) of the tokens of a successful `LZ77.ENC`; the cursor at which a token was
emitted is the number of symbols the tokens before it stand for. -/
def Obligations.Lz77EncoderOutput : Prop :=
  ∀ s t : State, s.params.wf = true → exec .lz77Enc s = .next t → t.err = none →
    (s.symLen.toNat = 0 → t.tokLen.toNat = 0) ∧
    (∀ (i : Nat) (r : Token), t.stream[i]? = some r → r.tag = 0#2 ∧
      ((r.b.toNat = 0 ∧ r.a.toNat = 0 ∧ r.hasSym = true) ∨
       (1 ≤ r.b.toNat ∧ r.b.toNat ≤ r.a.toNat ∧
        r.a.toNat ≤ min s.wsize.toNat (lz77Total (t.stream.take i)) ∧ r.b.toNat ≤ s.lsize.toNat))) ∧
    (∀ (i : Nat) (r : Token), t.stream[i]? = some r → r.hasSym = false → i + 1 = t.stream.length ∧ 1 ≤ r.b.toNat) ∧
    lz77Total t.stream = s.symLen.toNat ∧
    t.stream.length = t.tokLen.toNat ∧ t.tokLen.toNat ≤ s.symLen.toNat ∧
    (∀ r : Token, t.stream[0]? = some r → r = lz77Token 0 0 s.input[0]?)

/-- R153, R155 (41_lz77.md): on a valid stream that fits, `LZ77.DEC` succeeds; every token's symbols are the copy from
`offset` positions back, then its trailing symbol. -/
def Obligations.Lz77DecodeRebuilds : Prop :=
  ∀ s : State, s.tokLen.toNat ≤ s.params.tokCap → 0 < s.wsize.toInt → 0 < s.lsize.toInt →
    lz77StreamValid s.params.symCap 0 s.stream = true →
    ∃ t, exec .lz77Dec s = .next t ∧ t.err = none ∧ t.errinfo = 0#32 ∧ t.dcount = 0#32 ∧
      t.busy = false ∧ t.done = true ∧ t.symLen = BitVec.ofNat 32 (lz77Total s.stream) ∧
      ∀ pre r post, s.stream = pre ++ r :: post →
        (∀ j, j < r.b.toNat →
          t.symAt (lz77Total pre + j) = t.symAt (lz77Total pre - r.a.toNat + j)) ∧
        (∀ x, r.symbol = some x → t.symAt (lz77Total pre + r.b.toNat) = x)

/-- R154 (41_lz77.md), R101 (30_encoding.md), R243, R246 (c) (60_exceptions.md): the first token that fails a test ends
`LZ77.DEC` with `CorruptToken(t)`, the first valid one whose symbols do not fit with `CapacityExceeded(t)`. -/
def Obligations.Lz77DecodeFailsAtFirstBadToken : Prop :=
  ∀ (s : State) (pre : List Token) (r : Token) (post : List Token), s.tokLen.toNat ≤ s.params.tokCap →
    0 < s.wsize.toInt → 0 < s.lsize.toInt → s.stream = pre ++ r :: post →
    lz77StreamValid s.params.symCap 0 pre = true →
    (r.tag ≠ 0#2 ∨ lz77Total pre < r.a.toNat ∨ r.a.toNat < r.b.toNat ∨ (r.b.toNat = 0 ∧ r.symbol = none) →
      ∃ t, exec .lz77Dec s = .next t ∧ t.err = some .corruptToken ∧ t.errinfo = BitVec.ofNat 32 pre.length ∧
        t.symLen = 0#32 ∧ t.dcount = 0#32) ∧
    (lz77TokenValid (lz77Total pre) r = true → s.params.symCap < lz77Total pre + lz77Span r →
      ∃ t, exec .lz77Dec s = .next t ∧ t.err = some .capacityExceeded ∧ t.errinfo = BitVec.ofNat 32 pre.length ∧
        t.symLen = 0#32 ∧ t.dcount = 0#32)

/-- R156 (41_lz77.md), R281 (70_reset_and_hazards.md): the result of `LZ77.DEC` depends neither on the valid sizes nor on
what `SYM` held before. -/
def Obligations.Lz77DecodeIgnoresSizesAndOldSymbols : Prop :=
  ∀ s₁ s₂ t₁ t₂ : State, s₁.params = s₂.params → s₁.stream = s₂.stream →
    s₁.tokLen = s₂.tokLen → 0 < s₁.wsize.toInt → 0 < s₁.lsize.toInt → 0 < s₂.wsize.toInt → 0 < s₂.lsize.toInt →
    exec .lz77Dec s₁ = .next t₁ → exec .lz77Dec s₂ = .next t₂ →
    t₁.err = t₂.err ∧ t₁.errinfo = t₂.errinfo ∧ t₁.symLen = t₂.symLen ∧ t₁.dcount = t₂.dcount ∧
    (t₁.err = none → ∀ i, i < t₁.symLen.toNat → t₁.symAt i = t₂.symAt i)

/-- R159 (41_lz77.md): if `LZ77.ENC` succeeded, `LZ77.DEC` of its tokens, under any valid sizes, succeeds with the same
symbols. -/
def Obligations.Lz77RoundTrip : Prop :=
  ∀ (s t : State) (w' l' : Word), s.params.wf = true → exec .lz77Enc s = .next t → t.err = none →
    0 < w'.toInt → 0 < l'.toInt →
    ∃ u, exec .lz77Dec { t with wsize := w', lsize := l' } = .next u ∧ u.err = none ∧
      u.symLen = s.symLen ∧ ∀ i, i < s.symLen.toNat → u.symAt i = s.symAt i

/-! ### LZ78 -/

/-- R172 (42_lz78.md): `longest_entry` finds the code of the longest dictionary phrase that is a prefix of the
unconsumed input, the lowest such code, or `(0, 0)` when there is none. -/
def Obligations.LongestEntryIsLongestPrefix : Prop :=
  ∀ (dict : List Phrase) (rest : List Sym),
    (longestEntry dict rest = (0, 0) ∧ ∀ q ∈ dict, ¬ q <+: rest) ∨
    (∃ j p, dict[j]? = some p ∧ longestEntry dict rest = (j + 1, p.length) ∧ p <+: rest ∧
      ∀ j' q, dict[j']? = some q → q <+: rest → q.length ≤ p.length ∧ (q.length = p.length → j ≤ j'))

/-- R170 to R175 (42_lz78.md), R104 (30_encoding.md), R246 (b), (d) (60_exceptions.md): every input has one parse, of at
most one token per symbol. When the tokens fit `TOK` and the dictionary, which they do if the symbols do, `LZ78.ENC`
succeeds with exactly them, and `DCOUNT` is their number; otherwise it ends with `CapacityExceeded(pos)`, `pos` the
cursor of the first step whose emission or insertion has no room: the symbols the tokens before it stand for. -/
def Obligations.Lz78EncodeSucceeds : Prop :=
  ∀ s : State, s.symLen.toNat ≤ s.params.symCap →
    (s.symLen.toNat ≤ s.params.tokCap → s.symLen.toNat ≤ s.params.dictCap →
      ∃ t, exec .lz78Enc s = .next t ∧ t.err = none ∧ t.errinfo = 0#32 ∧ t.dcount = t.tokLen ∧
        t.busy = false ∧ t.done = true ∧ t.tokLen.toNat ≤ s.symLen.toNat ∧
        lz78Parse s.input [] 0 t.stream) ∧
    ∃ toks, lz78Parse s.input [] 0 toks ∧ (∀ toks', lz78Parse s.input [] 0 toks' → toks' = toks) ∧
      toks.length ≤ s.symLen.toNat ∧
      if toks.length ≤ min s.params.tokCap s.params.dictCap then
        ∃ t, exec .lz78Enc s = .next t ∧ t.err = none ∧ t.errinfo = 0#32 ∧ t.busy = false ∧ t.done = true ∧
          t.stream = toks ∧ t.dcount = t.tokLen
      else
        ∃ t, exec .lz78Enc s = .next t ∧ t.err = some .capacityExceeded ∧
          t.errinfo = BitVec.ofNat 32 (lz78Lens [] (toks.take (min s.params.tokCap s.params.dictCap))).sum ∧
          t.busy = false ∧ t.done = true ∧ t.tokLen = 0#32 ∧ t.dcount = 0#32

/-- R176 (42_lz78.md), (a), (b), (e), (f), (g): the tokens of a successful `LZ78.ENC`. -/
def Obligations.Lz78EncoderOutput : Prop :=
  ∀ s t : State, s.params.wf = true → exec .lz78Enc s = .next t → t.err = none →
    (s.symLen.toNat = 0 → t.tokLen = 0#32 ∧ t.dcount = 0#32) ∧ t.dcount = t.tokLen ∧
    (∀ (i : Nat) (r : Token), t.stream[i]? = some r → r.tag = 1#2 ∧ r.b = 0#32 ∧ r.a.toNat ≤ i) ∧
    (∀ (i : Nat) (r : Token), t.stream[i]? = some r → r.hasSym = false → i + 1 = t.stream.length ∧ 1 ≤ r.a.toNat) ∧
    (∀ r : Token, t.stream[0]? = some r → r = lz78Token 0 s.input[0]?) ∧
    t.stream.length = t.tokLen.toNat ∧ t.tokLen.toNat ≤ s.symLen.toNat

/-- R176 (c), (d) (42_lz78.md): in the dictionary the encoder builds, the phrases of entries whose token carries a symbol
are pairwise distinct, and dropping the last symbol of a phrase gives the empty sequence or an earlier entry. -/
def Obligations.Lz78DictionaryDistinctPrefixClosed : Prop :=
  ∀ (p : Params) (input : List Sym) (k : Lz78EncWork),
    lz78EncLoop p input input.length { pos := 0, dict := [], out := [] } = .ok k →
    k.dict.length = k.out.length ∧
    (∀ (i j : Nat) (a b : Token), i < j → k.out[i]? = some a → k.out[j]? = some b → a.hasSym = true → b.hasSym = true →
      k.dict[i]? ≠ k.dict[j]?) ∧
    (∀ (i : Nat) (ph : Phrase), k.dict[i]? = some ph → ph.dropLast = [] ∨ ∃ j : Nat, j < i ∧ k.dict[j]? = some ph.dropLast)

/-- R177, R178 (42_lz78.md): on a valid stream that fits, `LZ78.DEC` succeeds with one entry per token; the symbols of a
token are the phrase of its code, which is what an earlier token appended, then its own symbol. -/
def Obligations.Lz78DecodeRebuilds : Prop :=
  ∀ s : State, s.tokLen.toNat ≤ s.params.tokCap →
    lz78StreamValid s.params.symCap s.params.dictCap [] s.stream = true →
    ∃ t, exec .lz78Dec s = .next t ∧ t.err = none ∧ t.errinfo = 0#32 ∧ t.dcount = s.tokLen ∧
      t.busy = false ∧ t.done = true ∧ t.symLen = BitVec.ofNat 32 (lz78Lens [] s.stream).sum ∧
      ∀ pre r post, s.stream = pre ++ r :: post →
        (∀ j, 1 ≤ r.a.toNat → j < (lz78Lens [] pre).getD (r.a.toNat - 1) 0 →
          t.symAt ((lz78Lens [] pre).sum + j) = t.symAt (((lz78Lens [] pre).take (r.a.toNat - 1)).sum + j)) ∧
        (∀ x, r.symbol = some x →
          t.symAt ((lz78Lens [] pre).sum + (lz78Span (lz78Lens [] pre) r - 1)) = x)

/-- R179, R180 (42_lz78.md), R101 (30_encoding.md), R246 (c), (d) (60_exceptions.md): the first token with a wrong tag, a code
not in the dictionary, or code 0 and no symbol ends `LZ78.DEC` with `CorruptToken(t)`; the first valid one whose
symbols or whose entry do not fit with `CapacityExceeded(t)`. -/
def Obligations.Lz78DecodeFailsAtFirstBadToken : Prop :=
  ∀ (s : State) (pre : List Token) (r : Token) (post : List Token), s.tokLen.toNat ≤ s.params.tokCap →
    s.stream = pre ++ r :: post → lz78StreamValid s.params.symCap s.params.dictCap [] pre = true →
    (r.tag ≠ 1#2 ∨ pre.length < r.a.toNat ∨ (r.a.toNat = 0 ∧ r.symbol = none) →
      ∃ t, exec .lz78Dec s = .next t ∧ t.err = some .corruptToken ∧ t.errinfo = BitVec.ofNat 32 pre.length ∧
        t.symLen = 0#32 ∧ t.dcount = 0#32) ∧
    (lz78TokenValid pre.length r = true →
      s.params.symCap < (lz78Lens [] pre).sum + lz78Span (lz78Lens [] pre) r ∨ s.params.dictCap ≤ pre.length →
      ∃ t, exec .lz78Dec s = .next t ∧ t.err = some .capacityExceeded ∧ t.errinfo = BitVec.ofNat 32 pre.length ∧
        t.symLen = 0#32 ∧ t.dcount = 0#32)

/-- R181 (42_lz78.md): every processed token, on encode and on decode, adds exactly one entry and changes no earlier one;
after success `DCOUNT = TOK_LEN`. -/
def Obligations.Lz78DictionaryGrowsByOne : Prop :=
  (∀ (p : Params) (input : List Sym) (k k' : Lz78EncWork), lz78EncStep p input k = .ok k' →
    k'.dict.length = k.dict.length + 1 ∧ k.dict <+: k'.dict ∧ k'.out.length = k.out.length + 1) ∧
  (∀ (p : Params) (t : Nat) (r : Token) (k k' : Lz78DecWork), lz78DecStep p t r k = .ok k' →
    k'.dict.length = k.dict.length + 1 ∧ k.dict <+: k'.dict) ∧
  (∀ s t : State, exec .lz78Enc s = .next t → t.err = none → t.dcount = t.tokLen) ∧
  (∀ s t : State, exec .lz78Dec s = .next t → t.err = none → t.dcount = s.tokLen)

/-- R182 (42_lz78.md): if `LZ78.ENC` succeeded, `LZ78.DEC` of its tokens succeeds with the same symbols and the same
`DCOUNT`. -/
def Obligations.Lz78RoundTrip : Prop :=
  ∀ s t : State, s.params.wf = true → exec .lz78Enc s = .next t → t.err = none →
    ∃ u, exec .lz78Dec t = .next u ∧ u.err = none ∧ u.symLen = s.symLen ∧ u.dcount = t.dcount ∧
      ∀ i, i < s.symLen.toNat → u.symAt i = s.symAt i

/-! ### LZW -/

/-- R190 to R198 (43_lzw.md), R104 (30_encoding.md), R246 (b), (d) (60_exceptions.md): with a distinct, non-empty alphabet
closed over an input that fits `SYM`, the input has one parse, of at most one token per symbol. When the tokens fit
`TOK` and their entries, one for each but the last, fit the dictionary, which holds if the symbols do, `LZW.ENC` succeeds
with exactly them; `DCOUNT` is `A` for the empty input, else `A + T - 1`. Otherwise it ends with `CapacityExceeded(pos)`
for the first token whose emission or insertion has no room, `pos` being where the phrase of that token ends: the symbol
that could not extend it, or `N` for the flush. -/
def Obligations.LzwEncodeSucceeds : Prop :=
  ∀ s : State, s.symLen.toNat ≤ s.params.symCap → s.alphaLen.toNat ≤ s.params.alphaCap →
    1 ≤ s.alphaLen.toNat → (∀ a b, a < b → b < s.alphaLen.toNat → s.alphaAt a ≠ s.alphaAt b) →
    (∀ i, i < s.symLen.toNat → ∃ j, j < s.alphaLen.toNat ∧ s.symAt i = s.alphaAt j) →
    (s.symLen.toNat ≤ s.params.tokCap → s.alphaLen.toNat + s.symLen.toNat ≤ s.params.dictCap + 1 →
      ∃ t, exec .lzwEnc s = .next t ∧ t.err = none ∧ t.errinfo = 0#32 ∧ t.busy = false ∧ t.done = true ∧
        t.tokLen.toNat ≤ s.symLen.toNat ∧ (t.tokLen = 0#32 ↔ s.symLen = 0#32) ∧
        t.dcount = (if t.tokLen = 0#32 then s.alphaLen else s.alphaLen + t.tokLen - 1#32) ∧
        lzwParseInput s.alphabet s.input t.stream) ∧
    (s.params.wf = true →
      ∃ toks, lzwParseInput s.alphabet s.input toks ∧
        (∀ toks', lzwParseInput s.alphabet s.input toks' → toks' = toks) ∧ toks.length ≤ s.symLen.toNat ∧
        if toks.length ≤ s.params.tokCap ∧ s.alphaLen.toNat + toks.length ≤ s.params.dictCap + 1 then
          ∃ t, exec .lzwEnc s = .next t ∧ t.err = none ∧ t.errinfo = 0#32 ∧ t.busy = false ∧ t.done = true ∧
            t.stream = toks ∧
            t.dcount = (if t.tokLen = 0#32 then s.alphaLen else s.alphaLen + t.tokLen - 1#32)
        else
          ∃ t, exec .lzwEnc s = .next t ∧ t.err = some .capacityExceeded ∧
            t.errinfo = BitVec.ofNat 32 (lzwLens s.alphaLen.toNat []
              (toks.take (min s.params.tokCap (s.params.dictCap - s.alphaLen.toNat) + 1))).sum ∧
            t.busy = false ∧ t.done = true ∧ t.tokLen = 0#32 ∧ t.dcount = 0#32)

/-- R195, R197 (43_lzw.md): one symbol of the encoder's loop either extends the accumulator, with no token and no entry, or
emits the code of the accumulator, inserts it with the symbol, and starts again from the symbol. -/
def Obligations.LzwEncodeStep : Prop :=
  ∀ (p : Params) (pos : Nat) (c : Sym) (k : LzwEncWork),
    (k.cur ++ [c] ∈ k.dict →
      lzwEncStep p pos c k = .ok { dict := k.dict, cur := k.cur ++ [c], out := k.out }) ∧
    (k.cur ++ [c] ∉ k.dict → k.out.length < p.tokCap → k.dict.length < p.dictCap →
      ∀ n, k.dict[n]? = some k.cur → k.dict.Nodup →
      lzwEncStep p pos c k =
        .ok { dict := k.dict ++ [k.cur ++ [c]], cur := [c],
              out := k.out ++ [{ tag := 2#2, hasSym := false, sym := 0#24, a := BitVec.ofNat 32 n, b := 0#32 }] })

/-- R193, R194, R196, R204 (a), (b) (43_lzw.md): for a distinct alphabet that has the first input symbol, the encoder
starts from the seeds, entry `k` being the symbol `k` of the alphabet, and from that symbol's seed as its accumulator;
there the phrases are pairwise distinct, the accumulator is one of them, every symbol of the alphabet has its seed,
and the dictionary is prefix-closed. With the seed of the symbol read in the dictionary, an iteration keeps all of
this. -/
def Obligations.LzwDictionaryDistinctPrefixClosed : Prop :=
  (∀ (alpha : List Sym) (c : Sym), alpha.Nodup → c ∈ alpha →
    (lzwEncInit alpha c).dict.length = alpha.length ∧
    (∀ (k : Nat) (x : Sym), alpha[k]? = some x → (lzwEncInit alpha c).dict[k]? = some [x]) ∧
    (lzwEncInit alpha c).cur = [c] ∧ (lzwEncInit alpha c).out = [] ∧
    (lzwEncInit alpha c).dict.Nodup ∧ (lzwEncInit alpha c).cur ∈ (lzwEncInit alpha c).dict ∧
    (∀ x ∈ alpha, [x] ∈ (lzwEncInit alpha c).dict) ∧
    ∀ ph ∈ (lzwEncInit alpha c).dict, ph.dropLast = [] ∨ ph.dropLast ∈ (lzwEncInit alpha c).dict) ∧
  (∀ (p : Params) (pos : Nat) (c : Sym) (k k' : LzwEncWork), lzwEncStep p pos c k = .ok k' →
    k.dict.Nodup → k.cur ∈ k.dict → [c] ∈ k.dict → (∀ ph ∈ k.dict, ph.dropLast = [] ∨ ph.dropLast ∈ k.dict) →
    k'.dict.Nodup ∧ k'.cur ∈ k'.dict ∧ k.dict <+: k'.dict ∧ (∀ x : Sym, [x] ∈ k.dict → [x] ∈ k'.dict) ∧
    ∀ ph ∈ k'.dict, ph.dropLast = [] ∨ ph.dropLast ∈ k'.dict)

/-- R204 (c), (d), R194, R198 (43_lzw.md): the tokens of a successful `LZW.ENC`: at most `N`; every code is below the
dictionary size at its emission, which is `A + i` for token `i`; a one-symbol input gives the index of its symbol. -/
def Obligations.LzwEncoderOutput : Prop :=
  ∀ s t : State, s.params.wf = true → exec .lzwEnc s = .next t → t.err = none →
    t.stream.length = t.tokLen.toNat ∧ t.tokLen.toNat ≤ s.symLen.toNat ∧
    (∀ (i : Nat) (r : Token), t.stream[i]? = some r → r = lzwToken r.a.toNat ∧ r.a.toNat < s.alphaLen.toNat + i) ∧
    (s.symLen = 1#32 → ∃ k, t.stream = [lzwToken k] ∧ k < s.alphaLen.toNat ∧ s.alphaAt k = s.symAt 0)

/-- R203 (43_lzw.md): after a successful `LZW.ENC` or `LZW.DEC` with `T >= 1` tokens `DCOUNT = A + T - 1`, with none
`DCOUNT = A`; entries are never changed or removed. -/
def Obligations.LzwDictionarySize : Prop :=
  (∀ s t : State, s.params.wf = true → exec .lzwEnc s = .next t → t.err = none →
    t.dcount.toNat = if t.tokLen.toNat = 0 then s.alphaLen.toNat else s.alphaLen.toNat + t.tokLen.toNat - 1) ∧
  (∀ s t : State, s.params.wf = true → exec .lzwDec s = .next t → t.err = none →
    t.dcount.toNat = if s.tokLen.toNat = 0 then s.alphaLen.toNat else s.alphaLen.toNat + s.tokLen.toNat - 1) ∧
  (∀ (p : Params) (pos : Nat) (c : Sym) (k k' : LzwEncWork), lzwEncStep p pos c k = .ok k' → k.dict <+: k'.dict) ∧
  (∀ (p : Params) (t : Nat) (r : Token) (k k' : LzwDecWork), lzwDecStep p t r k = .ok k' → k.dict <+: k'.dict)

/-- R199, R200, R201 (43_lzw.md): with a distinct, non-empty alphabet, on a valid stream that fits, `LZW.DEC` succeeds. The
symbols of a token with code `k < A` are the seed; those of a token with code `A + j` are the phrase of token `j`
and the symbol after it in the output, the special case `j = t - 1` included. -/
def Obligations.LzwDecodeRebuilds : Prop :=
  ∀ s : State, s.params.wf = true → s.tokLen.toNat ≤ s.params.tokCap →
    s.alphaLen.toNat ≤ s.params.alphaCap → 1 ≤ s.alphaLen.toNat →
    (∀ a b, a < b → b < s.alphaLen.toNat → s.alphaAt a ≠ s.alphaAt b) →
    lzwStreamValid s.params.symCap s.params.dictCap s.alphaLen.toNat [] s.stream = true →
    ∃ t, exec .lzwDec s = .next t ∧ t.err = none ∧ t.errinfo = 0#32 ∧ t.busy = false ∧ t.done = true ∧
      t.symLen.toNat = (lzwLens s.alphaLen.toNat [] s.stream).sum ∧
      t.dcount.toNat = (if s.tokLen.toNat = 0 then s.alphaLen.toNat
        else s.alphaLen.toNat + s.tokLen.toNat - 1) ∧
      ∀ pre r post, s.stream = pre ++ r :: post →
        (r.a.toNat < s.alphaLen.toNat →
          t.symAt (lzwLens s.alphaLen.toNat [] pre).sum = s.alphaAt r.a.toNat) ∧
        (s.alphaLen.toNat ≤ r.a.toNat →
          ∀ j, j < lzwSpan s.alphaLen.toNat (lzwLens s.alphaLen.toNat [] pre) r →
            t.symAt ((lzwLens s.alphaLen.toNat [] pre).sum + j) =
              t.symAt (((lzwLens s.alphaLen.toNat [] pre).take (r.a.toNat - s.alphaLen.toNat)).sum + j))

/-- R200, R201 (43_lzw.md): what one valid token appends and inserts: the phrase of its code, or, for the very next free code,
the previous phrase with its first symbol; the previous phrase with the first symbol of the appended one becomes the
next entry, which in the second case is the appended phrase itself, at that code. -/
def Obligations.LzwDecodeStep : Prop :=
  ∀ (p : Params) (t : Nat) (r : Token) (k : LzwDecWork), r.tag = 2#2 →
    (∀ ph, k.dict[r.a.toNat]? = some ph → k.out.length + ph.length ≤ p.symCap → k.prev = none →
      lzwDecStep p t r k = .ok { dict := k.dict, prev := some ph, out := k.out ++ ph }) ∧
    (∀ ph q, k.dict[r.a.toNat]? = some ph → k.out.length + ph.length ≤ p.symCap → k.prev = some q →
      k.dict.length < p.dictCap →
      lzwDecStep p t r k = .ok { dict := k.dict ++ [q ++ ph.take 1], prev := some ph, out := k.out ++ ph }) ∧
    (∀ q, r.a.toNat = k.dict.length → k.prev = some q → q ≠ [] →
      k.out.length + (q.length + 1) ≤ p.symCap → k.dict.length < p.dictCap →
      lzwDecStep p t r k =
        .ok { dict := k.dict ++ [q ++ q.take 1], prev := some (q ++ q.take 1), out := k.out ++ (q ++ q.take 1) })

/-- R202 (43_lzw.md), R101 (30_encoding.md), R243, R246 (c), (d) (60_exceptions.md): the first token with a wrong tag, or with
a code that does not resolve (`k >= A` at `t = 0`, `k > A + t - 1` at `t >= 1`), ends `LZW.DEC` with
`CorruptToken(t)`; the first valid one whose symbols or whose entry do not fit with `CapacityExceeded(t)`. -/
def Obligations.LzwDecodeFailsAtFirstBadToken : Prop :=
  ∀ (s : State) (pre : List Token) (r : Token) (post : List Token), s.params.wf = true →
    s.tokLen.toNat ≤ s.params.tokCap → s.alphaLen.toNat ≤ s.params.alphaCap → 1 ≤ s.alphaLen.toNat →
    (∀ a b, a < b → b < s.alphaLen.toNat → s.alphaAt a ≠ s.alphaAt b) → s.stream = pre ++ r :: post →
    lzwStreamValid s.params.symCap s.params.dictCap s.alphaLen.toNat [] pre = true →
    (r.tag ≠ 2#2 ∨ (pre = [] ∧ s.alphaLen.toNat ≤ r.a.toNat) ∨
        (pre ≠ [] ∧ s.alphaLen.toNat + pre.length - 1 < r.a.toNat) →
      ∃ t, exec .lzwDec s = .next t ∧ t.err = some .corruptToken ∧ t.errinfo = BitVec.ofNat 32 pre.length ∧
        t.symLen = 0#32 ∧ t.dcount = 0#32) ∧
    (lzwTokenValid s.alphaLen.toNat pre.length r = true →
      (s.params.symCap < (lzwLens s.alphaLen.toNat [] pre).sum +
          lzwSpan s.alphaLen.toNat (lzwLens s.alphaLen.toNat [] pre) r ∨
        (pre ≠ [] ∧ s.params.dictCap < s.alphaLen.toNat + pre.length)) →
      ∃ t, exec .lzwDec s = .next t ∧ t.err = some .capacityExceeded ∧ t.errinfo = BitVec.ofNat 32 pre.length ∧
        t.symLen = 0#32 ∧ t.dcount = 0#32)

/-- R205 (43_lzw.md): if `LZW.ENC` succeeded, `LZW.DEC` of its tokens under the same alphabet succeeds with the same symbols
and the same `DCOUNT`. -/
def Obligations.LzwRoundTrip : Prop :=
  ∀ s t : State, s.params.wf = true → exec .lzwEnc s = .next t → t.err = none →
    ∃ u, exec .lzwDec t = .next u ∧ u.err = none ∧ u.symLen = s.symLen ∧ u.dcount = t.dcount ∧
      ∀ i, i < s.symLen.toNat → u.symAt i = s.symAt i

/-! ### The whole machine -/

/-- R15, R42 (00_scope.md, 10_state.md) and the table after R32: the result of an encode is a function of the input and, for
LZ77, the sizes, for LZW, the alphabet: nothing an earlier command left changes a token. -/
def Obligations.EncodeDependsOnlyOnItsInput : Prop :=
  ∀ (i : Instr) (s₁ s₂ t₁ t₂ : State), i = .lz77Enc ∨ i = .lz78Enc ∨ i = .lzwEnc →
    s₁.params = s₂.params → s₁.symLen = s₂.symLen → (∀ j, j < s₁.symLen.toNat → s₁.symAt j = s₂.symAt j) →
    (i = .lz77Enc → s₁.wsize = s₂.wsize ∧ s₁.lsize = s₂.lsize) →
    (i = .lzwEnc → s₁.alphaLen = s₂.alphaLen ∧ ∀ j, j < s₁.alphaLen.toNat → s₁.alphaAt j = s₂.alphaAt j) →
    exec i s₁ = .next t₁ → exec i s₂ = .next t₂ →
    t₁.err = t₂.err ∧ t₁.errinfo = t₂.errinfo ∧ t₁.tokLen = t₂.tokLen ∧ t₁.dcount = t₂.dcount ∧
    (t₁.err = none → ∀ j, j < t₁.tokLen.toNat → t₁.tokAt j = t₂.tokAt j)

/-- R15, R42 (00_scope.md, 10_state.md) and the table after R32: the result of an LZ78 or LZW decode is a function of the
token stream and, for LZW, the alphabet. -/
def Obligations.DecodeDependsOnlyOnItsStream : Prop :=
  ∀ (i : Instr) (s₁ s₂ t₁ t₂ : State), i = .lz78Dec ∨ i = .lzwDec →
    s₁.params = s₂.params → s₁.tokLen = s₂.tokLen → (∀ j, j < s₁.tokLen.toNat → s₁.tokAt j = s₂.tokAt j) →
    (i = .lzwDec → s₁.alphaLen = s₂.alphaLen ∧ ∀ j, j < s₁.alphaLen.toNat → s₁.alphaAt j = s₂.alphaAt j) →
    exec i s₁ = .next t₁ → exec i s₂ = .next t₂ →
    t₁.err = t₂.err ∧ t₁.errinfo = t₂.errinfo ∧ t₁.symLen = t₂.symLen ∧ t₁.dcount = t₂.dcount ∧
    (t₁.err = none → ∀ j, j < t₁.symLen.toNat → t₁.symAt j = t₂.symAt j)

/-- R9, R10 (00_scope.md), R20 (10_state.md): the parameters of the instance are constants: no step changes them, and no step
makes anything of the host's later operations. -/
def Obligations.StepKeepsTheInstance : Prop :=
  ∀ s t : State, step s = .next t → t.params = s.params ∧ t.script = s.script.tail

/-- R30, R33, R34 (10_state.md), R64 (20_memory.md): every step keeps the memories in canonical form, within their capacities
and with symbols of `SYMW` bits. -/
def Obligations.StepKeepsMemoriesOk : Prop :=
  ∀ s t : State, s.memoriesOk = true → step s = .next t → t.memoriesOk = true

/-- R23, R43 (10_state.md), R241, R246 (60_exceptions.md), R27, R32: every step keeps the engine's registers consistent: not
busy, an error only once a command has completed, `ERRINFO` within what its kind allows (for `CapacityExceeded` at most
`SYM_CAP`, or below `TOK_CAP`), the dictionary size and the query results within the capacities. -/
def Obligations.StepKeepsStatusOk : Prop :=
  ∀ s t : State, s.params.wf = true → s.statusOk = true → step s = .next t → t.statusOk = true

/-- R44 (10_state.md): the state after reset meets the invariants, the reference instance being a legal one. -/
def Obligations.ResetMeetsTheInvariants : Prop :=
  State.reset.params.wf = true ∧ State.reset.memoriesOk = true ∧ State.reset.statusOk = true
end

