-- ==== Sys2Proof/Laws/Encoding.lean ====
section
/-! SUPPORT. The command word's mask (R93), the stored width of a symbol (R64) and the bits of a record (R96). -/

namespace Sys2Proof.Machine

/-- The test of R93 in the two forms the spec writes it: the mask, and the field `ZERO`. -/
theorem mask_eq_zero_iff (w : Word) : w &&& 0xFFFFFFF8#32 = 0#32 ↔ cmdZero w = 0#29 := by
  unfold cmdZero
  constructor
  · intro h
    ext i hi
    have := congrArg (fun v => BitVec.getLsbD v (3+i)) h
    simp only [BitVec.getLsbD_and, BitVec.getLsbD_zero] at this
    rw [BitVec.getElem_extractLsb']
    interval_cases i <;> simp_all
  · intro h
    ext i hi
    by_cases h3 : i < 3
    · interval_cases i <;> simp
    · have := congrArg (fun v => BitVec.getLsbD v (i-3)) h
      simp only [BitVec.getLsbD_extractLsb', BitVec.getLsbD_zero] at this
      have e : 3 + (i-3) = i := by omega
      rw [e] at this
      have : w.getLsbD i = false := by
        have : i - 3 < 29 := by omega
        simp_all
      simp [BitVec.getLsbD_eq_getElem hi] at this
      simp [this]

/-- The number `v mod 2^SYMW` (R64). -/
theorem narrow_toNat (w v : Nat) : (narrow w v).toNat = v % 2^w % 2^24 := by simp [narrow]

/-- A symbol of `SYMW` bits is stored whole (R64). -/
theorem narrow_fit (w : Nat) (x : Sym) (h : x.toNat < 2^w) : narrow w x.toNat = x := by
  apply BitVec.eq_of_toNat_eq; rw [narrow_toNat, Nat.mod_eq_of_lt h, Nat.mod_eq_of_lt x.isLt]

/-- The bits of a stored symbol. -/
theorem narrow_bit (w v : Nat) (j) : (narrow w v).getLsbD j = (decide (j < w) && decide (j < 24) && v.testBit j) := by
  simp [narrow, BitVec.getLsbD_ofNat, Nat.testBit_mod_two_pow]
  cases decide (j<w) <;> cases decide (j < 24) <;> simp

/-- The bits of a record word (R96). -/
theorem pack_bit (w : Nat) (t : Token) (j : Nat) : (packToken w t).getLsbD j =
   if j < 32 then t.a.getLsbD j else if j < 64 then t.b.getLsbD (j-32) else if j < 88 then (narrow w t.sym.toNat).getLsbD (j-64)
   else if j = 88 then t.hasSym else if j < 91 then t.tag.getLsbD (j - 89) else false := by
  unfold packToken
  rw [BitVec.getLsbD_append, BitVec.getLsbD_append, BitVec.getLsbD_append, BitVec.getLsbD_append, BitVec.getLsbD_append]
  by_cases h1 : j < 32
  · simp [h1]
  by_cases h2 : j < 64
  · have : j - 32 < 32 := by omega
    simp [h1, h2, this]
  by_cases h3 : j < 88
  · have h6 : ¬ j - 32 < 32 := by omega
    have e : j - 32 - 32 = j - 64 := by omega
    simp only [h1, h2, h3, h6, e]
    simp
    omega
  by_cases h4 : j = 88
  · subst h4; simp
  by_cases h5 : j < 91
  · have h6 : ¬ j - 32 < 32 := by omega
    have h7 : ¬ j - 32 - 32 < 24 := by omega
    have h8 : ¬ j - 32 - 32 - 24 < 1 := by omega
    have e : j - 32 - 32 - 24 -1 = j - 89 := by omega
    simp only [h1,h2,h3,h4,h5,h6,h7,h8,e]; simp
    intro h; omega
  · have h6 : ¬ j - 32 < 32 := by omega
    have h7 : ¬ j - 32 - 32 < 24 := by omega
    have h8 : ¬ j - 32 - 32 - 24 < 1 := by omega
    simp only [h1,h2,h3,h4,h5,h6,h7,h8]; simp
    omega

/-- A stored symbol is below `2^SYMW` (R9). -/
theorem narrow_lt (w v : Nat) : (narrow w v).toNat < 2 ^ w := by
  rw [narrow_toNat]
  exact Nat.lt_of_le_of_lt (Nat.mod_le _ _) (Nat.mod_lt _ (Nat.two_pow_pos w))

end Sys2Proof.Machine
end

