-- ==== Sys2Proof/Laws/Memory.lean ====
section
/-! SUPPORT. The laws of one memory: a read after a write (R60), sequences of writes, and the canonical form. -/

namespace Sys2Proof.Machine

variable {α : Type}

theorem cellAt_setCell_same (i : Nat) (v : α) (cs : List (Nat × α)) : cellAt (setCell i v cs) i = some v := by
  induction cs with
  | nil => simp [setCell, cellAt]
  | cons c cs ih =>
    obtain ⟨j, w⟩ := c
    simp only [setCell]
    split
    · simp [cellAt]
    · split
      · simp [cellAt]
      · rename_i h1 h2
        simp [cellAt, Ne.symm h2, ih]

theorem cellAt_setCell_other {i j : Nat} (h : j ≠ i) (v : α) (cs : List (Nat × α)) :
    cellAt (setCell i v cs) j = cellAt cs j := by
  induction cs with
  | nil => simp [setCell, cellAt, Ne.symm h]
  | cons c cs ih =>
    obtain ⟨k, w⟩ := c
    simp only [setCell]
    split
    · simp [cellAt, Ne.symm h]
    · split
      · rename_i h2
        subst h2
        simp [cellAt, Ne.symm h]
      · simp [cellAt, ih]

@[simp] theorem Memory.read_write_same (free : Nat → Nat → α) (m : Memory α) (i : Nat) (v : α) :
    (m.write i v).read free i = v := by
  simp [Memory.read, Memory.write, cellAt_setCell_same]

theorem Memory.read_write_other (free : Nat → Nat → α) (m : Memory α) {i j : Nat} (h : j ≠ i) (v : α) :
    (m.write i v).read free j = m.read free j := by
  simp [Memory.read, Memory.write, cellAt_setCell_other h]

/-- A write changes the one entry. -/
theorem Memory.read_write (free : Nat → Nat → α) (m : Memory α) (i j : Nat) (v : α) :
    (m.write i v).read free j = if j = i then v else m.read free j := by
  split
  · next h => subst h; simp
  · next h => exact Memory.read_write_other free m h v

@[simp] theorem Memory.write_gen (m : Memory α) (i : Nat) (v : α) : (m.write i v).gen = m.gen := rfl

@[simp] theorem Memory.writeFrom_gen (vs : List α) : ∀ (m : Memory α) (i : Nat), (m.writeFrom i vs).gen = m.gen := by
  induction vs with
  | nil => intro m i; rfl
  | cons v vs ih => intro m i; simp [Memory.writeFrom, ih]

/-- A sequence written from entry `i` on is what the entries from `i` on hold; the others are unchanged. -/
theorem Memory.read_writeFrom (free : Nat → Nat → α) (vs : List α) :
    ∀ (m : Memory α) (i j : Nat), (m.writeFrom i vs).read free j =
      if h : i ≤ j ∧ j < i + vs.length then vs[j - i]'(by omega) else m.read free j := by
  induction vs with
  | nil => intro m i j; rw [dif_neg (by simp)]; rfl
  | cons v vs ih =>
    intro m i j
    simp only [Memory.writeFrom, ih, List.length_cons]
    by_cases h : j = i
    · subst h
      rw [dif_neg (by omega), dif_pos (by omega)]
      simp
    · by_cases h2 : i ≤ j ∧ j < i + (vs.length + 1)
      · rw [dif_pos (by omega), dif_pos h2]
        rw [List.getElem_cons, dif_neg (by omega)]
        congr 1
      · rw [dif_neg (by omega), dif_neg h2, Memory.read_write_other free m h]

/-- What a memory whose contents are unspecified reads as. -/
@[simp] theorem Memory.read_unwritten (free : Nat → Nat → α) (g i : Nat) :
    (Memory.unwritten g : Memory α).read free i = free g i := rfl

@[simp] theorem Memory.scramble_gen (m : Memory α) : m.scramble.gen = m.gen + 1 := rfl
@[simp] theorem Memory.scramble_cells (m : Memory α) : m.scramble.cells = [] := rfl

/-! ### The canonical form -/

theorem risingFrom_mono {lo lo' : Nat} (h : lo ≤ lo') (cs : List (Nat × α)) (hr : risingFrom lo' cs = true) :
    risingFrom lo cs = true := by
  cases cs with
  | nil => rfl
  | cons c cs =>
    obtain ⟨j, w⟩ := c
    simp only [risingFrom, Bool.and_eq_true, decide_eq_true_eq] at *
    exact ⟨by omega, hr.2⟩

theorem risingFrom_setCell (i : Nat) (v : α) (cs : List (Nat × α)) :
    ∀ lo, lo ≤ i → risingFrom lo cs = true → risingFrom lo (setCell i v cs) = true := by
  induction cs with
  | nil => intro lo h _; simp [setCell, risingFrom, h]
  | cons c cs ih =>
    obtain ⟨j, w⟩ := c
    intro lo h hr
    simp only [risingFrom, Bool.and_eq_true, decide_eq_true_eq] at hr
    simp only [setCell]
    split
    · simp only [risingFrom, Bool.and_eq_true, decide_eq_true_eq]
      exact ⟨h, by omega, hr.2⟩
    · split
      · subst_vars
        simp only [risingFrom, Bool.and_eq_true, decide_eq_true_eq]
        exact ⟨h, hr.2⟩
      · simp only [risingFrom, Bool.and_eq_true, decide_eq_true_eq]
        exact ⟨hr.1, ih (j + 1) (by omega) hr.2⟩

/-- A write keeps the canonical form. -/
theorem Memory.wf_write (m : Memory α) (i : Nat) (v : α) (h : m.wf = true) : (m.write i v).wf = true :=
  risingFrom_setCell i v m.cells 0 (Nat.zero_le i) h

/-- A sequence of writes keeps the canonical form. -/
theorem Memory.wf_writeFrom (vs : List α) :
    ∀ (m : Memory α) (i : Nat), m.wf = true → (m.writeFrom i vs).wf = true := by
  induction vs with
  | nil => intro m i h; exact h
  | cons v vs ih => intro m i h; exact ih _ _ (Memory.wf_write m i v h)

/-- A memory with nothing listed is canonical: after reset, after a run-time error. -/
@[simp] theorem Memory.wf_unwritten (g : Nat) : (Memory.unwritten g : Memory α).wf = true := rfl

@[simp] theorem Memory.wf_scramble (m : Memory α) : m.scramble.wf = true := rfl

/-- What a write lists: the old entries, or the new one. -/
theorem mem_setCell {i : Nat} {v : α} {cs : List (Nat × α)} {c : Nat × α} (h : c ∈ setCell i v cs) :
    c = (i, v) ∨ c ∈ cs := by
  induction cs with
  | nil => simpa [setCell] using h
  | cons d cs ih =>
    obtain ⟨j, w⟩ := d
    simp only [setCell] at h
    split at h
    · simpa using h
    · split at h
      · rcases List.mem_cons.mp h with h | h
        · exact .inl h
        · exact .inr (List.mem_cons_of_mem _ h)
      · rcases List.mem_cons.mp h with h | h
        · exact .inr (h ▸ List.mem_cons_self)
        · exact (ih h).imp id (List.mem_cons_of_mem _)

/-- What a sequence of writes lists: the old entries, or one of the written values at its index. -/
theorem mem_writeFrom (vs : List α) : ∀ (m : Memory α) (i : Nat) (c : Nat × α), c ∈ (m.writeFrom i vs).cells →
    c ∈ m.cells ∨ (i ≤ c.1 ∧ c.1 < i + vs.length ∧ c.2 ∈ vs) := by
  induction vs with
  | nil => intro m i c h; exact .inl h
  | cons v vs ih =>
    intro m i c h
    rcases ih (m.write i v) (i + 1) c h with h | ⟨h1, h2, h3⟩
    · rcases mem_setCell h with h | h
      · subst h; exact .inr ⟨Nat.le_refl _, by simp, by simp⟩
      · exact .inl h
    · exact .inr ⟨by omega, by simp only [List.length_cons]; omega, List.mem_cons_of_mem _ h3⟩

end Sys2Proof.Machine
end

