-- ==== Sys2Proof/Laws/State.lean ====
section
/-! SUPPORT. One lemma per field of the state per update of the whole state, each true by `rfl`. -/

namespace Sys2Proof.Machine

/-! Issuing a command (R223). -/

@[simp] theorem State.start_params (s : State) : s.start.params = s.params := rfl
@[simp] theorem State.start_busy (s : State) : s.start.busy = true := rfl
@[simp] theorem State.start_done (s : State) : s.start.done = false := rfl
@[simp] theorem State.start_err (s : State) : s.start.err = s.err := rfl
@[simp] theorem State.start_errinfo (s : State) : s.start.errinfo = s.errinfo := rfl
@[simp] theorem State.start_wsize (s : State) : s.start.wsize = s.wsize := rfl
@[simp] theorem State.start_lsize (s : State) : s.start.lsize = s.lsize := rfl
@[simp] theorem State.start_alphaLen (s : State) : s.start.alphaLen = s.alphaLen := rfl
@[simp] theorem State.start_symLen (s : State) : s.start.symLen = s.symLen := rfl
@[simp] theorem State.start_tokLen (s : State) : s.start.tokLen = s.tokLen := rfl
@[simp] theorem State.start_qpos (s : State) : s.start.qpos = s.qpos := rfl
@[simp] theorem State.start_qend (s : State) : s.start.qend = s.qend := rfl
@[simp] theorem State.start_qmax (s : State) : s.start.qmax = s.qmax := rfl
@[simp] theorem State.start_clo (s : State) : s.start.clo = s.clo := rfl
@[simp] theorem State.start_chi (s : State) : s.start.chi = s.chi := rfl
@[simp] theorem State.start_rlen (s : State) : s.start.rlen = s.rlen := rfl
@[simp] theorem State.start_roff (s : State) : s.start.roff = s.roff := rfl
@[simp] theorem State.start_dcount (s : State) : s.start.dcount = s.dcount := rfl
@[simp] theorem State.start_sym (s : State) : s.start.sym = s.sym := rfl
@[simp] theorem State.start_tok (s : State) : s.start.tok = s.tok := rfl
@[simp] theorem State.start_alpha (s : State) : s.start.alpha = s.alpha := rfl
@[simp] theorem State.start_script (s : State) : s.start.script = s.script := rfl
@[simp] theorem State.start_reply (s : State) : s.start.reply = s.reply := rfl

/-! The success of a command (R226). -/

@[simp] theorem State.succeed_params (s : State) : s.succeed.params = s.params := rfl
@[simp] theorem State.succeed_busy (s : State) : s.succeed.busy = false := rfl
@[simp] theorem State.succeed_done (s : State) : s.succeed.done = true := rfl
@[simp] theorem State.succeed_err (s : State) : s.succeed.err = none := rfl
@[simp] theorem State.succeed_errinfo (s : State) : s.succeed.errinfo = 0#32 := rfl
@[simp] theorem State.succeed_wsize (s : State) : s.succeed.wsize = s.wsize := rfl
@[simp] theorem State.succeed_lsize (s : State) : s.succeed.lsize = s.lsize := rfl
@[simp] theorem State.succeed_alphaLen (s : State) : s.succeed.alphaLen = s.alphaLen := rfl
@[simp] theorem State.succeed_symLen (s : State) : s.succeed.symLen = s.symLen := rfl
@[simp] theorem State.succeed_tokLen (s : State) : s.succeed.tokLen = s.tokLen := rfl
@[simp] theorem State.succeed_qpos (s : State) : s.succeed.qpos = s.qpos := rfl
@[simp] theorem State.succeed_qend (s : State) : s.succeed.qend = s.qend := rfl
@[simp] theorem State.succeed_qmax (s : State) : s.succeed.qmax = s.qmax := rfl
@[simp] theorem State.succeed_clo (s : State) : s.succeed.clo = s.clo := rfl
@[simp] theorem State.succeed_chi (s : State) : s.succeed.chi = s.chi := rfl
@[simp] theorem State.succeed_rlen (s : State) : s.succeed.rlen = s.rlen := rfl
@[simp] theorem State.succeed_roff (s : State) : s.succeed.roff = s.roff := rfl
@[simp] theorem State.succeed_dcount (s : State) : s.succeed.dcount = s.dcount := rfl
@[simp] theorem State.succeed_sym (s : State) : s.succeed.sym = s.sym := rfl
@[simp] theorem State.succeed_tok (s : State) : s.succeed.tok = s.tok := rfl
@[simp] theorem State.succeed_alpha (s : State) : s.succeed.alpha = s.alpha := rfl
@[simp] theorem State.succeed_script (s : State) : s.succeed.script = s.script := rfl
@[simp] theorem State.succeed_reply (s : State) : s.succeed.reply = s.reply := rfl

/-! A `raise` (R248). -/

@[simp] theorem State.raise_params (s : State) (k : ErrKind) (x : Word) : (State.raise k x s).params = s.params := rfl
@[simp] theorem State.raise_busy (s : State) (k : ErrKind) (x : Word) : (State.raise k x s).busy = false := rfl
@[simp] theorem State.raise_done (s : State) (k : ErrKind) (x : Word) : (State.raise k x s).done = true := rfl
@[simp] theorem State.raise_err (s : State) (k : ErrKind) (x : Word) : (State.raise k x s).err = some k := rfl
@[simp] theorem State.raise_errinfo (s : State) (k : ErrKind) (x : Word) : (State.raise k x s).errinfo = x := rfl
@[simp] theorem State.raise_wsize (s : State) (k : ErrKind) (x : Word) : (State.raise k x s).wsize = s.wsize := rfl
@[simp] theorem State.raise_lsize (s : State) (k : ErrKind) (x : Word) : (State.raise k x s).lsize = s.lsize := rfl
@[simp] theorem State.raise_alphaLen (s : State) (k : ErrKind) (x : Word) : (State.raise k x s).alphaLen = s.alphaLen := rfl
@[simp] theorem State.raise_symLen (s : State) (k : ErrKind) (x : Word) : (State.raise k x s).symLen = s.symLen := rfl
@[simp] theorem State.raise_tokLen (s : State) (k : ErrKind) (x : Word) : (State.raise k x s).tokLen = s.tokLen := rfl
@[simp] theorem State.raise_qpos (s : State) (k : ErrKind) (x : Word) : (State.raise k x s).qpos = s.qpos := rfl
@[simp] theorem State.raise_qend (s : State) (k : ErrKind) (x : Word) : (State.raise k x s).qend = s.qend := rfl
@[simp] theorem State.raise_qmax (s : State) (k : ErrKind) (x : Word) : (State.raise k x s).qmax = s.qmax := rfl
@[simp] theorem State.raise_clo (s : State) (k : ErrKind) (x : Word) : (State.raise k x s).clo = s.clo := rfl
@[simp] theorem State.raise_chi (s : State) (k : ErrKind) (x : Word) : (State.raise k x s).chi = s.chi := rfl
@[simp] theorem State.raise_rlen (s : State) (k : ErrKind) (x : Word) : (State.raise k x s).rlen = s.rlen := rfl
@[simp] theorem State.raise_roff (s : State) (k : ErrKind) (x : Word) : (State.raise k x s).roff = s.roff := rfl
@[simp] theorem State.raise_dcount (s : State) (k : ErrKind) (x : Word) : (State.raise k x s).dcount = s.dcount := rfl
@[simp] theorem State.raise_sym (s : State) (k : ErrKind) (x : Word) : (State.raise k x s).sym = s.sym := rfl
@[simp] theorem State.raise_tok (s : State) (k : ErrKind) (x : Word) : (State.raise k x s).tok = s.tok := rfl
@[simp] theorem State.raise_alpha (s : State) (k : ErrKind) (x : Word) : (State.raise k x s).alpha = s.alpha := rfl
@[simp] theorem State.raise_script (s : State) (k : ErrKind) (x : Word) : (State.raise k x s).script = s.script := rfl
@[simp] theorem State.raise_reply (s : State) (k : ErrKind) (x : Word) : (State.raise k x s).reply = s.reply := rfl

/-! A `raise` inside an encode (R249). -/

@[simp] theorem State.raiseEncode_params (s : State) (k : ErrKind) (x : Word) : (State.raiseEncode k x s).params = s.params := rfl
@[simp] theorem State.raiseEncode_busy (s : State) (k : ErrKind) (x : Word) : (State.raiseEncode k x s).busy = false := rfl
@[simp] theorem State.raiseEncode_done (s : State) (k : ErrKind) (x : Word) : (State.raiseEncode k x s).done = true := rfl
@[simp] theorem State.raiseEncode_err (s : State) (k : ErrKind) (x : Word) : (State.raiseEncode k x s).err = some k := rfl
@[simp] theorem State.raiseEncode_errinfo (s : State) (k : ErrKind) (x : Word) : (State.raiseEncode k x s).errinfo = x := rfl
@[simp] theorem State.raiseEncode_wsize (s : State) (k : ErrKind) (x : Word) : (State.raiseEncode k x s).wsize = s.wsize := rfl
@[simp] theorem State.raiseEncode_lsize (s : State) (k : ErrKind) (x : Word) : (State.raiseEncode k x s).lsize = s.lsize := rfl
@[simp] theorem State.raiseEncode_alphaLen (s : State) (k : ErrKind) (x : Word) : (State.raiseEncode k x s).alphaLen = s.alphaLen := rfl
@[simp] theorem State.raiseEncode_symLen (s : State) (k : ErrKind) (x : Word) : (State.raiseEncode k x s).symLen = s.symLen := rfl
@[simp] theorem State.raiseEncode_tokLen (s : State) (k : ErrKind) (x : Word) : (State.raiseEncode k x s).tokLen = 0#32 := rfl
@[simp] theorem State.raiseEncode_qpos (s : State) (k : ErrKind) (x : Word) : (State.raiseEncode k x s).qpos = s.qpos := rfl
@[simp] theorem State.raiseEncode_qend (s : State) (k : ErrKind) (x : Word) : (State.raiseEncode k x s).qend = s.qend := rfl
@[simp] theorem State.raiseEncode_qmax (s : State) (k : ErrKind) (x : Word) : (State.raiseEncode k x s).qmax = s.qmax := rfl
@[simp] theorem State.raiseEncode_clo (s : State) (k : ErrKind) (x : Word) : (State.raiseEncode k x s).clo = s.clo := rfl
@[simp] theorem State.raiseEncode_chi (s : State) (k : ErrKind) (x : Word) : (State.raiseEncode k x s).chi = s.chi := rfl
@[simp] theorem State.raiseEncode_rlen (s : State) (k : ErrKind) (x : Word) : (State.raiseEncode k x s).rlen = s.rlen := rfl
@[simp] theorem State.raiseEncode_roff (s : State) (k : ErrKind) (x : Word) : (State.raiseEncode k x s).roff = s.roff := rfl
@[simp] theorem State.raiseEncode_dcount (s : State) (k : ErrKind) (x : Word) : (State.raiseEncode k x s).dcount = 0#32 := rfl
@[simp] theorem State.raiseEncode_sym (s : State) (k : ErrKind) (x : Word) : (State.raiseEncode k x s).sym = s.sym := rfl
@[simp] theorem State.raiseEncode_tok (s : State) (k : ErrKind) (x : Word) : (State.raiseEncode k x s).tok = s.tok := rfl
@[simp] theorem State.raiseEncode_alpha (s : State) (k : ErrKind) (x : Word) : (State.raiseEncode k x s).alpha = s.alpha := rfl
@[simp] theorem State.raiseEncode_script (s : State) (k : ErrKind) (x : Word) : (State.raiseEncode k x s).script = s.script := rfl
@[simp] theorem State.raiseEncode_reply (s : State) (k : ErrKind) (x : Word) : (State.raiseEncode k x s).reply = s.reply := rfl

/-! A `raise` inside a decode (R249). -/

@[simp] theorem State.raiseDecode_params (s : State) (k : ErrKind) (x : Word) : (State.raiseDecode k x s).params = s.params := rfl
@[simp] theorem State.raiseDecode_busy (s : State) (k : ErrKind) (x : Word) : (State.raiseDecode k x s).busy = false := rfl
@[simp] theorem State.raiseDecode_done (s : State) (k : ErrKind) (x : Word) : (State.raiseDecode k x s).done = true := rfl
@[simp] theorem State.raiseDecode_err (s : State) (k : ErrKind) (x : Word) : (State.raiseDecode k x s).err = some k := rfl
@[simp] theorem State.raiseDecode_errinfo (s : State) (k : ErrKind) (x : Word) : (State.raiseDecode k x s).errinfo = x := rfl
@[simp] theorem State.raiseDecode_wsize (s : State) (k : ErrKind) (x : Word) : (State.raiseDecode k x s).wsize = s.wsize := rfl
@[simp] theorem State.raiseDecode_lsize (s : State) (k : ErrKind) (x : Word) : (State.raiseDecode k x s).lsize = s.lsize := rfl
@[simp] theorem State.raiseDecode_alphaLen (s : State) (k : ErrKind) (x : Word) : (State.raiseDecode k x s).alphaLen = s.alphaLen := rfl
@[simp] theorem State.raiseDecode_symLen (s : State) (k : ErrKind) (x : Word) : (State.raiseDecode k x s).symLen = 0#32 := rfl
@[simp] theorem State.raiseDecode_tokLen (s : State) (k : ErrKind) (x : Word) : (State.raiseDecode k x s).tokLen = s.tokLen := rfl
@[simp] theorem State.raiseDecode_qpos (s : State) (k : ErrKind) (x : Word) : (State.raiseDecode k x s).qpos = s.qpos := rfl
@[simp] theorem State.raiseDecode_qend (s : State) (k : ErrKind) (x : Word) : (State.raiseDecode k x s).qend = s.qend := rfl
@[simp] theorem State.raiseDecode_qmax (s : State) (k : ErrKind) (x : Word) : (State.raiseDecode k x s).qmax = s.qmax := rfl
@[simp] theorem State.raiseDecode_clo (s : State) (k : ErrKind) (x : Word) : (State.raiseDecode k x s).clo = s.clo := rfl
@[simp] theorem State.raiseDecode_chi (s : State) (k : ErrKind) (x : Word) : (State.raiseDecode k x s).chi = s.chi := rfl
@[simp] theorem State.raiseDecode_rlen (s : State) (k : ErrKind) (x : Word) : (State.raiseDecode k x s).rlen = s.rlen := rfl
@[simp] theorem State.raiseDecode_roff (s : State) (k : ErrKind) (x : Word) : (State.raiseDecode k x s).roff = s.roff := rfl
@[simp] theorem State.raiseDecode_dcount (s : State) (k : ErrKind) (x : Word) : (State.raiseDecode k x s).dcount = 0#32 := rfl
@[simp] theorem State.raiseDecode_sym (s : State) (k : ErrKind) (x : Word) : (State.raiseDecode k x s).sym = s.sym := rfl
@[simp] theorem State.raiseDecode_tok (s : State) (k : ErrKind) (x : Word) : (State.raiseDecode k x s).tok = s.tok := rfl
@[simp] theorem State.raiseDecode_alpha (s : State) (k : ErrKind) (x : Word) : (State.raiseDecode k x s).alpha = s.alpha := rfl
@[simp] theorem State.raiseDecode_script (s : State) (k : ErrKind) (x : Word) : (State.raiseDecode k x s).script = s.script := rfl
@[simp] theorem State.raiseDecode_reply (s : State) (k : ErrKind) (x : Word) : (State.raiseDecode k x s).reply = s.reply := rfl

/-! A `raise` inside a query (R249). -/

@[simp] theorem State.raiseQuery_params (s : State) (k : ErrKind) (x : Word) : (State.raiseQuery k x s).params = s.params := rfl
@[simp] theorem State.raiseQuery_busy (s : State) (k : ErrKind) (x : Word) : (State.raiseQuery k x s).busy = false := rfl
@[simp] theorem State.raiseQuery_done (s : State) (k : ErrKind) (x : Word) : (State.raiseQuery k x s).done = true := rfl
@[simp] theorem State.raiseQuery_err (s : State) (k : ErrKind) (x : Word) : (State.raiseQuery k x s).err = some k := rfl
@[simp] theorem State.raiseQuery_errinfo (s : State) (k : ErrKind) (x : Word) : (State.raiseQuery k x s).errinfo = x := rfl
@[simp] theorem State.raiseQuery_wsize (s : State) (k : ErrKind) (x : Word) : (State.raiseQuery k x s).wsize = s.wsize := rfl
@[simp] theorem State.raiseQuery_lsize (s : State) (k : ErrKind) (x : Word) : (State.raiseQuery k x s).lsize = s.lsize := rfl
@[simp] theorem State.raiseQuery_alphaLen (s : State) (k : ErrKind) (x : Word) : (State.raiseQuery k x s).alphaLen = s.alphaLen := rfl
@[simp] theorem State.raiseQuery_symLen (s : State) (k : ErrKind) (x : Word) : (State.raiseQuery k x s).symLen = s.symLen := rfl
@[simp] theorem State.raiseQuery_tokLen (s : State) (k : ErrKind) (x : Word) : (State.raiseQuery k x s).tokLen = s.tokLen := rfl
@[simp] theorem State.raiseQuery_qpos (s : State) (k : ErrKind) (x : Word) : (State.raiseQuery k x s).qpos = s.qpos := rfl
@[simp] theorem State.raiseQuery_qend (s : State) (k : ErrKind) (x : Word) : (State.raiseQuery k x s).qend = s.qend := rfl
@[simp] theorem State.raiseQuery_qmax (s : State) (k : ErrKind) (x : Word) : (State.raiseQuery k x s).qmax = s.qmax := rfl
@[simp] theorem State.raiseQuery_clo (s : State) (k : ErrKind) (x : Word) : (State.raiseQuery k x s).clo = s.clo := rfl
@[simp] theorem State.raiseQuery_chi (s : State) (k : ErrKind) (x : Word) : (State.raiseQuery k x s).chi = s.chi := rfl
@[simp] theorem State.raiseQuery_rlen (s : State) (k : ErrKind) (x : Word) : (State.raiseQuery k x s).rlen = 0#32 := rfl
@[simp] theorem State.raiseQuery_roff (s : State) (k : ErrKind) (x : Word) : (State.raiseQuery k x s).roff = 0#32 := rfl
@[simp] theorem State.raiseQuery_dcount (s : State) (k : ErrKind) (x : Word) : (State.raiseQuery k x s).dcount = s.dcount := rfl
@[simp] theorem State.raiseQuery_sym (s : State) (k : ErrKind) (x : Word) : (State.raiseQuery k x s).sym = s.sym := rfl
@[simp] theorem State.raiseQuery_tok (s : State) (k : ErrKind) (x : Word) : (State.raiseQuery k x s).tok = s.tok := rfl
@[simp] theorem State.raiseQuery_alpha (s : State) (k : ErrKind) (x : Word) : (State.raiseQuery k x s).alpha = s.alpha := rfl
@[simp] theorem State.raiseQuery_script (s : State) (k : ErrKind) (x : Word) : (State.raiseQuery k x s).script = s.script := rfl
@[simp] theorem State.raiseQuery_reply (s : State) (k : ErrKind) (x : Word) : (State.raiseQuery k x s).reply = s.reply := rfl

/-! The output of a failed encode (R250). -/

@[simp] theorem State.scrambleTok_params (s : State) : s.scrambleTok.params = s.params := rfl
@[simp] theorem State.scrambleTok_busy (s : State) : s.scrambleTok.busy = s.busy := rfl
@[simp] theorem State.scrambleTok_done (s : State) : s.scrambleTok.done = s.done := rfl
@[simp] theorem State.scrambleTok_err (s : State) : s.scrambleTok.err = s.err := rfl
@[simp] theorem State.scrambleTok_errinfo (s : State) : s.scrambleTok.errinfo = s.errinfo := rfl
@[simp] theorem State.scrambleTok_wsize (s : State) : s.scrambleTok.wsize = s.wsize := rfl
@[simp] theorem State.scrambleTok_lsize (s : State) : s.scrambleTok.lsize = s.lsize := rfl
@[simp] theorem State.scrambleTok_alphaLen (s : State) : s.scrambleTok.alphaLen = s.alphaLen := rfl
@[simp] theorem State.scrambleTok_symLen (s : State) : s.scrambleTok.symLen = s.symLen := rfl
@[simp] theorem State.scrambleTok_tokLen (s : State) : s.scrambleTok.tokLen = s.tokLen := rfl
@[simp] theorem State.scrambleTok_qpos (s : State) : s.scrambleTok.qpos = s.qpos := rfl
@[simp] theorem State.scrambleTok_qend (s : State) : s.scrambleTok.qend = s.qend := rfl
@[simp] theorem State.scrambleTok_qmax (s : State) : s.scrambleTok.qmax = s.qmax := rfl
@[simp] theorem State.scrambleTok_clo (s : State) : s.scrambleTok.clo = s.clo := rfl
@[simp] theorem State.scrambleTok_chi (s : State) : s.scrambleTok.chi = s.chi := rfl
@[simp] theorem State.scrambleTok_rlen (s : State) : s.scrambleTok.rlen = s.rlen := rfl
@[simp] theorem State.scrambleTok_roff (s : State) : s.scrambleTok.roff = s.roff := rfl
@[simp] theorem State.scrambleTok_dcount (s : State) : s.scrambleTok.dcount = s.dcount := rfl
@[simp] theorem State.scrambleTok_sym (s : State) : s.scrambleTok.sym = s.sym := rfl
@[simp] theorem State.scrambleTok_tok (s : State) : s.scrambleTok.tok = s.tok.scramble := rfl
@[simp] theorem State.scrambleTok_alpha (s : State) : s.scrambleTok.alpha = s.alpha := rfl
@[simp] theorem State.scrambleTok_script (s : State) : s.scrambleTok.script = s.script := rfl
@[simp] theorem State.scrambleTok_reply (s : State) : s.scrambleTok.reply = s.reply := rfl

/-! The output of a failed decode (R250). -/

@[simp] theorem State.scrambleSym_params (s : State) : s.scrambleSym.params = s.params := rfl
@[simp] theorem State.scrambleSym_busy (s : State) : s.scrambleSym.busy = s.busy := rfl
@[simp] theorem State.scrambleSym_done (s : State) : s.scrambleSym.done = s.done := rfl
@[simp] theorem State.scrambleSym_err (s : State) : s.scrambleSym.err = s.err := rfl
@[simp] theorem State.scrambleSym_errinfo (s : State) : s.scrambleSym.errinfo = s.errinfo := rfl
@[simp] theorem State.scrambleSym_wsize (s : State) : s.scrambleSym.wsize = s.wsize := rfl
@[simp] theorem State.scrambleSym_lsize (s : State) : s.scrambleSym.lsize = s.lsize := rfl
@[simp] theorem State.scrambleSym_alphaLen (s : State) : s.scrambleSym.alphaLen = s.alphaLen := rfl
@[simp] theorem State.scrambleSym_symLen (s : State) : s.scrambleSym.symLen = s.symLen := rfl
@[simp] theorem State.scrambleSym_tokLen (s : State) : s.scrambleSym.tokLen = s.tokLen := rfl
@[simp] theorem State.scrambleSym_qpos (s : State) : s.scrambleSym.qpos = s.qpos := rfl
@[simp] theorem State.scrambleSym_qend (s : State) : s.scrambleSym.qend = s.qend := rfl
@[simp] theorem State.scrambleSym_qmax (s : State) : s.scrambleSym.qmax = s.qmax := rfl
@[simp] theorem State.scrambleSym_clo (s : State) : s.scrambleSym.clo = s.clo := rfl
@[simp] theorem State.scrambleSym_chi (s : State) : s.scrambleSym.chi = s.chi := rfl
@[simp] theorem State.scrambleSym_rlen (s : State) : s.scrambleSym.rlen = s.rlen := rfl
@[simp] theorem State.scrambleSym_roff (s : State) : s.scrambleSym.roff = s.roff := rfl
@[simp] theorem State.scrambleSym_dcount (s : State) : s.scrambleSym.dcount = s.dcount := rfl
@[simp] theorem State.scrambleSym_sym (s : State) : s.scrambleSym.sym = s.sym.scramble := rfl
@[simp] theorem State.scrambleSym_tok (s : State) : s.scrambleSym.tok = s.tok := rfl
@[simp] theorem State.scrambleSym_alpha (s : State) : s.scrambleSym.alpha = s.alpha := rfl
@[simp] theorem State.scrambleSym_script (s : State) : s.scrambleSym.script = s.script := rfl
@[simp] theorem State.scrambleSym_reply (s : State) : s.scrambleSym.reply = s.reply := rfl

/-! The end of a query (R32, R226). -/

@[simp] theorem State.finishQuery_params (s : State) (n o : Nat) : (State.finishQuery n o s).params = s.params := rfl
@[simp] theorem State.finishQuery_busy (s : State) (n o : Nat) : (State.finishQuery n o s).busy = false := rfl
@[simp] theorem State.finishQuery_done (s : State) (n o : Nat) : (State.finishQuery n o s).done = true := rfl
@[simp] theorem State.finishQuery_err (s : State) (n o : Nat) : (State.finishQuery n o s).err = none := rfl
@[simp] theorem State.finishQuery_errinfo (s : State) (n o : Nat) : (State.finishQuery n o s).errinfo = 0#32 := rfl
@[simp] theorem State.finishQuery_wsize (s : State) (n o : Nat) : (State.finishQuery n o s).wsize = s.wsize := rfl
@[simp] theorem State.finishQuery_lsize (s : State) (n o : Nat) : (State.finishQuery n o s).lsize = s.lsize := rfl
@[simp] theorem State.finishQuery_alphaLen (s : State) (n o : Nat) : (State.finishQuery n o s).alphaLen = s.alphaLen := rfl
@[simp] theorem State.finishQuery_symLen (s : State) (n o : Nat) : (State.finishQuery n o s).symLen = s.symLen := rfl
@[simp] theorem State.finishQuery_tokLen (s : State) (n o : Nat) : (State.finishQuery n o s).tokLen = s.tokLen := rfl
@[simp] theorem State.finishQuery_qpos (s : State) (n o : Nat) : (State.finishQuery n o s).qpos = s.qpos := rfl
@[simp] theorem State.finishQuery_qend (s : State) (n o : Nat) : (State.finishQuery n o s).qend = s.qend := rfl
@[simp] theorem State.finishQuery_qmax (s : State) (n o : Nat) : (State.finishQuery n o s).qmax = s.qmax := rfl
@[simp] theorem State.finishQuery_clo (s : State) (n o : Nat) : (State.finishQuery n o s).clo = s.clo := rfl
@[simp] theorem State.finishQuery_chi (s : State) (n o : Nat) : (State.finishQuery n o s).chi = s.chi := rfl
@[simp] theorem State.finishQuery_rlen (s : State) (n o : Nat) : (State.finishQuery n o s).rlen = Word.ofNum n := rfl
@[simp] theorem State.finishQuery_roff (s : State) (n o : Nat) : (State.finishQuery n o s).roff = Word.ofNum o := rfl
@[simp] theorem State.finishQuery_dcount (s : State) (n o : Nat) : (State.finishQuery n o s).dcount = s.dcount := rfl
@[simp] theorem State.finishQuery_sym (s : State) (n o : Nat) : (State.finishQuery n o s).sym = s.sym := rfl
@[simp] theorem State.finishQuery_tok (s : State) (n o : Nat) : (State.finishQuery n o s).tok = s.tok := rfl
@[simp] theorem State.finishQuery_alpha (s : State) (n o : Nat) : (State.finishQuery n o s).alpha = s.alpha := rfl
@[simp] theorem State.finishQuery_script (s : State) (n o : Nat) : (State.finishQuery n o s).script = s.script := rfl
@[simp] theorem State.finishQuery_reply (s : State) (n o : Nat) : (State.finishQuery n o s).reply = s.reply := rfl

/-! Taking an operation off the script. -/

@[simp] theorem State.take_params (s : State) (r : List HostOp) : (s.take r).params = s.params := rfl
@[simp] theorem State.take_busy (s : State) (r : List HostOp) : (s.take r).busy = s.busy := rfl
@[simp] theorem State.take_done (s : State) (r : List HostOp) : (s.take r).done = s.done := rfl
@[simp] theorem State.take_err (s : State) (r : List HostOp) : (s.take r).err = s.err := rfl
@[simp] theorem State.take_errinfo (s : State) (r : List HostOp) : (s.take r).errinfo = s.errinfo := rfl
@[simp] theorem State.take_wsize (s : State) (r : List HostOp) : (s.take r).wsize = s.wsize := rfl
@[simp] theorem State.take_lsize (s : State) (r : List HostOp) : (s.take r).lsize = s.lsize := rfl
@[simp] theorem State.take_alphaLen (s : State) (r : List HostOp) : (s.take r).alphaLen = s.alphaLen := rfl
@[simp] theorem State.take_symLen (s : State) (r : List HostOp) : (s.take r).symLen = s.symLen := rfl
@[simp] theorem State.take_tokLen (s : State) (r : List HostOp) : (s.take r).tokLen = s.tokLen := rfl
@[simp] theorem State.take_qpos (s : State) (r : List HostOp) : (s.take r).qpos = s.qpos := rfl
@[simp] theorem State.take_qend (s : State) (r : List HostOp) : (s.take r).qend = s.qend := rfl
@[simp] theorem State.take_qmax (s : State) (r : List HostOp) : (s.take r).qmax = s.qmax := rfl
@[simp] theorem State.take_clo (s : State) (r : List HostOp) : (s.take r).clo = s.clo := rfl
@[simp] theorem State.take_chi (s : State) (r : List HostOp) : (s.take r).chi = s.chi := rfl
@[simp] theorem State.take_rlen (s : State) (r : List HostOp) : (s.take r).rlen = s.rlen := rfl
@[simp] theorem State.take_roff (s : State) (r : List HostOp) : (s.take r).roff = s.roff := rfl
@[simp] theorem State.take_dcount (s : State) (r : List HostOp) : (s.take r).dcount = s.dcount := rfl
@[simp] theorem State.take_sym (s : State) (r : List HostOp) : (s.take r).sym = s.sym := rfl
@[simp] theorem State.take_tok (s : State) (r : List HostOp) : (s.take r).tok = s.tok := rfl
@[simp] theorem State.take_alpha (s : State) (r : List HostOp) : (s.take r).alpha = s.alpha := rfl
@[simp] theorem State.take_script (s : State) (r : List HostOp) : (s.take r).script = r := rfl
@[simp] theorem State.take_reply (s : State) (r : List HostOp) : (s.take r).reply = none := rfl

/-! The reset input (R271, R272). -/

@[simp] theorem State.resetInput_params (s : State) : s.resetInput.params = s.params := rfl
@[simp] theorem State.resetInput_busy (s : State) : s.resetInput.busy = false := rfl
@[simp] theorem State.resetInput_done (s : State) : s.resetInput.done = false := rfl
@[simp] theorem State.resetInput_err (s : State) : s.resetInput.err = none := rfl
@[simp] theorem State.resetInput_errinfo (s : State) : s.resetInput.errinfo = 0#32 := rfl
@[simp] theorem State.resetInput_wsize (s : State) : s.resetInput.wsize = 0#32 := rfl
@[simp] theorem State.resetInput_lsize (s : State) : s.resetInput.lsize = 0#32 := rfl
@[simp] theorem State.resetInput_alphaLen (s : State) : s.resetInput.alphaLen = 0#32 := rfl
@[simp] theorem State.resetInput_symLen (s : State) : s.resetInput.symLen = 0#32 := rfl
@[simp] theorem State.resetInput_tokLen (s : State) : s.resetInput.tokLen = 0#32 := rfl
@[simp] theorem State.resetInput_qpos (s : State) : s.resetInput.qpos = 0#32 := rfl
@[simp] theorem State.resetInput_qend (s : State) : s.resetInput.qend = 0#32 := rfl
@[simp] theorem State.resetInput_qmax (s : State) : s.resetInput.qmax = 0#32 := rfl
@[simp] theorem State.resetInput_clo (s : State) : s.resetInput.clo = 0#32 := rfl
@[simp] theorem State.resetInput_chi (s : State) : s.resetInput.chi = 0#32 := rfl
@[simp] theorem State.resetInput_rlen (s : State) : s.resetInput.rlen = 0#32 := rfl
@[simp] theorem State.resetInput_roff (s : State) : s.resetInput.roff = 0#32 := rfl
@[simp] theorem State.resetInput_dcount (s : State) : s.resetInput.dcount = 0#32 := rfl
@[simp] theorem State.resetInput_sym (s : State) : s.resetInput.sym = s.sym.scramble := rfl
@[simp] theorem State.resetInput_tok (s : State) : s.resetInput.tok = s.tok.scramble := rfl
@[simp] theorem State.resetInput_alpha (s : State) : s.resetInput.alpha = s.alpha.scramble := rfl
@[simp] theorem State.resetInput_script (s : State) : s.resetInput.script = s.script := rfl
@[simp] theorem State.resetInput_reply (s : State) : s.resetInput.reply = s.reply := rfl

end Sys2Proof.Machine
end

