-- ==== Sys2Proof/Laws/Ops.lean ====
section
/-! SUPPORT. One lemma per shared operation that says everything it can do: `emit` and the insertion (R104, R246),
the end of an encode, a decode and a query (R226, R249, R251), the memory reads after them, and the step. -/

namespace Sys2Proof.Machine

/-! ### Capacity checks -/

/-- `emit` (R104) appends the token, or raises on a full `TOK`. -/
theorem emit_cases {cap pos : Nat} {tok : Token} {out : List Token} {r : Except Raise (List Token)}
    (h : emit cap pos tok out = r) :
    (out.length = cap ∧ r = .error { kind := .capacityExceeded, info := Word.ofNum pos }) ∨
    (out.length ≠ cap ∧ r = .ok (out ++ [tok])) := by
  subst h
  by_cases hc : out.length = cap
  · exact .inl ⟨hc, by simp [emit, hc]⟩
  · exact .inr ⟨hc, by simp [emit, hc]⟩

/-- The insertion (R38, R246 (d)) appends the phrase, or raises on a full dictionary. -/
theorem insertPhrase_cases {cap info : Nat} {p : Phrase} {dict : List Phrase} {r : Except Raise (List Phrase)}
    (h : insertPhrase cap info p dict = r) :
    (dict.length = cap ∧ r = .error { kind := .capacityExceeded, info := Word.ofNum info }) ∨
    (dict.length ≠ cap ∧ r = .ok (dict ++ [p])) := by
  subst h
  by_cases hc : dict.length = cap
  · exact .inl ⟨hc, by simp [insertPhrase, hc]⟩
  · exact .inr ⟨hc, by simp [insertPhrase, hc]⟩

/-! ### The ends of the commands -/

/-- The end of a successful encode. -/
theorem finishEncode_ok (toks : List Token) (d : Nat) (s : State) :
    State.finishEncode (.ok (toks, d)) s =
      { s with tok := s.tok.writeFrom 0 toks, tokLen := Word.ofNum toks.length, dcount := Word.ofNum d
               err := none, errinfo := 0#32, busy := false, done := true } := rfl

/-- The end of an encode that raised at run time. -/
theorem finishEncode_error (e : Raise) (s : State) :
    State.finishEncode (.error e) s =
      { s with tok := s.tok.scramble, tokLen := 0#32, dcount := 0#32
               err := some e.kind, errinfo := e.info, busy := false, done := true } := rfl

/-- The end of a successful decode. -/
theorem finishDecode_ok (syms : List Sym) (d : Nat) (s : State) :
    State.finishDecode (.ok (syms, d)) s =
      { s with sym := s.sym.writeFrom 0 syms, symLen := Word.ofNum syms.length, dcount := Word.ofNum d
               err := none, errinfo := 0#32, busy := false, done := true } := rfl

/-- The end of a decode that raised at run time. -/
theorem finishDecode_error (e : Raise) (s : State) :
    State.finishDecode (.error e) s =
      { s with sym := s.sym.scramble, symLen := 0#32, dcount := 0#32
               err := some e.kind, errinfo := e.info, busy := false, done := true } := rfl

/-- `TOK` after a successful encode (R251): the emitted tokens, then what was there. -/
theorem tokAt_finishEncode_ok (toks : List Token) (d : Nat) (s : State) (h : toks.length ≤ s.params.tokCap) (i : Nat) :
    (State.finishEncode (.ok (toks, d)) s).tokAt i = if h : i < toks.length then toks[i] else s.tokAt i := by
  rw [finishEncode_ok]
  by_cases h1 : i < toks.length
  · have h2 : i < s.params.tokCap := by omega
    simp only [State.tokAt, Memory.read_writeFrom]
    rw [if_pos h2, dif_pos (by omega), dif_pos h1]
    rfl
  · simp only [State.tokAt, Memory.read_writeFrom]
    rw [dif_neg (by omega), dif_neg h1]
    rfl

/-- `SYM` after a successful decode (R251): the produced symbols, then what was there. -/
theorem symAt_finishDecode_ok (syms : List Sym) (d : Nat) (s : State) (h : syms.length ≤ s.params.symCap) (i : Nat) :
    (State.finishDecode (.ok (syms, d)) s).symAt i = if h : i < syms.length then syms[i] else s.symAt i := by
  rw [finishDecode_ok]
  by_cases h1 : i < syms.length
  · have h2 : i < s.params.symCap := by omega
    simp only [State.symAt, Memory.read_writeFrom]
    rw [if_pos h2, dif_pos (by omega), dif_pos h1]
    rfl
  · simp only [State.symAt, Memory.read_writeFrom]
    rw [dif_neg (by omega), dif_neg h1]
    rfl

/-! ### Views -/

@[simp] theorem length_symView (s : State) (lo hi : Nat) : (s.symView lo hi).length = hi - lo := by
  simp [State.symView]

@[simp] theorem length_input (s : State) : s.input.length = s.symLen.toNat := by simp [State.input]

@[simp] theorem length_stream (s : State) : s.stream.length = s.tokLen.toNat := by simp [State.stream]

@[simp] theorem length_alphabet (s : State) : s.alphabet.length = s.alphaLen.toNat := by simp [State.alphabet]

@[simp] theorem getElem_input (s : State) (i : Nat) (h : i < s.input.length) : s.input[i] = s.symAt i := by
  simp [State.input, State.symView]

@[simp] theorem getElem_stream (s : State) (i : Nat) (h : i < s.stream.length) : s.stream[i] = s.tokAt i := by
  simp [State.stream]

@[simp] theorem getElem_alphabet (s : State) (i : Nat) (h : i < s.alphabet.length) :
    s.alphabet[i] = s.alphaAt i := by
  simp [State.alphabet]

@[simp] theorem mem_input {s : State} {x : Sym} : x ∈ s.input ↔ ∃ i, i < s.symLen.toNat ∧ s.symAt i = x := by
  simp [State.input, State.symView]

@[simp] theorem mem_alphabet {s : State} {x : Sym} :
    x ∈ s.alphabet ↔ ∃ i, i < s.alphaLen.toNat ∧ s.alphaAt i = x := by
  simp [State.alphabet]

@[simp] theorem length_subseq {α : Type} (xs : List α) (i j : Nat) :
    (subseq xs i j).length = min (j - i) (xs.length - i) := by
  simp [subseq]

@[simp] theorem length_lastn {α : Type} (xs : List α) (n : Nat) : (lastn xs n).length = min n xs.length := by
  simp only [lastn, List.length_drop]
  omega

/-- The alphabet test (R191) as a property of the entries. -/
theorem hasRepeat_eq_false {xs : List Sym} : hasRepeat xs = false ↔ xs.Nodup := by
  induction xs with
  | nil => simp [hasRepeat]
  | cons x xs ih => simp [hasRepeat, ih]

/-- The scan of R192: no unknown symbol, or the first one. -/
theorem firstUnknown_eq_none {alpha xs : List Sym} : ∀ {i : Nat}, firstUnknown alpha xs i = none ↔ ∀ x ∈ xs, x ∈ alpha := by
  induction xs with
  | nil => simp [firstUnknown]
  | cons x xs ih =>
    intro i
    by_cases h : x ∈ alpha
    · simp [firstUnknown, h, ih]
    · simp [firstUnknown, h]

theorem firstUnknown_eq_some {alpha xs : List Sym} : ∀ {i n : Nat}, firstUnknown alpha xs i = some n →
    ∃ j, n = i + j ∧ (∃ x, xs[j]? = some x ∧ x ∉ alpha) ∧ ∀ j', j' < j → ∃ y, xs[j']? = some y ∧ y ∈ alpha := by
  induction xs with
  | nil => simp [firstUnknown]
  | cons x xs ih =>
    intro i n h
    by_cases hx : x ∈ alpha
    · obtain ⟨j, hj, hn, hb⟩ := ih (by simpa [firstUnknown, hx] using h)
      refine ⟨j + 1, by omega, by simpa using hn, fun j' hj' => ?_⟩
      cases j' with
      | zero => exact ⟨x, rfl, hx⟩
      | succ j' => simpa using hb j' (by omega)
    · refine ⟨0, by simpa [firstUnknown, hx] using h.symm, ⟨x, rfl, hx⟩, fun j' hj' => by omega⟩

/-! ### The step -/

/-- What a step can do: nothing pending, a refused access, or the operation at the head of the script. -/
theorem step_cases {s : State} {o : Host.Outcome State Fault Refusal} (h : step s = o) :
    (s.script = [] ∧ o = .next s) ∨
    (∃ op rest, s.script = op :: rest ∧ s.busy = true ∧ op.allowedWhileBusy = false ∧ o = .refused .busyAccess) ∨
    (∃ op rest, s.script = op :: rest ∧ (s.busy = false ∨ op.allowedWhileBusy = true) ∧
      op.perform (s.take rest) = o) := by
  subst h
  cases hs : s.script with
  | nil => exact .inl ⟨rfl, by simp [step, runPending, hs]⟩
  | cons op rest =>
    by_cases hb : s.busy = true ∧ op.allowedWhileBusy = false
    · exact .inr (.inl ⟨op, rest, rfl, hb.1, hb.2, by simp [step, runPending, hs, hostStep, hb]⟩)
    · have ha : s.busy = false ∨ op.allowedWhileBusy = true := by
        cases h1 : s.busy
        · exact .inl rfl
        · cases h2 : op.allowedWhileBusy
          · exact absurd ⟨h1, h2⟩ hb
          · exact .inr rfl
      refine .inr (.inr ⟨op, rest, rfl, ha, ?_⟩)
      rcases ha with ha | ha <;> simp [step, runPending, hs, hostStep, ha]

/-- What issuing a word does (R223). -/
theorem issue_cases (w : Word) (s : State) :
    (∃ i, decode w = .ok i ∧ State.issue w s = exec i s.start) ∨
    (decode w = .error (.illegalCommand w) ∧
      State.issue w s = .next (State.raise .illegalCommand w s.start)) := by
  by_cases h : cmdZero w = 0#29
  · exact .inl ⟨commandOf (cmdDir w) (cmdAlg w), by simp [decode, h], by simp [State.issue, decode, h]⟩
  · exact .inr ⟨by simp [decode, h], by simp [State.issue, decode, h]⟩

end Sys2Proof.Machine
end

