-- ==== Sys2Proof/Laws/Engines.lean ====
section
/-! SUPPORT. Inversion lemmas: everything one step of an engine's loop can do, and everything one command can do. -/

namespace Sys2Proof.Machine

open Sys2Proof.Config

/-! ### The start of `LZW.ENC` (R193, R194) -/

@[simp] theorem lzwEncInit_dict (alpha : List Sym) (c : Sym) :
    (lzwEncInit alpha c).dict = alpha.map (fun x => [x]) := rfl
@[simp] theorem lzwEncInit_cur (alpha : List Sym) (c : Sym) : (lzwEncInit alpha c).cur = [c] := rfl
@[simp] theorem lzwEncInit_out (alpha : List Sym) (c : Sym) : (lzwEncInit alpha c).out = [] := rfl

/-! ### The steps of the encoders -/

/-- A step of `LZ77.ENC`: `TOK` is full, or one token is emitted and the cursor, the views move. -/
theorem lz77EncStep_cases {p : Params} {w l : Nat} {input : List Sym} {k : Lz77EncWork}
    {o : Except Raise Lz77EncWork} (h : lz77EncStep p w l input k = o) :
    (k.out.length = p.tokCap ∧ o = .error { kind := .capacityExceeded, info := Word.ofNum k.pos }) ∨
    (k.out.length ≠ p.tokCap ∧ ∃ m e, m = lpm k.la (min l k.la.length) k.win ∧
      e = lz77Emission input k.pos m.1 m.2 ∧
      o = .ok { pos := k.pos + e.2, win := lastn (k.win ++ subseq input k.pos (k.pos + e.2)) w
                la := slice input (k.pos + e.2) l, out := k.out ++ [e.1] }) := by
  subst h
  by_cases hc : k.out.length = p.tokCap
  · exact .inl ⟨hc, by simp [lz77EncStep, emit, hc]⟩
  · exact .inr ⟨hc, _, _, rfl, rfl, by simp [lz77EncStep, emit, hc]⟩

/-- A step of `LZ78.ENC`: `TOK` is full, or the dictionary is, or one token and one entry are added. -/
theorem lz78EncStep_cases {p : Params} {input : List Sym} {k : Lz78EncWork} {o : Except Raise Lz78EncWork}
    (h : lz78EncStep p input k = o) :
    ((k.out.length = p.tokCap ∨ k.dict.length = p.dictCap) ∧
      o = .error { kind := .capacityExceeded, info := Word.ofNum k.pos }) ∨
    (k.out.length ≠ p.tokCap ∧ k.dict.length ≠ p.dictCap ∧ ∃ m adv, m = longestEntry k.dict (input.drop k.pos) ∧
      adv = m.2 + (optSym input[k.pos + m.2]?).length ∧
      o = .ok { pos := k.pos + adv, dict := k.dict ++ [subseq input k.pos (k.pos + adv)]
                out := k.out ++ [lz78Token m.1 input[k.pos + m.2]?] }) := by
  subst h
  by_cases hc : k.out.length = p.tokCap
  · exact .inl ⟨.inl hc, by simp [lz78EncStep, emit, hc]⟩
  · by_cases hd : k.dict.length = p.dictCap
    · exact .inl ⟨.inr hd, by simp [lz78EncStep, emit, insertPhrase, hc, hd]⟩
    · exact .inr ⟨hc, hd, _, _, rfl, rfl, by simp [lz78EncStep, emit, insertPhrase, hc, hd]⟩

/-- A step of `LZW.ENC`: the accumulator grows, or `TOK` or the dictionary is full, or one token and one entry are
added and the accumulator starts again. -/
theorem lzwEncStep_cases {p : Params} {pos : Nat} {c : Sym} {k : LzwEncWork} {o : Except Raise LzwEncWork}
    (h : lzwEncStep p pos c k = o) :
    (k.cur ++ [c] ∈ k.dict ∧ o = .ok { dict := k.dict, cur := k.cur ++ [c], out := k.out }) ∨
    (k.cur ++ [c] ∉ k.dict ∧ (k.out.length = p.tokCap ∨ k.dict.length = p.dictCap) ∧
      o = .error { kind := .capacityExceeded, info := Word.ofNum pos }) ∨
    (k.cur ++ [c] ∉ k.dict ∧ k.out.length ≠ p.tokCap ∧ k.dict.length ≠ p.dictCap ∧
      o = .ok { dict := k.dict ++ [k.cur ++ [c]], cur := [c]
                out := k.out ++ [lzwToken (codeOf k.dict k.cur)] }) := by
  subst h
  by_cases hm : k.cur ++ [c] ∈ k.dict
  · exact .inl ⟨hm, by simp [lzwEncStep, hm]⟩
  · by_cases hc : k.out.length = p.tokCap
    · exact .inr (.inl ⟨hm, .inl hc, by simp [lzwEncStep, emit, hm, hc]⟩)
    · by_cases hd : k.dict.length = p.dictCap
      · exact .inr (.inl ⟨hm, .inr hd, by simp [lzwEncStep, emit, insertPhrase, hm, hc, hd]⟩)
      · exact .inr (.inr ⟨hm, hc, hd, by simp [lzwEncStep, emit, insertPhrase, hm, hc, hd]⟩)

/-! ### The steps of the decoders -/

/-- A token of `LZ77.DEC`: corrupt, without room, or copied. -/
theorem lz77DecStep_cases {p : Params} {t : Nat} {r : Token} {out : List Sym} {o : Except Raise (List Sym)}
    (h : lz77DecStep p t r out = o) :
    ((r.tag ≠ tagLz77 ∨ out.length < r.a.toNat ∨ r.a.toNat < r.b.toNat ∨ (r.b.toNat = 0 ∧ r.symbol = none)) ∧
      o = .error { kind := .corruptToken, info := Word.ofNum t }) ∨
    (r.tag = tagLz77 ∧ r.a.toNat ≤ out.length ∧ r.b.toNat ≤ r.a.toNat ∧ ¬ (r.b.toNat = 0 ∧ r.symbol = none) ∧
      ((p.symCap - out.length < r.b.toNat + (optSym r.symbol).length ∧
          o = .error { kind := .capacityExceeded, info := Word.ofNum t }) ∨
       (r.b.toNat + (optSym r.symbol).length ≤ p.symCap - out.length ∧
          o = .ok ((out ++ subseq out (out.length - r.a.toNat) (out.length - r.a.toNat + r.b.toNat)) ++
            optSym r.symbol)))) := by
  subst h
  simp only [lz77DecStep, corruptToken, outputFull]
  split
  · exact .inl ⟨.inl ‹_›, rfl⟩
  split
  · exact .inl ⟨.inr (.inl ‹_›), rfl⟩
  split
  · exact .inl ⟨.inr (.inr (.inl ‹_›)), rfl⟩
  split
  · exact .inl ⟨.inr (.inr (.inr ‹_›)), rfl⟩
  next h1 h2 h3 h4 =>
    refine .inr ⟨not_not.mp h1, by omega, by omega, h4, ?_⟩
    split
    · exact .inl ⟨‹_›, rfl⟩
    · exact .inr ⟨by omega, rfl⟩

/-- A token of `LZ78.DEC`: corrupt, without room for its symbols or its entry, or appended and entered. -/
theorem lz78DecStep_cases {p : Params} {t : Nat} {r : Token} {w : Lz78DecWork} {o : Except Raise Lz78DecWork}
    (h : lz78DecStep p t r w = o) :
    ((r.tag ≠ tagLz78 ∨ w.dict.length < r.a.toNat ∨ (r.a.toNat = 0 ∧ r.symbol = none)) ∧
      o = .error { kind := .corruptToken, info := Word.ofNum t }) ∨
    (r.tag = tagLz78 ∧ r.a.toNat ≤ w.dict.length ∧ ¬ (r.a.toNat = 0 ∧ r.symbol = none) ∧
      ∃ new, new = lz78Phrase w.dict r.a.toNat ++ optSym r.symbol ∧
      (((p.symCap - w.out.length < new.length ∨ w.dict.length = p.dictCap) ∧
          o = .error { kind := .capacityExceeded, info := Word.ofNum t }) ∨
       (new.length ≤ p.symCap - w.out.length ∧ w.dict.length ≠ p.dictCap ∧
          o = .ok { dict := w.dict ++ [new], out := w.out ++ new }))) := by
  subst h
  simp only [lz78DecStep, corruptToken, outputFull]
  split
  · exact .inl ⟨.inl ‹_›, rfl⟩
  split
  · exact .inl ⟨.inr (.inl ‹_›), rfl⟩
  split
  · exact .inl ⟨.inr (.inr ‹_›), rfl⟩
  next h1 h2 h3 =>
    refine .inr ⟨not_not.mp h1, by omega, h3, _, rfl, ?_⟩
    split
    · exact .inl ⟨.inl ‹_›, rfl⟩
    · next h4 =>
      by_cases hd : w.dict.length = p.dictCap
      · exact .inl ⟨.inr hd, by simp [insertPhrase, hd]⟩
      · exact .inr ⟨by omega, hd, by simp [insertPhrase, hd]⟩

/-- A token of `LZW.DEC`: corrupt, without room for its symbols or its entry, or appended; the entry is made when
there is a previous phrase. -/
theorem lzwDecStep_cases {p : Params} {t : Nat} {r : Token} {w : LzwDecWork} {o : Except Raise LzwDecWork}
    (h : lzwDecStep p t r w = o) :
    ((r.tag ≠ tagLzw ∨ lzwResolve w.dict w.prev r.a.toNat = none) ∧
      o = .error { kind := .corruptToken, info := Word.ofNum t }) ∨
    (r.tag = tagLzw ∧ ∃ ph, lzwResolve w.dict w.prev r.a.toNat = some ph ∧
      (((p.symCap - w.out.length < ph.length ∨ (w.prev ≠ none ∧ w.dict.length = p.dictCap)) ∧
          o = .error { kind := .capacityExceeded, info := Word.ofNum t }) ∨
       (ph.length ≤ p.symCap - w.out.length ∧ w.prev = none ∧
          o = .ok { dict := w.dict, prev := some ph, out := w.out ++ ph }) ∨
       (ph.length ≤ p.symCap - w.out.length ∧ w.dict.length ≠ p.dictCap ∧ ∃ q, w.prev = some q ∧
          o = .ok { dict := w.dict ++ [q ++ firstSym ph], prev := some ph, out := w.out ++ ph }))) := by
  subst h
  simp only [lzwDecStep, corruptToken, outputFull]
  split
  · exact .inl ⟨.inl ‹_›, rfl⟩
  next h1 =>
    cases hr : lzwResolve w.dict w.prev r.a.toNat with
    | none => exact .inl ⟨.inr rfl, rfl⟩
    | some ph =>
      refine .inr ⟨not_not.mp h1, ph, rfl, ?_⟩
      dsimp only
      split
      · exact .inl ⟨.inl ‹_›, rfl⟩
      · next h2 =>
        cases hp : w.prev with
        | none => exact .inr (.inl ⟨by omega, rfl, by simp [lzwDecInsert, hp]⟩)
        | some q =>
          by_cases hd : w.dict.length = p.dictCap
          · exact .inl ⟨.inr ⟨by simp, hd⟩, by simp [lzwDecInsert, insertPhrase, hp, hd]⟩
          · exact .inr (.inr ⟨by omega, hd, q, rfl, by simp [lzwDecInsert, insertPhrase, hp, hd]⟩)

/-! ### The commands -/

/-- `LZ77.ENC`: an input too long, invalid sizes, or the result of the loop. -/
theorem execLz77Enc_cases {s : State} {o : Host.Outcome State Fault Refusal} (h : execLz77Enc s = o) :
    (s.params.symCap < s.symLen.toNat ∧ o = .next (State.raiseEncode .capacityExceeded 0#32 s)) ∨
    (s.symLen.toNat ≤ s.params.symCap ∧ (s.wsize.toInt ≤ 0 ∨ s.lsize.toInt ≤ 0) ∧
      o = .next (State.raiseEncode .invalidConfiguration 0#32 s)) ∨
    (s.symLen.toNat ≤ s.params.symCap ∧ 0 < s.wsize.toInt ∧ 0 < s.lsize.toInt ∧
      o = .next (State.finishEncode (lz77Encode s.params s.wsize.toNat s.lsize.toNat s.input) s)) := by
  subst h
  by_cases hc : s.params.symCap < s.symLen.toNat
  · exact .inl ⟨hc, by simp [execLz77Enc, State.symLenTooLong, hc]⟩
  by_cases hv : s.sizesValid = true
  · have h2 := hv
    simp only [State.sizesValid, isPositive, Bool.and_eq_true, decide_eq_true_eq] at h2
    exact .inr (.inr ⟨by omega, h2.1, h2.2, by simp [execLz77Enc, State.symLenTooLong, hc, hv]⟩)
  · refine .inr (.inl ⟨by omega, ?_, by simp [execLz77Enc, State.symLenTooLong, hc, hv]⟩)
    simp only [State.sizesValid, isPositive, Bool.and_eq_true, decide_eq_true_eq] at hv
    omega

/-- `LZ77.DEC`: a stream too long, invalid sizes, or the result of the loop. -/
theorem execLz77Dec_cases {s : State} {o : Host.Outcome State Fault Refusal} (h : execLz77Dec s = o) :
    (s.params.tokCap < s.tokLen.toNat ∧ o = .next (State.raiseDecode .capacityExceeded 0#32 s)) ∨
    (s.tokLen.toNat ≤ s.params.tokCap ∧ (s.wsize.toInt ≤ 0 ∨ s.lsize.toInt ≤ 0) ∧
      o = .next (State.raiseDecode .invalidConfiguration 0#32 s)) ∨
    (s.tokLen.toNat ≤ s.params.tokCap ∧ 0 < s.wsize.toInt ∧ 0 < s.lsize.toInt ∧
      o = .next (State.finishDecode (lz77Decode s.params s.stream) s)) := by
  subst h
  by_cases hc : s.params.tokCap < s.tokLen.toNat
  · exact .inl ⟨hc, by simp [execLz77Dec, State.tokLenTooLong, hc]⟩
  by_cases hv : s.sizesValid = true
  · have h2 := hv
    simp only [State.sizesValid, isPositive, Bool.and_eq_true, decide_eq_true_eq] at h2
    exact .inr (.inr ⟨by omega, h2.1, h2.2, by simp [execLz77Dec, State.tokLenTooLong, hc, hv]⟩)
  · refine .inr (.inl ⟨by omega, ?_, by simp [execLz77Dec, State.tokLenTooLong, hc, hv]⟩)
    simp only [State.sizesValid, isPositive, Bool.and_eq_true, decide_eq_true_eq] at hv
    omega

/-- `LZ78.ENC`: an input too long, or the result of the loop. -/
theorem execLz78Enc_cases {s : State} {o : Host.Outcome State Fault Refusal} (h : execLz78Enc s = o) :
    (s.params.symCap < s.symLen.toNat ∧ o = .next (State.raiseEncode .capacityExceeded 0#32 s)) ∨
    (s.symLen.toNat ≤ s.params.symCap ∧ o = .next (State.finishEncode (lz78Encode s.params s.input) s)) := by
  subst h
  by_cases hc : s.params.symCap < s.symLen.toNat
  · exact .inl ⟨hc, by simp [execLz78Enc, State.symLenTooLong, hc]⟩
  · exact .inr ⟨by omega, by simp [execLz78Enc, State.symLenTooLong, hc]⟩

/-- `LZ78.DEC`: a stream too long, or the result of the loop. -/
theorem execLz78Dec_cases {s : State} {o : Host.Outcome State Fault Refusal} (h : execLz78Dec s = o) :
    (s.params.tokCap < s.tokLen.toNat ∧ o = .next (State.raiseDecode .capacityExceeded 0#32 s)) ∨
    (s.tokLen.toNat ≤ s.params.tokCap ∧ o = .next (State.finishDecode (lz78Decode s.params s.stream) s)) := by
  subst h
  by_cases hc : s.params.tokCap < s.tokLen.toNat
  · exact .inl ⟨hc, by simp [execLz78Dec, State.tokLenTooLong, hc]⟩
  · exact .inr ⟨by omega, by simp [execLz78Dec, State.tokLenTooLong, hc]⟩

/-- The test of R191 as a property of the alphabet. -/
theorem alphabetValid_iff {alpha : List Sym} : alphabetValid alpha = true ↔ alpha ≠ [] ∧ alpha.Nodup := by
  simp only [alphabetValid, Bool.and_eq_true, Bool.not_eq_true', hasRepeat_eq_false, List.isEmpty_eq_false_iff]

/-- `LZW.ENC`: an input or an alphabet too long, an invalid alphabet, an unknown symbol, or the result of the loop. -/
theorem execLzwEnc_cases {s : State} {o : Host.Outcome State Fault Refusal} (h : execLzwEnc s = o) :
    ((s.params.symCap < s.symLen.toNat ∨ s.params.alphaCap < s.alphaLen.toNat) ∧
      o = .next (State.raiseEncode .capacityExceeded 0#32 s)) ∨
    (s.symLen.toNat ≤ s.params.symCap ∧ s.alphaLen.toNat ≤ s.params.alphaCap ∧
      ((¬ (s.alphabet ≠ [] ∧ s.alphabet.Nodup) ∧ o = .next (State.raiseEncode .invalidConfiguration 0#32 s)) ∨
       (s.alphabet ≠ [] ∧ s.alphabet.Nodup ∧
         ((∃ i, firstUnknown s.alphabet s.input 0 = some i ∧
             o = .next (State.raiseEncode .unknownSymbol (Word.ofNum i) s)) ∨
          ((∀ x ∈ s.input, x ∈ s.alphabet) ∧
             o = .next (State.finishEncode (lzwEncode s.params s.alphabet s.input) s)))))) := by
  subst h
  by_cases hc : s.params.symCap < s.symLen.toNat ∨ s.params.alphaCap < s.alphaLen.toNat
  · exact .inl ⟨hc, by simp [execLzwEnc, State.symLenTooLong, State.alphaLenTooLong, hc]⟩
  refine .inr ⟨by omega, by omega, ?_⟩
  by_cases hv : alphabetValid s.alphabet = true
  · have h2 := alphabetValid_iff.mp hv
    refine .inr ⟨h2.1, h2.2, ?_⟩
    cases hf : firstUnknown s.alphabet s.input 0 with
    | none =>
      exact .inr ⟨firstUnknown_eq_none.mp hf,
        by simp [execLzwEnc, State.symLenTooLong, State.alphaLenTooLong, hc, hv, hf]⟩
    | some i =>
      exact .inl ⟨i, rfl, by simp [execLzwEnc, State.symLenTooLong, State.alphaLenTooLong, hc, hv, hf]⟩
  · exact .inl ⟨fun h => hv (alphabetValid_iff.mpr h),
      by simp [execLzwEnc, State.symLenTooLong, State.alphaLenTooLong, hc, hv]⟩

/-- `LZW.DEC`: a stream or an alphabet too long, an invalid alphabet, or the result of the loop. -/
theorem execLzwDec_cases {s : State} {o : Host.Outcome State Fault Refusal} (h : execLzwDec s = o) :
    ((s.params.tokCap < s.tokLen.toNat ∨ s.params.alphaCap < s.alphaLen.toNat) ∧
      o = .next (State.raiseDecode .capacityExceeded 0#32 s)) ∨
    (s.tokLen.toNat ≤ s.params.tokCap ∧ s.alphaLen.toNat ≤ s.params.alphaCap ∧
      ((¬ (s.alphabet ≠ [] ∧ s.alphabet.Nodup) ∧ o = .next (State.raiseDecode .invalidConfiguration 0#32 s)) ∨
       (s.alphabet ≠ [] ∧ s.alphabet.Nodup ∧
         o = .next (State.finishDecode (lzwDecode s.params s.alphabet s.stream) s)))) := by
  subst h
  by_cases hc : s.params.tokCap < s.tokLen.toNat ∨ s.params.alphaCap < s.alphaLen.toNat
  · exact .inl ⟨hc, by simp [execLzwDec, State.tokLenTooLong, State.alphaLenTooLong, hc]⟩
  refine .inr ⟨by omega, by omega, ?_⟩
  by_cases hv : alphabetValid s.alphabet = true
  · have h2 := alphabetValid_iff.mp hv
    exact .inr ⟨h2.1, h2.2, by simp [execLzwDec, State.tokLenTooLong, State.alphaLenTooLong, hc, hv]⟩
  · exact .inl ⟨fun h => hv (alphabetValid_iff.mpr h),
      by simp [execLzwDec, State.tokLenTooLong, State.alphaLenTooLong, hc, hv]⟩

end Sys2Proof.Machine
end

