-- ==== Sys2Proof/Laws/PerInstr.lean ====
section
/-! SUPPORT. Statements made once per command: the fields of its command word (R90, 30_encoding.md). -/

namespace Sys2Proof.Laws

/-- The three fields of the word of a command are its own: `ALG`, `DIR`, and `ZERO = 0` (R90, R91). -/
def WordFields.Statement (i : Instr) : Prop :=
  i.wf = true ∧ cmdAlg (encode i) = algOf i ∧ cmdDir (encode i) = dirOf i ∧ cmdZero (encode i) = 0#29

theorem WordFields.lz77Enc : WordFields.Statement .lz77Enc := by unfold WordFields.Statement; decide
theorem WordFields.lz78Enc : WordFields.Statement .lz78Enc := by unfold WordFields.Statement; decide
theorem WordFields.lzwEnc : WordFields.Statement .lzwEnc := by unfold WordFields.Statement; decide
theorem WordFields.sbLpm : WordFields.Statement .sbLpm := by unfold WordFields.Statement; decide
theorem WordFields.lz77Dec : WordFields.Statement .lz77Dec := by unfold WordFields.Statement; decide
theorem WordFields.lz78Dec : WordFields.Statement .lz78Dec := by unfold WordFields.Statement; decide
theorem WordFields.lzwDec : WordFields.Statement .lzwDec := by unfold WordFields.Statement; decide
theorem WordFields.sbSlice : WordFields.Statement .sbSlice := by unfold WordFields.Statement; decide

end Sys2Proof.Laws
end

