-- ==== Sys2Proof/Laws/SymbolBuffer.lean ====
section
/-! SUPPORT. What the search of the Symbol Buffer finds: an occurrence (R11), and the right-most one not above a
bound (R122). -/

namespace Sys2Proof.Machine

/-- An occurrence, said as R11 says it. -/
theorem occursAt_iff {p c : List Sym} {q : Nat} :
    occursAt p c q = true ↔ q + p.length ≤ c.length ∧ (c.drop q).take p.length = p := by
  simp [occursAt, subseq]

/-- The search finds an occurrence, with none above it up to the bound. -/
theorem lastOccurrence_eq_some {p c : List Sym} : ∀ {hi q : Nat}, lastOccurrence p c hi = some q →
    occursAt p c q = true ∧ q ≤ hi ∧ ∀ q', q < q' → q' ≤ hi → occursAt p c q' = false := by
  intro hi
  induction hi with
  | zero =>
    intro q h
    simp only [lastOccurrence] at h
    split at h
    · cases h
      exact ⟨‹_›, Nat.le_refl _, fun q' h1 h2 => by omega⟩
    · cases h
  | succ hi ih =>
    intro q h
    simp only [lastOccurrence] at h
    split at h
    · cases h
      exact ⟨‹_›, Nat.le_refl _, fun q' h1 h2 => by omega⟩
    · next hn =>
      obtain ⟨h1, h2, h3⟩ := ih h
      refine ⟨h1, by omega, fun q' h4 h5 => ?_⟩
      by_cases hq : q' = hi + 1
      · subst hq; simpa using hn
      · exact h3 q' h4 (by omega)

/-- The search fails when there is no occurrence up to the bound. -/
theorem lastOccurrence_eq_none {p c : List Sym} : ∀ {hi : Nat}, lastOccurrence p c hi = none ↔
    ∀ q, q ≤ hi → occursAt p c q = false := by
  intro hi
  induction hi with
  | zero =>
    simp only [lastOccurrence]
    constructor
    · intro h q hq
      obtain rfl : q = 0 := by omega
      split at h
      · cases h
      · next hn => simpa using hn
    · intro h
      rw [h 0 (Nat.le_refl _)]
      rfl
  | succ hi ih =>
    simp only [lastOccurrence]
    split
    · next hy =>
      constructor
      · intro h; cases h
      · intro h; rw [h _ (Nat.le_refl _)] at hy; cases hy
    · next hn =>
      rw [ih]
      constructor
      · intro h q hq
        by_cases hq' : q = hi + 1
        · subst hq'; simpa using hn
        · exact h q (by omega)
      · intro h q hq; exact h q (by omega)

/-- What the two queries can do: `CapacityExceeded(0)`, or a result. -/
theorem execSbLpm_cases {s : State} {o : Host.Outcome State Fault Refusal} (h : execSbLpm s = o) :
    (s.params.symCap < s.symLen.toNat ∧ o = .next (State.raiseQuery .capacityExceeded 0#32 s)) ∨
    (s.symLen.toNat ≤ s.params.symCap ∧ ∃ len off, o = .next (State.finishQuery len off s)) := by
  subst h
  by_cases hc : s.params.symCap < s.symLen.toNat
  · exact .inl ⟨hc, by simp [execSbLpm, State.symLenTooLong, hc]⟩
  · exact .inr ⟨by omega, _, _, by simp [execSbLpm, State.symLenTooLong, hc]; rfl⟩

theorem execSbSlice_cases {s : State} {o : Host.Outcome State Fault Refusal} (h : execSbSlice s = o) :
    (s.params.symCap < s.symLen.toNat ∧ o = .next (State.raiseQuery .capacityExceeded 0#32 s)) ∨
    (s.symLen.toNat ≤ s.params.symCap ∧
      o = .next (State.finishQuery (min s.qmax.toNat (s.symLen.toNat - min s.qpos.toNat s.symLen.toNat))
        (min s.qpos.toNat s.symLen.toNat) s)) := by
  subst h
  by_cases hc : s.params.symCap < s.symLen.toNat
  · exact .inl ⟨hc, by simp [execSbSlice, State.symLenTooLong, hc]⟩
  · exact .inr ⟨by omega, by simp [execSbSlice, State.symLenTooLong, hc]⟩

end Sys2Proof.Machine
end

