-- ==== Sys2Proof/Machine/Script.lean ====
section
/-! DEFINITION. The pseudo-instructions of the host script (R105, R106, 30_encoding.md), each the list of host
operations it expands to. -/

namespace Sys2Proof.Machine

/-- `CMD mnemonic` (R105): `WRREG CMD, word`. -/
def cmd (i : Instr) : List HostOp := [.wrReg 0 (encode i)]

/-- `WRSYM i, v0`, `WRSYM i+1, v1`, ... -/
def wrSyms : Nat → List Nat → List HostOp
  | _, [] => []
  | i, v :: vs => .wrSym i v :: wrSyms (i + 1) vs

/-- `WRALPHA i, v0`, `WRALPHA i+1, v1`, ... -/
def wrAlphas : Nat → List Nat → List HostOp
  | _, [] => []
  | i, v :: vs => .wrAlpha i v :: wrAlphas (i + 1) vs

/-- `WRTOK i, tok0`, `WRTOK i+1, tok1`, ... -/
def wrToks (symW : Nat) : Nat → List Token → List HostOp
  | _, [] => []
  | i, t :: ts => .wrTok i (packToken symW t) :: wrToks symW (i + 1) ts

/-- `LOADSYM "c0...c(n-1)"` (R106): the symbols, then `WRREG SYM_LEN, n`. -/
def loadSym (cs : List Nat) : List HostOp := wrSyms 0 cs ++ [.wrReg 6 (Word.ofNum cs.length)]

/-- `LOADALPHA "c0...c(a-1)"` (R106): the alphabet, then `WRREG ALPHA_LEN, a`. -/
def loadAlpha (cs : List Nat) : List HostOp := wrAlphas 0 cs ++ [.wrReg 5 (Word.ofNum cs.length)]

/-- `LOADTOK tok0, ..., tok(m-1)` (R106): the tokens, then `WRREG TOK_LEN, m`. -/
def loadTok (symW : Nat) (ts : List Token) : List HostOp :=
  wrToks symW 0 ts ++ [.wrReg 7 (Word.ofNum ts.length)]

/-- `CONFIG77 w, l` (R106): `WRREG WSIZE, w`; `WRREG LSIZE, l`. -/
def config77 (w l : Word) : List HostOp := [.wrReg 3 w, .wrReg 4 l]

/-- `WAIT` (R106): commands are single transitions, so it is one read of `STATUS`. -/
def wait : List HostOp := [.rdReg 1]

/-- `ENCODE77 "s", w, l` (R106). -/
def encode77 (cs : List Nat) (w l : Word) : List HostOp :=
  loadSym cs ++ config77 w l ++ cmd .lz77Enc ++ wait

/-- `ENCODE78 "s"` (R106). -/
def encode78 (cs : List Nat) : List HostOp := loadSym cs ++ cmd .lz78Enc ++ wait

/-- `ENCODEW "s", "alphabet"` (R106). -/
def encodeW (cs alpha : List Nat) : List HostOp :=
  loadAlpha alpha ++ loadSym cs ++ cmd .lzwEnc ++ wait

end Sys2Proof.Machine
end

