-- ==== Sys2Proof/Tests/Slice0.lean ====
section
/-! SUPPORT. The model's own tests: ill-formed parameters, the command words, one command each on the vectors of
95_test_vectors.md, and for every statement of Certificates/Slice0/Obligations.lean with hypotheses a concrete
witness that meets them. -/

namespace Sys2Proof.Tests

open Sys2Proof Sys2Proof.Machine Sys2Proof.Config

/-! ### Well-formedness: each range of R9 and R10 refuses a value outside it -/

/-- A small legal instance. -/
def small : Params := { symW := 8, symCap := 8, tokCap := 4, dictCap := 5, alphaCap := 3 }

theorem test_wf_small : small.wf = true := by decide
theorem test_wf_reference : Params.reference.wf = true := by decide
theorem test_wf_symW_low : (Params.wf { small with symW := 0, alphaCap := 1 }) = false := by decide
theorem test_wf_symW_high : (Params.wf { small with symW := 25 }) = false := by decide
theorem test_wf_symCap_low : (Params.wf { small with symCap := 0 }) = false := by decide
theorem test_wf_symCap_high : (Params.wf { small with symCap := 4294967295 }) = false := by decide
theorem test_wf_tokCap_low : (Params.wf { small with tokCap := 0 }) = false := by decide
theorem test_wf_tokCap_high : (Params.wf { small with tokCap := 4294967295 }) = false := by decide
theorem test_wf_dictCap_low : (Params.wf { small with dictCap := 0, alphaCap := 0 }) = false := by decide
theorem test_wf_dictCap_high : (Params.wf { small with dictCap := 4294967295 }) = false := by decide
theorem test_wf_alphaCap_low : (Params.wf { small with alphaCap := 0 }) = false := by decide
theorem test_wf_alphaCap_over_dict : (Params.wf { small with alphaCap := 6 }) = false := by decide
theorem test_wf_alphaCap_over_symbols : (Params.wf { small with symW := 1 }) = false := by decide

/-- A command word has no field, so no command is ill formed (R92). -/
theorem test_wf_commands : ∀ i : Instr, i.wf = true := by intro i; cases i <;> rfl

/-! ### Decoding: the words of R91, written out bit by bit as `ZERO` `DIR` `ALG` (R90) -/

theorem test_decode_lz77Enc : decode 0b00000000000000000000000000000_0_00#32 = .ok .lz77Enc := by decide
theorem test_decode_lz78Enc : decode 0b00000000000000000000000000000_0_01#32 = .ok .lz78Enc := by decide
theorem test_decode_lzwEnc : decode 0b00000000000000000000000000000_0_10#32 = .ok .lzwEnc := by decide
theorem test_decode_sbLpm : decode 0b00000000000000000000000000000_0_11#32 = .ok .sbLpm := by decide
theorem test_decode_lz77Dec : decode 0b00000000000000000000000000000_1_00#32 = .ok .lz77Dec := by decide
theorem test_decode_lz78Dec : decode 0b00000000000000000000000000000_1_01#32 = .ok .lz78Dec := by decide
theorem test_decode_lzwDec : decode 0b00000000000000000000000000000_1_10#32 = .ok .lzwDec := by decide
theorem test_decode_sbSlice : decode 0b00000000000000000000000000000_1_11#32 = .ok .sbSlice := by decide

/-- R93: the least and the greatest illegal word. -/
theorem test_decode_illegal : decode 8#32 = .error (.illegalCommand 8#32) ∧
    decode 0xFFFFFFFF#32 = .error (.illegalCommand 0xFFFFFFFF#32) := by decide

/-- The opcode table's numbering of the bits of `LZW.DEC`. -/
theorem test_decodeTableWord : decodeTableWord 32 6 = some .lzwDec ∧ decodeTableWord 32 8 = none := by decide

/-- `withFetchWord` makes the next step run the word: after reset `SB.SLICE` completes without error, `STATUS = 2`. -/
theorem test_withFetchWord :
    (match step (State.reset.withFetchWord 32 7) with
     | .next t => decide (t.status = 2#32)
     | .fault _ => false
     | .refused _ => false) = true := by decide

/-! ### Helpers -/

/-- The property of the next state, false if there is none. -/
def nextWith (o : Host.Outcome State Fault Refusal) (p : State → Bool) : Bool :=
  match o with
  | .next t => p t
  | .fault _ => false
  | .refused _ => false

theorem nextWith_next {o : Host.Outcome State Fault Refusal} {p : State → Bool} (h : nextWith o p = true) :
    ∃ t, o = .next t ∧ p t = true := by
  cases o with
  | next t => exact ⟨t, rfl, h⟩
  | fault _ => cases h
  | refused _ => cases h

/-- A state of the instance `p` with the symbols, the alphabet and the tokens given, and valid LZ77 sizes 4. -/
def load (p : Params) (syms alpha : List Nat) (toks : List Token) : State :=
  { State.reset with
    params := p, wsize := 4#32, lsize := 4#32
    symLen := Word.ofNum syms.length, alphaLen := Word.ofNum alpha.length, tokLen := Word.ofNum toks.length
    sym := (Memory.unwritten 0).writeFrom 0 (syms.map (BitVec.ofNat 24))
    alpha := (Memory.unwritten 0).writeFrom 0 (alpha.map (BitVec.ofNat 24))
    tok := (Memory.unwritten 0).writeFrom 0 toks }

/-- Running `i` leaves `STATUS = status`, `ERRINFO = info`, and makes `p` true. -/
def runsTo (i : Instr) (s : State) (status info : Word) (p : State → Bool) : Bool :=
  nextWith (exec i s) (fun t => decide (t.status = status) && decide (t.errinfo = info) && p t)

/-- The symbol `'a' + i`, and its absence (G1: any numbering will do; log entry 20). -/
def chr (i : Nat) : Option Sym := some (BitVec.ofNat 24 (97 + i))

/-! ### The vectors: at most two for each command -/

/-- 77-E6: `"aaaa"`, sizes 4: no match overlaps the cursor. -/
theorem test_lz77Enc_no_overlap : runsTo .lz77Enc (load .reference [97, 97, 97, 97] [] []) 2#32 0#32
    (fun t => decide (t.stream = [lz77Token 0 0 (chr 0), lz77Token 1 1 (chr 0), lz77Token 1 1 none]) &&
      decide (t.tokLen = 3#32)) = true := by decide +kernel

/-- 77-X8: `"abc"` with `TOK_CAP = 2`: `CapacityExceeded(2)`. -/
theorem test_lz77Enc_full : runsTo .lz77Enc (load { Params.reference with tokCap := 2 } [97, 98, 99] [] [])
    0x52#32 2#32 (fun t => decide (t.tokLen = 0#32)) = true := by decide +kernel

/-- 77-D4: a copy reaching back over copies, the last one of four symbols. -/
theorem test_lz77Dec_copies : runsTo .lz77Dec
    (load .reference [] [] [lz77Token 0 0 (chr 0), lz77Token 1 1 none, lz77Token 2 2 none, lz77Token 4 4 (chr 25)])
    2#32 0#32 (fun t => decide (t.input = [97#24, 97#24, 97#24, 97#24, 97#24, 97#24, 97#24, 97#24, 122#24])) =
      true := by decide +kernel

/-- 77-D7: `len = 2 > off = 1`: `CorruptToken(1)`. -/
theorem test_lz77Dec_overlap_refused : runsTo .lz77Dec
    (load .reference [] [] [lz77Token 0 0 (chr 0), lz77Token 1 2 none]) 0x22#32 1#32
    (fun t => decide (t.symLen = 0#32)) = true := by decide +kernel

/-- 78-E4: `"aa"`: a match to the end, a duplicate entry. -/
theorem test_lz78Enc_to_the_end : runsTo .lz78Enc (load .reference [97, 97] [] []) 2#32 0#32
    (fun t => decide (t.stream = [lz78Token 0 (chr 0), lz78Token 1 none]) && decide (t.dcount = 2#32)) = true := by
  decide +kernel

/-- V78-1 (S-7): `"aabababcc"`. -/
theorem test_lz78Enc_scenario : runsTo .lz78Enc (load .reference [97, 97, 98, 97, 98, 97, 98, 99, 99] [] []) 2#32 0#32
    (fun t => decide (t.stream = [lz78Token 0 (chr 0), lz78Token 1 (chr 1), lz78Token 2 (chr 0),
      lz78Token 0 (chr 1), lz78Token 0 (chr 2), lz78Token 5 none])) = true := by decide +kernel

/-- 78-D3: an entry made by a token without a symbol is used like any other. -/
theorem test_lz78Dec_entries : runsTo .lz78Dec
    (load .reference [] [] [lz78Token 0 (chr 0), lz78Token 1 none, lz78Token 2 (chr 1), lz78Token 3 none]) 2#32 0#32
    (fun t => decide (t.input = [97#24, 97#24, 97#24, 98#24, 97#24, 98#24]) && decide (t.dcount = 4#32)) = true := by
  decide +kernel

/-- 78-D6: the code being defined is not usable: `CorruptToken(1)`. -/
theorem test_lz78Dec_own_code : runsTo .lz78Dec
    (load .reference [] [] [lz78Token 0 (chr 0), lz78Token 2 (chr 1)]) 0x22#32 1#32
    (fun t => decide (t.symLen = 0#32)) = true := by decide +kernel

/-- VW-2: `ALPHA = "ab"`, `SYM = "aaa"`: tokens `0 2`, `DCOUNT = 3`. -/
theorem test_lzwEnc_special : runsTo .lzwEnc (load .reference [97, 97, 97] [97, 98] []) 2#32 0#32
    (fun t => decide (t.stream = [lzwToken 0, lzwToken 2]) && decide (t.dcount = 3#32)) = true := by decide +kernel

/-- W-X1: `ALPHA = "abc"`, `SYM = "abd"`: `UnknownSymbol(2)`, `TOK` unchanged. -/
theorem test_lzwEnc_unknown : runsTo .lzwEnc (load .reference [97, 98, 100] [97, 98, 99] []) 0x12#32 2#32
    (fun t => decide (t.tokLen = 0#32) && decide (t.dcount = 0#32) && decide (t.tok = Memory.unwritten 0)) = true := by
  decide +kernel

/-- VW-2: `LZW.DEC` of `0 2`: the entry being defined. -/
theorem test_lzwDec_special : runsTo .lzwDec (load .reference [] [97, 98] [lzwToken 0, lzwToken 2]) 2#32 0#32
    (fun t => decide (t.input = [97#24, 97#24, 97#24]) && decide (t.dcount = 3#32)) = true := by decide +kernel

/-- W-D5: code 2 first, no previous phrase: `CorruptToken(0)`. -/
theorem test_lzwDec_no_previous : runsTo .lzwDec (load .reference [] [97, 98] [lzwToken 2]) 0x22#32 0#32
    (fun t => decide (t.symLen = 0#32) && decide (t.dcount = 0#32)) = true := by decide +kernel

/-- The state of section 3.2 of the vectors: `SYM = "zabcabqabcx"`, with a query. -/
def query (qpos qend qmax clo chi : Nat) : State :=
  { load .reference [122, 97, 98, 99, 97, 98, 113, 97, 98, 99, 120] [] [] with
    qpos := Word.ofNum qpos, qend := Word.ofNum qend, qmax := Word.ofNum qmax
    clo := Word.ofNum clo, chi := Word.ofNum chi }

/-- SB-C2: the right-most of two. -/
theorem test_sbLpm_rightmost : runsTo .sbLpm (query 7 11 2 0 7) 2#32 0#32
    (fun t => decide (t.rlen = 2#32) && decide (t.roff = 3#32)) = true := by decide +kernel

/-- SB-C5: `QEND` clamped. -/
theorem test_sbLpm_clamped : runsTo .sbLpm (query 7 100 4 0 7) 2#32 0#32
    (fun t => decide (t.rlen = 3#32) && decide (t.roff = 6#32)) = true := by decide +kernel

/-- SB-S1, SB-S7: the clamped bounds; `QPOS + QMAX` is never formed. -/
theorem test_sbSlice_bounds :
    runsTo .sbSlice { State.reset with symLen := 15#32, qpos := 12#32, qmax := 6#32 } 2#32 0#32
      (fun t => decide (t.roff = 12#32) && decide (t.rlen = 3#32)) = true ∧
    runsTo .sbSlice { State.reset with symLen := 15#32, qpos := 0xFFFFFFFF#32, qmax := 0xFFFFFFFF#32 } 2#32 0#32
      (fun t => decide (t.roff = 15#32) && decide (t.rlen = 0#32)) = true := by decide +kernel

/-- H-5: an illegal word after a command: `STATUS = 0x42`, `ERRINFO = 8`, the results stay. -/
theorem test_illegal_keeps_results :
    nextWith (step { load .reference [97] [] [lz78Token 0 (chr 0)] with dcount := 6#32, script := [.wrReg 0 8#32] })
      (fun t => decide (t.status = 0x42#32) && decide (t.errinfo = 8#32) && decide (t.tokLen = 1#32) &&
        decide (t.dcount = 6#32)) = true := by decide +kernel

/-- H-11: `WRSYM 0, 0x1FF` stores `0xFF`. -/
theorem test_symbol_narrowed :
    nextWith (step { State.reset with script := [.wrSym 0 0x1FF] }) (fun t => decide (t.symAt 0 = 0xFF#24)) = true := by
  decide +kernel

/-- H-13: a record of all ones reads back without its unused bits. -/
theorem test_record_narrowed :
    packToken 8 (unpackToken 8 0xFFFFFFFFFFFFFFFFFFFFFFFF#96) = 0x070000FFFFFFFFFFFFFFFFFF#96 := by decide +kernel

/-! ### Witnesses: concrete states and operands that meet the hypotheses of a statement together -/

/-- The host about to perform `op`, LZC idle. -/
def about (op : HostOp) : State := { load small [97, 98] [97, 98] [lz78Token 0 (chr 0)] with script := [op] }

theorem test_witness_OpcodeMapDecodes :
    8#32 &&& 0xFFFFFFF8#32 ≠ 0#32 ∧ 0xFFFFFFFF#32 &&& 0xFFFFFFF8#32 ≠ 0#32 := by decide

theorem test_witness_DecodeAndEncodeAgree :
    Instr.wf .sbSlice = true ∧ decode 7#32 = .ok .sbSlice ∧ decode 0#32 = .ok .lz77Enc := by decide

theorem test_witness_RecordLayout :
    (24 ≤ 24 ∧ ((lz78Token 1 (some 0xFFFFFF#24)).sym.toNat < 2 ^ 24)) ∧
    (1 ≤ 24 ∧ ((lz77Token 1 1 (some 1#24)).sym.toNat < 2 ^ 1)) ∧
    (64 + 8 ≤ 72 ∧ 72 < 88) ∧ (64 + 8 ≤ 87 ∧ 87 < 88) := by decide

theorem test_witness_StepRunsDecodedCommand :
    (about (.wrReg 0 0#32)).busy = false ∧ (about (.wrReg 0 0#32)).script = .wrReg 0 0#32 :: [] ∧
    decode 0#32 = .ok .lz77Enc ∧ decode 7#32 = .ok .sbSlice := by decide

theorem test_witness_EveryCommandCompletes : State.reset.busy = false := by decide

theorem test_witness_IllegalCommandTouchesOnlyStatus :
    (about (.wrReg 0 8#32)).busy = false ∧ (about (.wrReg 0 8#32)).script = .wrReg 0 8#32 :: [] ∧
    8#32 &&& 0xFFFFFFF8#32 ≠ 0#32 := by decide

theorem test_witness_IdleStepAndBusyRule :
    State.reset.script = [] ∧
    (({ about (.rdReg 1) with busy := true } : State).busy = true ∧ (about (.rdReg 1)).script = .rdReg 1 :: []) ∧
    (({ about (.rdReg 2) with busy := true } : State).busy = true ∧ (about (.rdReg 2)).script = .rdReg 2 :: [] ∧
      HostOp.rdReg 2 ≠ .rdReg 1 ∧ HostOp.rdReg 2 ≠ .reset) := by decide

theorem test_witness_RegisterOperations :
    ((about (.rdReg 15)).busy = false ∧ (about (.rdReg 15)).script = .rdReg 15 :: []) ∧
    ((about (.rdReg 16)).busy = false ∧ (about (.rdReg 16)).script = .rdReg 16 :: []) ∧
    ((about (.wrReg 3 1#32)).busy = false ∧ (about (.wrReg 3 1#32)).script = .wrReg 3 1#32 :: [] ∧ 3 ≤ 3 ∧ 3 ≤ 12) ∧
    ((about (.wrReg 12 1#32)).busy = false ∧ (about (.wrReg 12 1#32)).script = .wrReg 12 1#32 :: [] ∧ 3 ≤ 12) ∧
    ((about (.wrReg 0 8#32)).busy = false ∧ (about (.wrReg 0 8#32)).script = .wrReg 0 8#32 :: []) ∧
    ((about (.wrReg 2 1#32)).busy = false ∧ (about (.wrReg 2 1#32)).script = .wrReg 2 1#32 :: [] ∧ 2 ≠ 0 ∧ 2 < 3) ∧
    ((about (.wrReg 13 1#32)).busy = false ∧ (about (.wrReg 13 1#32)).script = .wrReg 13 1#32 :: [] ∧ 12 < 13) := by
  decide

theorem test_witness_MemoryOperations :
    ((about (.rdSym 7)).busy = false ∧ (about (.rdSym 7)).script = .rdSym 7 :: []) ∧
    ((about (.rdSym 8)).busy = false ∧ (about (.rdSym 8)).script = .rdSym 8 :: [] ∧
      (about (.rdSym 8)).params.symCap ≤ 8) ∧
    ((about (.rdAlpha 3)).busy = false ∧ (about (.rdAlpha 3)).script = .rdAlpha 3 :: [] ∧
      (about (.rdAlpha 3)).params.alphaCap ≤ 3) ∧
    ((about (.rdTok 4)).busy = false ∧ (about (.rdTok 4)).script = .rdTok 4 :: [] ∧
      (about (.rdTok 4)).params.tokCap ≤ 4) ∧
    ((about (.wrSym 7 0x1FF)).busy = false ∧ (about (.wrSym 7 0x1FF)).script = .wrSym 7 0x1FF :: []) ∧
    ((about (.wrAlpha 2 97)).busy = false ∧ (about (.wrAlpha 2 97)).script = .wrAlpha 2 97 :: []) ∧
    ((about (.wrTok 3 1#96)).busy = false ∧ (about (.wrTok 3 1#96)).script = .wrTok 3 1#96 :: []) := by decide

/-- A write at the first index beyond each memory is possible too, and is the other case of the conclusions. -/
theorem test_witness_MemoryOperations_beyond :
    ((about (.wrSym 8 1)).busy = false ∧ (about (.wrSym 8 1)).script = .wrSym 8 1 :: []) ∧
    ((about (.wrAlpha 3 1)).busy = false ∧ (about (.wrAlpha 3 1)).script = .wrAlpha 3 1 :: []) ∧
    ((about (.wrTok 4 1#96)).busy = false ∧ (about (.wrTok 4 1#96)).script = .wrTok 4 1#96 :: []) := by decide

theorem test_witness_ResetLeavesRegistersZero :
    ({ about .reset with busy := true } : State).script = .reset :: [] ∧ (about .reset).script = .reset :: [] := by
  decide

theorem test_witness_ResetLeavesMemoriesUnspecified :
    ({ about .reset with busy := true } : State).script = .reset :: [] ∧ 7 < (about .reset).params.symCap := by decide

/-- SB-F2: the length is capped by `m = 2`; the prefix of length 2 occurs, at 1 and at 4. -/
theorem test_witness_LpmLengthIsGreatest :
    2 ≤ min 2 ([97#24, 98#24, 99#24, 120#24] : List Sym).length ∧
    ∃ q, occursAt (([97#24, 98#24, 99#24, 120#24] : List Sym).take 2)
      [122#24, 97#24, 98#24, 99#24, 97#24, 98#24, 113#24] q = true := ⟨by decide, 4, by decide⟩

/-- SB-F4 and SB-F2: no match, and a match with two occurrences. -/
theorem test_witness_LpmReportsRightmost :
    (lpm [120#24] 4 [122#24, 97#24, 98#24, 99#24]).1 = 0 ∧
    1 ≤ (lpm [97#24, 98#24, 99#24, 120#24] 2 [122#24, 97#24, 98#24, 99#24, 97#24, 98#24, 113#24]).1 ∧
    occursAt (([97#24, 98#24, 99#24, 120#24] : List Sym).take
      (lpm [97#24, 98#24, 99#24, 120#24] 2 [122#24, 97#24, 98#24, 99#24, 97#24, 98#24, 113#24]).1)
      [122#24, 97#24, 98#24, 99#24, 97#24, 98#24, 113#24] 1 = true := by decide +kernel

theorem test_witness_SliceIsClamped : ([97#24, 98#24] : List Sym).length ≤ 2 := by decide

/-- `SYM` exactly full. -/
def fullSym : State := load small [97, 98, 97, 98, 97, 98, 97, 98] [97, 98] []

/-- `SYM_LEN`, `TOK_LEN` and `ALPHA_LEN` one beyond their memories. -/
def tooLong : State := { fullSym with symLen := 9#32, tokLen := 5#32, alphaLen := 4#32 }

theorem test_witness_SbLpmAnswersQuery :
    fullSym.symLen.toNat ≤ fullSym.params.symCap ∧ tooLong.params.symCap < tooLong.symLen.toNat := by decide

theorem test_witness_SbSliceAnswersBounds :
    fullSym.symLen.toNat ≤ fullSym.params.symCap ∧ tooLong.params.symCap < tooLong.symLen.toNat := by decide

/-- The cursor in the middle, a window of 3: `QPOS = CHI = 5`, `QEND = N = 8`, `QMAX = 2`, `CLO = 2`. -/
def searchAt : State := { fullSym with qpos := 5#32, chi := 5#32, qend := 8#32, qmax := 2#32, clo := 2#32 }

theorem test_witness_SbLpmIsTheLz77Search :
    searchAt.symLen.toNat ≤ searchAt.params.symCap ∧ 5 ≤ searchAt.symLen.toNat ∧ searchAt.qpos.toNat = 5 ∧
    searchAt.chi.toNat = 5 ∧ searchAt.qend = searchAt.symLen ∧ searchAt.qmax.toNat = 2 ∧
    searchAt.clo.toNat = 5 - 3 := by decide

theorem test_witness_InputLengthBeyondMemory :
    tooLong.params.symCap < tooLong.symLen.toNat ∧ tooLong.params.alphaCap < tooLong.alphaLen.toNat ∧
    tooLong.params.tokCap < tooLong.tokLen.toNat := by decide

theorem test_witness_Lz77SizesMustBePositive :
    (({ fullSym with wsize := 0#32 } : State).wsize.toInt ≤ 0 ∧ fullSym.symLen.toNat ≤ fullSym.params.symCap ∧
      fullSym.tokLen.toNat ≤ fullSym.params.tokCap) ∧
    ({ fullSym with lsize := 0x80000000#32 } : State).lsize.toInt ≤ 0 ∧
    ({ fullSym with lsize := 0xFFFFFFFF#32 } : State).lsize.toInt ≤ 0 := by decide

/-- The alphabet `"aba"`, and one of no entry. -/
def repeating : State := load small [97] [97, 98, 97] []

theorem test_witness_LzwAlphabetMustBeDistinct :
    (repeating.alphaLen.toNat ≤ repeating.params.alphaCap ∧
      (∃ i j, i < j ∧ j < repeating.alphaLen.toNat ∧ repeating.alphaAt i = repeating.alphaAt j) ∧
      repeating.symLen.toNat ≤ repeating.params.symCap ∧ repeating.tokLen.toNat ≤ repeating.params.tokCap) ∧
    (({ repeating with alphaLen := 0#32 } : State).alphaLen.toNat = 0) :=
  ⟨⟨by decide, ⟨0, 2, by decide, by decide, by decide⟩, by decide, by decide⟩, by decide⟩

/-- An instance as `small` with more room. -/
def roomy : Params := { symW := 8, symCap := 12, tokCap := 12, dictCap := 16, alphaCap := 3 }

/-- `"abaab"` over the alphabet `"ab"`, and a stream of one LZW token. -/
def words : State := load roomy [97, 98, 97, 97, 98] [97, 98] [lzwToken 0]

/-- A distinct alphabet, said as the statements say it. -/
theorem words_distinct : ∀ a b, a < b → b < words.alphaLen.toNat → words.alphaAt a ≠ words.alphaAt b :=
  fun a b h1 h2 => (by decide +kernel : ∀ b, b < words.alphaLen.toNat → ∀ a, a < b →
    words.alphaAt a ≠ words.alphaAt b) b h2 a h1

theorem test_witness_LzwAlphabetMustBeDistinct_success :
    words.params.wf = true ∧ ∃ t, exec .lzwEnc words = .next t ∧ t.err = none := by
  obtain ⟨t, h1, h2⟩ := nextWith_next
    (by decide +kernel : nextWith (exec .lzwEnc words) (fun t => decide (t.err = none)) = true)
  exact ⟨by decide, t, h1, by simpa using h2⟩

/-- `"abd"` over `"ab"`: index 2 is the first unknown symbol. -/
def unknown : State := load roomy [97, 98, 100] [97, 98] []

theorem test_witness_UnknownSymbolIsTheFirst :
    unknown.symLen.toNat ≤ unknown.params.symCap ∧ unknown.alphaLen.toNat ≤ unknown.params.alphaCap ∧
    1 ≤ unknown.alphaLen.toNat ∧
    (∀ a b, a < b → b < unknown.alphaLen.toNat → unknown.alphaAt a ≠ unknown.alphaAt b) ∧
    2 < unknown.symLen.toNat ∧ (∀ j, j < unknown.alphaLen.toNat → unknown.symAt 2 ≠ unknown.alphaAt j) ∧
    (∀ i', i' < 2 → ∃ j, j < unknown.alphaLen.toNat ∧ unknown.symAt i' = unknown.alphaAt j) :=
  ⟨by decide, by decide, by decide,
    fun a b h1 h2 => (by decide +kernel : ∀ b, b < unknown.alphaLen.toNat → ∀ a, a < b →
      unknown.alphaAt a ≠ unknown.alphaAt b) b h2 a h1,
    by decide, by decide +kernel, by decide +kernel⟩

/-- Running `i` from `s` ends with the error `e`. -/
def endsIn (i : Instr) (s : State) (e : Option ErrKind) : Bool :=
  nextWith (exec i s) (fun t => decide (t.err = e))

theorem endsIn_next {i : Instr} {s : State} {e : Option ErrKind} (h : endsIn i s e = true) :
    ∃ t, exec i s = .next t ∧ t.err = e := by
  obtain ⟨t, h1, h2⟩ := nextWith_next h
  exact ⟨t, h1, by simpa using h2⟩

/-- A stream of each kind whose only token is good, over a room that is ample. -/
def good77 : State := load roomy [97, 97, 97] [97, 98] [lz77Token 0 0 (chr 0), lz77Token 1 1 none]
def good78 : State := load roomy [97, 97, 97] [97, 98] [lz78Token 0 (chr 0), lz78Token 1 none]
def goodW : State := load roomy [97, 97, 97] [97, 98] [lzwToken 0, lzwToken 2]

/-- The same in an instance with room for one token, one symbol and the alphabet only. -/
def tight : Params := { symW := 8, symCap := 3, tokCap := 1, dictCap := 2, alphaCap := 2 }

theorem test_witness_ErrorKindsByCommand :
    (∃ t, exec .lzwEnc unknown = .next t ∧ t.err = some .unknownSymbol) ∧
    (∃ t, exec .lz77Dec good78 = .next t ∧ t.err = some .corruptToken) ∧
    (∃ t, exec .lz78Dec goodW = .next t ∧ t.err = some .corruptToken) ∧
    (∃ t, exec .lzwDec good77 = .next t ∧ t.err = some .corruptToken) ∧
    (∃ t, exec .lzwDec repeating = .next t ∧ t.err = some .invalidConfiguration) ∧
    (∃ t, exec .sbLpm tooLong = .next t ∧ t.err = some .capacityExceeded) ∧
    (∃ t, exec .lzwEnc tooLong = .next t ∧ t.err = some .capacityExceeded) ∧
    (∃ t, exec .lz77Dec tooLong = .next t ∧ t.err = some .capacityExceeded) :=
  ⟨endsIn_next (by decide +kernel), endsIn_next (by decide +kernel), endsIn_next (by decide +kernel),
    endsIn_next (by decide +kernel), endsIn_next (by decide +kernel), endsIn_next (by decide +kernel),
    endsIn_next (by decide +kernel), endsIn_next (by decide +kernel)⟩

theorem test_witness_EncodeFrame :
    good77.params.wf = true ∧ (∃ t, exec .lz77Enc good77 = .next t ∧ t.err = none) ∧
    (∃ t, exec .lz78Enc good77 = .next t ∧ t.err = none) ∧ (∃ t, exec .lzwEnc good77 = .next t ∧ t.err = none) :=
  ⟨by decide, endsIn_next (by decide +kernel), endsIn_next (by decide +kernel), endsIn_next (by decide +kernel)⟩

theorem test_witness_DecodeFrame :
    good77.params.wf = true ∧ (∃ t, exec .lz77Dec good77 = .next t ∧ t.err = none) ∧
    (∃ t, exec .lz78Dec good78 = .next t ∧ t.err = none) ∧ (∃ t, exec .lzwDec goodW = .next t ∧ t.err = none) :=
  ⟨by decide, endsIn_next (by decide +kernel), endsIn_next (by decide +kernel), endsIn_next (by decide +kernel)⟩

theorem test_witness_QueryResultsWrittenByQueriesOnly :
    (∃ t, exec .sbLpm searchAt = .next t ∧ t.err = none) ∧ (∃ t, exec .sbSlice searchAt = .next t ∧ t.err = none) ∧
    (Instr.lz77Enc ≠ .sbLpm ∧ Instr.lz77Enc ≠ .sbSlice ∧ ∃ t, exec .lz77Enc good77 = .next t ∧ t.err = none) ∧
    ((about (.wrReg 13 1#32)).busy = false ∧ (about (.wrReg 13 1#32)).script = .wrReg 13 1#32 :: []) ∧
    ((about (.wrReg 14 1#32)).busy = false ∧ (about (.wrReg 14 1#32)).script = .wrReg 14 1#32 :: []) :=
  ⟨endsIn_next (by decide +kernel), endsIn_next (by decide +kernel),
    ⟨by decide, by decide, endsIn_next (by decide +kernel)⟩, by decide, by decide⟩

theorem test_witness_ResultRegistersAfterError :
    (∃ t, exec .lzwEnc unknown = .next t ∧ t.err = some .unknownSymbol) ∧
    (∃ t, exec .lz77Dec good78 = .next t ∧ t.err = some .corruptToken) ∧
    (∃ t, exec .sbSlice tooLong = .next t ∧ t.err = some .capacityExceeded) ∧
    ((about (.wrReg 0 8#32)).busy = false ∧ (about (.wrReg 0 8#32)).script = .wrReg 0 8#32 :: [] ∧
      8#32 &&& 0xFFFFFFF8#32 ≠ 0#32) :=
  ⟨endsIn_next (by decide +kernel), endsIn_next (by decide +kernel), endsIn_next (by decide +kernel), by decide⟩

/-- `"aba"` and a token stream of two symbols in the tight instance. -/
def tightRun : State := load tight [97, 98, 97] [97, 98] [lz77Token 0 0 (chr 0)]

/-- The tight instance with one symbol of room, and a token of each kind that needs more. -/
def noRoom77 : State := load { tight with symCap := 1, tokCap := 2 } [] [97, 98] [lz77Token 0 0 (chr 0), lz77Token 1 1 none]
def noRoom78 : State := load { tight with symCap := 1, tokCap := 2 } [] [97, 98] [lz78Token 0 (chr 0), lz78Token 1 none]
def noRoomW : State := load { tight with symCap := 1, tokCap := 2 } [] [97, 98] [lzwToken 0, lzwToken 1]

theorem test_witness_MemoriesAfterError :
    (∃ t, exec .lzwEnc unknown = .next t ∧ t.err = some .unknownSymbol) ∧
    (∃ t, exec .lzwEnc repeating = .next t ∧ t.err = some .invalidConfiguration) ∧
    tooLong.params.symCap < tooLong.symLen.toNat ∧ tooLong.params.alphaCap < tooLong.alphaLen.toNat ∧
    ((∃ t, exec .lz77Enc tightRun = .next t ∧ t.err = some .capacityExceeded) ∧
      tightRun.symLen.toNat ≤ tightRun.params.symCap ∧ 0 < tightRun.params.tokCap) ∧
    ((∃ t, exec .lzwEnc tightRun = .next t ∧ t.err = some .capacityExceeded) ∧
      tightRun.alphaLen.toNat ≤ tightRun.params.alphaCap) ∧
    (∃ t, exec .lz77Dec good78 = .next t ∧ t.err = some .corruptToken) ∧
    tooLong.params.tokCap < tooLong.tokLen.toNat ∧
    ((∃ t, exec .lz78Dec noRoom78 = .next t ∧ t.err = some .capacityExceeded) ∧
      noRoom78.tokLen.toNat ≤ noRoom78.params.tokCap ∧ 0 < noRoom78.params.symCap) ∧
    ((∃ t, exec .lzwDec noRoomW = .next t ∧ t.err = some .capacityExceeded) ∧
      noRoomW.tokLen.toNat ≤ noRoomW.params.tokCap ∧ noRoomW.alphaLen.toNat ≤ noRoomW.params.alphaCap) :=
  ⟨endsIn_next (by decide +kernel), endsIn_next (by decide +kernel), by decide, by decide,
    ⟨endsIn_next (by decide +kernel), by decide, by decide⟩, ⟨endsIn_next (by decide +kernel), by decide⟩,
    endsIn_next (by decide +kernel), by decide, ⟨endsIn_next (by decide +kernel), by decide, by decide⟩,
    ⟨endsIn_next (by decide +kernel), by decide, by decide⟩⟩

theorem test_witness_Lz77EncodeSucceeds :
    good77.symLen.toNat ≤ good77.params.symCap ∧ good77.symLen.toNat ≤ good77.params.tokCap ∧
    0 < good77.wsize.toInt ∧ 0 < good77.lsize.toInt := by decide

/-- The tokens of `"aaa"` fit; those of `"aba"` do not fit one entry. -/
theorem test_witness_Lz77EncodeIsTheParse :
    (good77.params.wf = true ∧ good77.symLen.toNat ≤ good77.params.symCap ∧ 0 < good77.wsize.toInt ∧
      0 < good77.lsize.toInt ∧
      lz77Parse good77.wsize.toNat good77.lsize.toNat good77.input 0 [lz77Token 0 0 (chr 0), lz77Token 1 1 (chr 0)] ∧
      2 ≤ good77.params.tokCap) ∧
    (tightRun.params.wf = true ∧ tightRun.symLen.toNat ≤ tightRun.params.symCap ∧ 0 < tightRun.wsize.toInt ∧
      0 < tightRun.lsize.toInt ∧
      lz77Parse tightRun.wsize.toNat tightRun.lsize.toNat tightRun.input 0
        [lz77Token 0 0 (chr 0), lz77Token 0 0 (chr 1), lz77Token 2 1 none] ∧ ¬ 3 ≤ tightRun.params.tokCap) := by
  have h1 : good77.input = [97#24, 97#24, 97#24] := by decide +kernel
  have h2 : tightRun.input = [97#24, 98#24, 97#24] := by decide +kernel
  rw [h1, h2]
  refine ⟨⟨by decide, by decide, by decide, by decide, ?_, by decide⟩,
    ⟨by decide, by decide, by decide, by decide, ?_, by decide⟩⟩ <;>
    · simp only [lz77Parse]
      decide +kernel

theorem test_witness_Lz77WindowIsAView :
    ∃ k', lz77EncStep roomy 4 2 [97#24, 97#24, 98#24] { pos := 1, win := [97#24], la := [97#24, 98#24], out := [] } = .ok k' ∧
    1 < ([97#24, 97#24, 98#24] : List Sym).length ∧
    ([97#24] : List Sym) = subseq [97#24, 97#24, 98#24] (1 - 4) 1 ∧
    ([97#24, 98#24] : List Sym) = subseq [97#24, 97#24, 98#24] 1 (min (1 + 2) 3) :=
  ⟨_, rfl, by decide, by decide, by decide⟩

theorem test_witness_Lz77EncoderOutput :
    good77.params.wf = true ∧ (∃ t, exec .lz77Enc good77 = .next t ∧ t.err = none) ∧
    (∃ t, exec .lz77Enc (load roomy [] [] []) = .next t ∧ t.err = none) :=
  ⟨by decide, endsIn_next (by decide +kernel), endsIn_next (by decide +kernel)⟩

theorem test_witness_Lz77DecodeRebuilds :
    good77.tokLen.toNat ≤ good77.params.tokCap ∧ 0 < good77.wsize.toInt ∧ 0 < good77.lsize.toInt ∧
    lz77StreamValid good77.params.symCap 0 good77.stream = true ∧
    good77.stream = [lz77Token 0 0 (chr 0)] ++ lz77Token 1 1 none :: [] := by decide +kernel

/-- The second token is bad: another engine's, from before the start, longer than its offset, or empty; or it has no
room. -/
theorem test_witness_Lz77DecodeFailsAtFirstBadToken :
    (∀ r ∈ [lz78Token 0 (chr 0), lz77Token 2 0 (chr 0), lz77Token 1 2 none, lz77Token 0 0 none],
      (load roomy [] [] [lz77Token 0 0 (chr 0), r]).stream = [lz77Token 0 0 (chr 0)] ++ r :: [] ∧
      lz77StreamValid roomy.symCap 0 [lz77Token 0 0 (chr 0)] = true ∧
      (r.tag ≠ 0#2 ∨ lz77Total [lz77Token 0 0 (chr 0)] < r.a.toNat ∨ r.a.toNat < r.b.toNat ∨
        (r.b.toNat = 0 ∧ r.symbol = none))) ∧
    noRoom77.tokLen.toNat ≤ noRoom77.params.tokCap ∧ 0 < noRoom77.wsize.toInt ∧ 0 < noRoom77.lsize.toInt ∧
    noRoom77.stream = [lz77Token 0 0 (chr 0)] ++ lz77Token 1 1 none :: [] ∧
    lz77StreamValid noRoom77.params.symCap 0 [lz77Token 0 0 (chr 0)] = true ∧
    lz77TokenValid (lz77Total [lz77Token 0 0 (chr 0)]) (lz77Token 1 1 none) = true ∧
    noRoom77.params.symCap < lz77Total [lz77Token 0 0 (chr 0)] + lz77Span (lz77Token 1 1 none) := by decide +kernel

theorem test_witness_Lz77DecodeIgnoresSizesAndOldSymbols :
    good77.params = ({ good77 with wsize := 1#32, lsize := 9#32, sym := Memory.unwritten 5 } : State).params ∧
    good77.stream = ({ good77 with wsize := 1#32, lsize := 9#32, sym := Memory.unwritten 5 } : State).stream ∧
    0 < good77.wsize.toInt ∧ 0 < good77.lsize.toInt ∧ 0 < (1#32 : Word).toInt ∧ 0 < (9#32 : Word).toInt ∧
    (∃ t, exec .lz77Dec good77 = .next t ∧ t.err = none) ∧
    (∃ t, exec .lz77Dec { good77 with wsize := 1#32, lsize := 9#32, sym := Memory.unwritten 5 } = .next t ∧
      t.err = none) :=
  ⟨rfl, rfl, by decide, by decide, by decide, by decide, endsIn_next (by decide +kernel),
    endsIn_next (by decide +kernel)⟩

theorem test_witness_Lz77RoundTrip :
    good77.params.wf = true ∧ (∃ t, exec .lz77Enc good77 = .next t ∧ t.err = none) ∧ 0 < (1#32 : Word).toInt ∧
    0 < (0x7FFFFFFF#32 : Word).toInt :=
  ⟨by decide, endsIn_next (by decide +kernel), by decide, by decide⟩

theorem test_witness_Lz78EncodeSucceeds :
    good78.symLen.toNat ≤ good78.params.symCap ∧ good78.symLen.toNat ≤ good78.params.tokCap ∧
    good78.symLen.toNat ≤ good78.params.dictCap := by decide

/-- `"aaa"` has two tokens: with room for two the input is longer than `TOK` and the dictionary, its parse is not. -/
def longer78 : State := load { roomy with tokCap := 2, dictCap := 2, alphaCap := 1 } [97, 97, 97] [] []

/-- 78-X1: `"abc"` with `DICT_CAP = 2`, and 78-X2: with `TOK_CAP = 2`. -/
def full78 (tokCap dictCap : Nat) : State :=
  load { roomy with tokCap := tokCap, dictCap := dictCap, alphaCap := 1 } [97, 98, 99] [] []

/-- Both cases of the parse; where it does not fit, the cursor is the `ERRINFO = 2` of the vectors. -/
theorem test_witness_Lz78EncodeSucceeds_parse :
    (longer78.symLen.toNat ≤ longer78.params.symCap ∧
      lz78Parse longer78.input [] 0 [lz78Token 0 (chr 0), lz78Token 1 (chr 0)] ∧
      2 ≤ min longer78.params.tokCap longer78.params.dictCap ∧ ¬ longer78.symLen.toNat ≤ longer78.params.tokCap) ∧
    (∀ d, d = full78 12 2 ∨ d = full78 2 12 → d.symLen.toNat ≤ d.params.symCap ∧
      lz78Parse d.input [] 0 [lz78Token 0 (chr 0), lz78Token 0 (chr 1), lz78Token 0 (chr 2)] ∧
      ¬ 3 ≤ min d.params.tokCap d.params.dictCap ∧
      (lz78Lens [] (List.take (min d.params.tokCap d.params.dictCap)
        [lz78Token 0 (chr 0), lz78Token 0 (chr 1), lz78Token 0 (chr 2)])).sum = 2 ∧
      runsTo .lz78Enc d 0x52#32 2#32 (fun t => decide (t.tokLen = 0#32)) = true) := by
  have h1 : longer78.input = [97#24, 97#24, 97#24] := by decide +kernel
  have h2 : (full78 12 2).input = [97#24, 98#24, 99#24] := by decide +kernel
  have h3 : (full78 2 12).input = [97#24, 98#24, 99#24] := by decide +kernel
  refine ⟨⟨by decide, ?_, by decide, by decide⟩, ?_⟩
  · rw [h1]
    simp only [lz78Parse]
    decide +kernel
  · rintro d (rfl | rfl)
    · refine ⟨by decide, ?_, by decide, by decide, by decide +kernel⟩
      rw [h2]
      simp only [lz78Parse]
      decide +kernel
    · refine ⟨by decide, ?_, by decide, by decide, by decide +kernel⟩
      rw [h3]
      simp only [lz78Parse]
      decide +kernel

theorem test_witness_Lz78EncoderOutput :
    good78.params.wf = true ∧ (∃ t, exec .lz78Enc good78 = .next t ∧ t.err = none) ∧
    (∃ t, exec .lz78Enc State.reset = .next t ∧ t.err = none) :=
  ⟨by decide, endsIn_next (by decide +kernel), endsIn_next (by decide +kernel)⟩

/-- `"aaa"`: two entries, both of tokens with a symbol. -/
theorem test_witness_Lz78DictionaryDistinctPrefixClosed :
    ∃ k, lz78EncLoop roomy [97#24, 97#24, 97#24] 3 { pos := 0, dict := [], out := [] } = .ok k ∧
      k.out = [lz78Token 0 (chr 0), lz78Token 1 (chr 0)] ∧ k.dict = [[97#24], [97#24, 97#24]] :=
  ⟨_, rfl, by decide +kernel, by decide +kernel⟩

theorem test_witness_Lz78DecodeRebuilds :
    good78.tokLen.toNat ≤ good78.params.tokCap ∧
    lz78StreamValid good78.params.symCap good78.params.dictCap [] good78.stream = true ∧
    good78.stream = [lz78Token 0 (chr 0)] ++ lz78Token 1 none :: [] := by decide +kernel

theorem test_witness_Lz78DecodeFailsAtFirstBadToken :
    (∀ r ∈ [lz77Token 0 0 (chr 0), lz78Token 2 (chr 0), lz78Token 0 none],
      (load roomy [] [] [lz78Token 0 (chr 0), r]).stream = [lz78Token 0 (chr 0)] ++ r :: [] ∧
      lz78StreamValid roomy.symCap roomy.dictCap [] [lz78Token 0 (chr 0)] = true ∧
      (r.tag ≠ 1#2 ∨ [lz78Token 0 (chr 0)].length < r.a.toNat ∨ (r.a.toNat = 0 ∧ r.symbol = none))) ∧
    noRoom78.tokLen.toNat ≤ noRoom78.params.tokCap ∧
    noRoom78.stream = [lz78Token 0 (chr 0)] ++ lz78Token 1 none :: [] ∧
    lz78StreamValid noRoom78.params.symCap noRoom78.params.dictCap [] [lz78Token 0 (chr 0)] = true ∧
    lz78TokenValid [lz78Token 0 (chr 0)].length (lz78Token 1 none) = true ∧
    noRoom78.params.symCap <
      (lz78Lens [] [lz78Token 0 (chr 0)]).sum + lz78Span (lz78Lens [] [lz78Token 0 (chr 0)]) (lz78Token 1 none) := by
  decide +kernel

/-- The second token's entry does not fit a dictionary of one. -/
theorem test_witness_Lz78DecodeFailsAtFirstBadToken_dictionary :
    (load { roomy with dictCap := 1, alphaCap := 1 } [] [] [lz78Token 0 (chr 0), lz78Token 1 none]).stream =
      [lz78Token 0 (chr 0)] ++ lz78Token 1 none :: [] ∧
    lz78StreamValid 12 1 [] [lz78Token 0 (chr 0)] = true ∧
    lz78TokenValid [lz78Token 0 (chr 0)].length (lz78Token 1 none) = true ∧
    1 ≤ [lz78Token 0 (chr 0)].length := by decide +kernel

theorem test_witness_Lz78DictionaryGrowsByOne :
    (∃ k', lz78EncStep roomy [97#24] { pos := 0, dict := [], out := [] } = .ok k') ∧
    (∃ k', lz78DecStep roomy 0 (lz78Token 0 (chr 0)) { dict := [], out := [] } = .ok k') ∧
    (∃ t, exec .lz78Enc good78 = .next t ∧ t.err = none) ∧ (∃ t, exec .lz78Dec good78 = .next t ∧ t.err = none) :=
  ⟨⟨_, rfl⟩, ⟨_, rfl⟩, endsIn_next (by decide +kernel), endsIn_next (by decide +kernel)⟩

theorem test_witness_Lz78RoundTrip :
    good78.params.wf = true ∧ ∃ t, exec .lz78Enc good78 = .next t ∧ t.err = none :=
  ⟨by decide, endsIn_next (by decide +kernel)⟩

theorem test_witness_LzwEncodeSucceeds :
    words.symLen.toNat ≤ words.params.symCap ∧ words.alphaLen.toNat ≤ words.params.alphaCap ∧
    1 ≤ words.alphaLen.toNat ∧
    (∀ a b, a < b → b < words.alphaLen.toNat → words.alphaAt a ≠ words.alphaAt b) ∧
    (∀ i, i < words.symLen.toNat → ∃ j, j < words.alphaLen.toNat ∧ words.symAt i = words.alphaAt j) ∧
    words.symLen.toNat ≤ words.params.tokCap ∧
    words.alphaLen.toNat + words.symLen.toNat ≤ words.params.dictCap + 1 :=
  ⟨by decide, by decide, by decide, words_distinct, by decide +kernel, by decide, by decide⟩

/-- `"aaa"` over `"ab"` has two tokens: with room for two tokens and three entries the input is longer than both, its
parse is not. -/
def longerW : State := load { roomy with tokCap := 2, dictCap := 3 } [97, 97, 97] [97, 98] []

/-- W-X7: `"abab"` over `"ab"` with `DICT_CAP = 3`: the second insertion finds the dictionary full. -/
def fullW : State := load { roomy with dictCap := 3 } [97, 98, 97, 98] [97, 98] []

/-- `"aaa"` over `"ab"` with `TOK_CAP = 1`: the flush, at `pos = N = 3`, finds `TOK` full. -/
def fullFlush : State := load { roomy with tokCap := 1 } [97, 97, 97] [97, 98] []

/-- The hypotheses on the alphabet and the input hold of these states. -/
theorem full_closed (s : State) (h : s ∈ [longerW, fullW, fullFlush]) :
    s.params.wf = true ∧ s.symLen.toNat ≤ s.params.symCap ∧ s.alphaLen.toNat ≤ s.params.alphaCap ∧
    1 ≤ s.alphaLen.toNat ∧ (∀ a b, a < b → b < s.alphaLen.toNat → s.alphaAt a ≠ s.alphaAt b) ∧
    (∀ i, i < s.symLen.toNat → ∃ j, j < s.alphaLen.toNat ∧ s.symAt i = s.alphaAt j) := by
  have h' : ∀ s ∈ [longerW, fullW, fullFlush],
      s.params.wf = true ∧ s.symLen.toNat ≤ s.params.symCap ∧ s.alphaLen.toNat ≤ s.params.alphaCap ∧
      1 ≤ s.alphaLen.toNat ∧ (∀ b, b < s.alphaLen.toNat → ∀ a, a < b → s.alphaAt a ≠ s.alphaAt b) ∧
      (∀ i, i < s.symLen.toNat → ∃ j, j < s.alphaLen.toNat ∧ s.symAt i = s.alphaAt j) := by decide +kernel
  obtain ⟨h1, h2, h3, h4, h5, h6⟩ := h' s h
  exact ⟨h1, h2, h3, h4, fun a b hab hb => h5 b hb a hab, h6⟩

/-- Both cases of the parse; where it does not fit, the place is the `ERRINFO` the rules give: 2 in W-X7, `N` for the
flush. -/
theorem test_witness_LzwEncodeSucceeds_parse :
    (lzwParseInput longerW.alphabet longerW.input [lzwToken 0, lzwToken 2] ∧ 2 ≤ longerW.params.tokCap ∧
      longerW.alphaLen.toNat + 2 ≤ longerW.params.dictCap + 1 ∧ ¬ longerW.symLen.toNat ≤ longerW.params.tokCap) ∧
    (lzwParseInput fullW.alphabet fullW.input [lzwToken 0, lzwToken 1, lzwToken 2] ∧
      ¬ fullW.alphaLen.toNat + 3 ≤ fullW.params.dictCap + 1 ∧
      (lzwLens 2 [] (List.take (min fullW.params.tokCap (fullW.params.dictCap - 2) + 1)
        [lzwToken 0, lzwToken 1, lzwToken 2])).sum = 2 ∧
      runsTo .lzwEnc fullW 0x52#32 2#32 (fun t => decide (t.tokLen = 0#32)) = true) ∧
    (lzwParseInput fullFlush.alphabet fullFlush.input [lzwToken 0, lzwToken 2] ∧ ¬ 2 ≤ fullFlush.params.tokCap ∧
      (lzwLens 2 [] (List.take (min fullFlush.params.tokCap (fullFlush.params.dictCap - 2) + 1)
        [lzwToken 0, lzwToken 2])).sum = 3 ∧
      runsTo .lzwEnc fullFlush 0x52#32 3#32 (fun t => decide (t.tokLen = 0#32)) = true) := by
  have a1 : longerW.alphabet = [97#24, 98#24] := by decide +kernel
  have a2 : fullW.alphabet = [97#24, 98#24] := by decide +kernel
  have a3 : fullFlush.alphabet = [97#24, 98#24] := by decide +kernel
  have i1 : longerW.input = [97#24, 97#24, 97#24] := by decide +kernel
  have i2 : fullW.input = [97#24, 98#24, 97#24, 98#24] := by decide +kernel
  have i3 : fullFlush.input = [97#24, 97#24, 97#24] := by decide +kernel
  refine ⟨⟨?_, by decide, by decide, by decide⟩, ⟨?_, by decide, by decide, by decide +kernel⟩,
    ⟨?_, by decide, by decide, by decide +kernel⟩⟩
  · rw [a1, i1]
    exact ⟨0, [lzwToken 2], by decide, rfl, 2, by decide, rfl⟩
  · rw [a2, i2]
    exact ⟨0, [lzwToken 1, lzwToken 2], by decide, rfl, 1, [lzwToken 2], by decide, rfl, 2, by decide, rfl⟩
  · rw [a3, i3]
    exact ⟨0, [lzwToken 2], by decide, rfl, 2, by decide, rfl⟩

theorem test_witness_LzwEncodeStep :
    (([97#24] ++ [97#24] : Phrase) ∈ [[97#24], [97#24, 97#24]]) ∧
    (([97#24] ++ [98#24] : Phrase) ∉ [[97#24], [98#24]]) ∧ ([] : List Token).length < roomy.tokCap ∧
    ([[97#24], [98#24]] : List Phrase).length < roomy.dictCap ∧
    ([[97#24], [98#24]] : List Phrase)[0]? = some [97#24] ∧ ([[97#24], [98#24]] : List Phrase).Nodup := by decide

theorem test_witness_LzwDictionaryDistinctPrefixClosed_start :
    ([97#24, 98#24] : List Sym).Nodup ∧ 98#24 ∈ ([97#24, 98#24] : List Sym) ∧
    ([97#24, 98#24] : List Sym)[1]? = some 98#24 := by decide

theorem test_witness_LzwDictionaryDistinctPrefixClosed :
    (∃ k', lzwEncStep roomy 1 98#24 { dict := [[97#24], [98#24]], cur := [97#24], out := [] } = .ok k') ∧
    ([[97#24], [98#24]] : List Phrase).Nodup ∧ ([97#24] : Phrase) ∈ ([[97#24], [98#24]] : List Phrase) ∧
    ([98#24] : Phrase) ∈ ([[97#24], [98#24]] : List Phrase) ∧
    ∀ ph ∈ ([[97#24], [98#24]] : List Phrase), ph.dropLast = [] ∨ ph.dropLast ∈ ([[97#24], [98#24]] : List Phrase) :=
  ⟨⟨_, rfl⟩, by decide, by decide, by decide, by decide⟩

theorem test_witness_LzwEncoderOutput :
    words.params.wf = true ∧ (∃ t, exec .lzwEnc words = .next t ∧ t.err = none) ∧
    (load roomy [97] [97, 98] []).symLen = 1#32 ∧
    (∃ t, exec .lzwEnc (load roomy [97] [97, 98] []) = .next t ∧ t.err = none) :=
  ⟨by decide, endsIn_next (by decide +kernel), by decide, endsIn_next (by decide +kernel)⟩

theorem test_witness_LzwDictionarySize :
    words.params.wf = true ∧ (∃ t, exec .lzwEnc words = .next t ∧ t.err = none) ∧
    goodW.params.wf = true ∧ (∃ t, exec .lzwDec goodW = .next t ∧ t.err = none) ∧
    (∃ k', lzwEncStep roomy 1 98#24 { dict := [[97#24], [98#24]], cur := [97#24], out := [] } = .ok k') ∧
    (∃ k', lzwDecStep roomy 0 (lzwToken 0) { dict := [[97#24], [98#24]], prev := none, out := [] } = .ok k') :=
  ⟨by decide, endsIn_next (by decide +kernel), by decide, endsIn_next (by decide +kernel), ⟨_, rfl⟩, ⟨_, rfl⟩⟩

/-- `0 2` over `"ab"`: token 1 has the code being defined. -/
theorem test_witness_LzwDecodeRebuilds :
    goodW.params.wf = true ∧ goodW.tokLen.toNat ≤ goodW.params.tokCap ∧
    goodW.alphaLen.toNat ≤ goodW.params.alphaCap ∧ 1 ≤ goodW.alphaLen.toNat ∧
    (∀ a b, a < b → b < goodW.alphaLen.toNat → goodW.alphaAt a ≠ goodW.alphaAt b) ∧
    lzwStreamValid goodW.params.symCap goodW.params.dictCap goodW.alphaLen.toNat [] goodW.stream = true ∧
    goodW.stream = [lzwToken 0] ++ lzwToken 2 :: [] ∧ goodW.stream = [] ++ lzwToken 0 :: [lzwToken 2] ∧
    (lzwToken 0).a.toNat < goodW.alphaLen.toNat ∧ goodW.alphaLen.toNat ≤ (lzwToken 2).a.toNat :=
  ⟨by decide, by decide, by decide, by decide,
    fun a b h1 h2 => (by decide +kernel : ∀ b, b < goodW.alphaLen.toNat → ∀ a, a < b →
      goodW.alphaAt a ≠ goodW.alphaAt b) b h2 a h1,
    by decide +kernel, by decide +kernel, by decide +kernel, by decide, by decide⟩

theorem test_witness_LzwDecodeStep :
    (lzwToken 0).tag = 2#2 ∧ ([[97#24], [98#24]] : List Phrase)[(lzwToken 0).a.toNat]? = some [97#24] ∧
    ([] : List Sym).length + ([97#24] : Phrase).length ≤ roomy.symCap ∧
    ([[97#24], [98#24]] : List Phrase).length < roomy.dictCap ∧
    (lzwToken 2).a.toNat = ([[97#24], [98#24]] : List Phrase).length ∧ ([97#24] : Phrase) ≠ [] ∧
    ([97#24] : List Sym).length + (([97#24] : Phrase).length + 1) ≤ roomy.symCap := by decide

/-- The second token is bad (another engine's, or above the next free code), or the first (the next free code). -/
theorem test_witness_LzwDecodeFailsAtFirstBadToken :
    (∀ r ∈ [lz77Token 0 0 (chr 0), lzwToken 3],
      (load roomy [] [97, 98] [lzwToken 0, r]).stream = [lzwToken 0] ++ r :: [] ∧
      lzwStreamValid roomy.symCap roomy.dictCap 2 [] [lzwToken 0] = true ∧
      (r.tag ≠ 2#2 ∨ ([lzwToken 0] ≠ [] ∧ 2 + [lzwToken 0].length - 1 < r.a.toNat))) ∧
    ((load roomy [] [97, 98] [lzwToken 2]).stream = [] ++ lzwToken 2 :: [] ∧ 2 ≤ (lzwToken 2).a.toNat ∧
      lzwStreamValid roomy.symCap roomy.dictCap 2 [] [] = true) := by decide +kernel

/-- The second token's symbol does not fit one entry of `SYM`; its entry does not fit a dictionary of the seeds only. -/
theorem test_witness_LzwDecodeFailsAtFirstBadToken_capacity :
    noRoomW.params.wf = true ∧ noRoomW.tokLen.toNat ≤ noRoomW.params.tokCap ∧
    noRoomW.alphaLen.toNat ≤ noRoomW.params.alphaCap ∧ 1 ≤ noRoomW.alphaLen.toNat ∧
    (∀ a b, a < b → b < noRoomW.alphaLen.toNat → noRoomW.alphaAt a ≠ noRoomW.alphaAt b) ∧
    noRoomW.stream = [lzwToken 0] ++ lzwToken 1 :: [] ∧
    lzwStreamValid noRoomW.params.symCap noRoomW.params.dictCap noRoomW.alphaLen.toNat [] [lzwToken 0] = true ∧
    lzwTokenValid noRoomW.alphaLen.toNat [lzwToken 0].length (lzwToken 1) = true ∧
    noRoomW.params.symCap < (lzwLens 2 [] [lzwToken 0]).sum + lzwSpan 2 (lzwLens 2 [] [lzwToken 0]) (lzwToken 1) ∧
    ([lzwToken 0] ≠ [] ∧ noRoomW.params.dictCap < noRoomW.alphaLen.toNat + [lzwToken 0].length) :=
  ⟨by decide, by decide, by decide, by decide,
    fun a b h1 h2 => (by decide +kernel : ∀ b, b < noRoomW.alphaLen.toNat → ∀ a, a < b →
      noRoomW.alphaAt a ≠ noRoomW.alphaAt b) b h2 a h1,
    by decide +kernel, by decide +kernel, by decide, by decide, by decide⟩

theorem test_witness_LzwRoundTrip :
    words.params.wf = true ∧ ∃ t, exec .lzwEnc words = .next t ∧ t.err = none :=
  ⟨by decide, endsIn_next (by decide +kernel)⟩

/-- Two states alike in the input, the alphabet and the sizes, and in nothing else. -/
def otherWords : State := { words with tok := Memory.unwritten 3, tokLen := 9#32, rlen := 5#32, done := true }

theorem test_witness_EncodeDependsOnlyOnItsInput :
    words.params = otherWords.params ∧ words.symLen = otherWords.symLen ∧
    (∀ j, j < words.symLen.toNat → words.symAt j = otherWords.symAt j) ∧
    words.wsize = otherWords.wsize ∧ words.lsize = otherWords.lsize ∧ words.alphaLen = otherWords.alphaLen ∧
    (∀ j, j < words.alphaLen.toNat → words.alphaAt j = otherWords.alphaAt j) ∧
    (∀ i ∈ [Instr.lz77Enc, .lz78Enc, .lzwEnc],
      (∃ t, exec i words = .next t ∧ t.err = none) ∧ (∃ t, exec i otherWords = .next t ∧ t.err = none)) := by
  refine ⟨rfl, rfl, fun _ _ => rfl, rfl, rfl, rfl, fun _ _ => rfl, fun i hi => ?_⟩
  have h : ∀ i ∈ [Instr.lz77Enc, .lz78Enc, .lzwEnc], endsIn i words none = true ∧ endsIn i otherWords none = true := by
    decide +kernel
  exact ⟨endsIn_next (h i hi).1, endsIn_next (h i hi).2⟩

theorem test_witness_DecodeDependsOnlyOnItsStream :
    (good78.params = ({ good78 with sym := Memory.unwritten 3 } : State).params ∧
      (∀ j, j < good78.tokLen.toNat → good78.tokAt j = ({ good78 with sym := Memory.unwritten 3 } : State).tokAt j) ∧
      (∃ t, exec .lz78Dec good78 = .next t ∧ t.err = none) ∧
      (∃ t, exec .lz78Dec { good78 with sym := Memory.unwritten 3 } = .next t ∧ t.err = none)) ∧
    ((∀ j, j < goodW.alphaLen.toNat →
        goodW.alphaAt j = ({ goodW with sym := Memory.unwritten 3 } : State).alphaAt j) ∧
      (∃ t, exec .lzwDec goodW = .next t ∧ t.err = none) ∧
      (∃ t, exec .lzwDec { goodW with sym := Memory.unwritten 3 } = .next t ∧ t.err = none)) :=
  ⟨⟨rfl, fun _ _ => rfl, endsIn_next (by decide +kernel), endsIn_next (by decide +kernel)⟩,
    fun _ _ => rfl, endsIn_next (by decide +kernel), endsIn_next (by decide +kernel)⟩

/-- A state that meets both invariants, is about to run a command, and has a next state. -/
def running : State := { words with script := [.wrReg 0 2#32, .rdReg 1] }

theorem test_witness_StepKeepsTheInstance : ∃ t, step running = .next t ∧ t.params = roomy := by
  obtain ⟨t, h1, h2⟩ := nextWith_next
    (by decide +kernel : nextWith (step running) (fun t => decide (t.params = roomy)) = true)
  exact ⟨t, h1, by simpa using h2⟩

theorem test_witness_StepKeepsMemoriesOk : running.memoriesOk = true ∧ ∃ t, step running = .next t ∧ t.done = true := by
  obtain ⟨t, h1, h2⟩ := nextWith_next (by decide +kernel : nextWith (step running) (fun t => t.done) = true)
  exact ⟨by decide +kernel, t, h1, h2⟩

theorem test_witness_StepKeepsStatusOk :
    running.params.wf = true ∧ running.statusOk = true ∧ ∃ t, step running = .next t ∧ t.done = true := by
  obtain ⟨t, h1, h2⟩ := nextWith_next (by decide +kernel : nextWith (step running) (fun t => t.done) = true)
  exact ⟨by decide, by decide +kernel, t, h1, h2⟩

end Sys2Proof.Tests
end

section
/-! PROOF. 00_scope.md: a command's result is a function of its inputs (R15, R42), and no step changes the parameters
(R9, R10, R20). The idea of the first two: two runs whose states agree on what a command reads meet the same tests and
hand the same result of the loop to the same end. -/

namespace Sys2Proof.Machine

/-! ### The ends of the commands keep the parameters and the script -/

@[simp] theorem finishEncode_params (r : Except Raise (List Token × Nat)) (s : State) :
    (State.finishEncode r s).params = s.params := by
  cases r <;> rfl

@[simp] theorem finishEncode_script (r : Except Raise (List Token × Nat)) (s : State) :
    (State.finishEncode r s).script = s.script := by
  cases r <;> rfl

@[simp] theorem finishDecode_params (r : Except Raise (List Sym × Nat)) (s : State) :
    (State.finishDecode r s).params = s.params := by
  cases r <;> rfl

@[simp] theorem finishDecode_script (r : Except Raise (List Sym × Nat)) (s : State) :
    (State.finishDecode r s).script = s.script := by
  cases r <;> rfl

/-- An encode ends with an error raised before the loop (R247, priorities 2 to 4), or with the loop's result. -/
theorem exec_encode_ends {i : Instr} {s t : State} (hi : i = .lz77Enc ∨ i = .lz78Enc ∨ i = .lzwEnc)
    (h : exec i s = .next t) :
    (∃ k x, t = State.raiseEncode k x s) ∨ ∃ r, t = State.finishEncode r s := by
  obtain rfl | rfl | rfl := hi
  · obtain ⟨-, ho⟩ | ⟨-, -, ho⟩ | ⟨-, -, -, ho⟩ := execLz77Enc_cases h <;> cases ho
    · exact .inl ⟨_, _, rfl⟩
    · exact .inl ⟨_, _, rfl⟩
    · exact .inr ⟨_, rfl⟩
  · obtain ⟨-, ho⟩ | ⟨-, ho⟩ := execLz78Enc_cases h <;> cases ho
    · exact .inl ⟨_, _, rfl⟩
    · exact .inr ⟨_, rfl⟩
  · obtain ⟨-, ho⟩ | ⟨-, -, ⟨-, ho⟩ | ⟨-, -, ⟨_, -, ho⟩ | ⟨-, ho⟩⟩⟩ := execLzwEnc_cases h <;> cases ho
    · exact .inl ⟨_, _, rfl⟩
    · exact .inl ⟨_, _, rfl⟩
    · exact .inl ⟨_, _, rfl⟩
    · exact .inr ⟨_, rfl⟩

/-- A decode ends with an error raised before the loop (R247, priorities 2 and 3), or with the loop's result. -/
theorem exec_decode_ends {i : Instr} {s t : State} (hi : i = .lz77Dec ∨ i = .lz78Dec ∨ i = .lzwDec)
    (h : exec i s = .next t) :
    (∃ k x, t = State.raiseDecode k x s) ∨ ∃ r, t = State.finishDecode r s := by
  obtain rfl | rfl | rfl := hi
  · obtain ⟨-, ho⟩ | ⟨-, -, ho⟩ | ⟨-, -, -, ho⟩ := execLz77Dec_cases h <;> cases ho
    · exact .inl ⟨_, _, rfl⟩
    · exact .inl ⟨_, _, rfl⟩
    · exact .inr ⟨_, rfl⟩
  · obtain ⟨-, ho⟩ | ⟨-, ho⟩ := execLz78Dec_cases h <;> cases ho
    · exact .inl ⟨_, _, rfl⟩
    · exact .inr ⟨_, rfl⟩
  · obtain ⟨-, ho⟩ | ⟨-, -, ⟨-, ho⟩ | ⟨-, -, ho⟩⟩ := execLzwDec_cases h <;> cases ho
    · exact .inl ⟨_, _, rfl⟩
    · exact .inl ⟨_, _, rfl⟩
    · exact .inr ⟨_, rfl⟩

/-- A query ends with `CapacityExceeded(0)`, or with a length and an offset. -/
theorem exec_query_ends {i : Instr} {s t : State} (hi : i = .sbLpm ∨ i = .sbSlice) (h : exec i s = .next t) :
    (∃ k x, t = State.raiseQuery k x s) ∨ ∃ len off, t = State.finishQuery len off s := by
  obtain rfl | rfl := hi
  · obtain ⟨-, ho⟩ | ⟨-, _, _, ho⟩ := execSbLpm_cases h <;> cases ho
    · exact .inl ⟨_, _, rfl⟩
    · exact .inr ⟨_, _, rfl⟩
  · obtain ⟨-, ho⟩ | ⟨-, ho⟩ := execSbSlice_cases h <;> cases ho
    · exact .inl ⟨_, _, rfl⟩
    · exact .inr ⟨_, _, rfl⟩

/-- `t` has the parameters of `s` and the host operations `s` has still to perform. -/
def State.keepsInstance (s t : State) : Prop := t.params = s.params ∧ t.script = s.script

theorem writeReg_keepsInstance (i : Nat) (v : Word) (s : State) : s.keepsInstance (State.writeReg i v s) := by
  unfold State.writeReg
  split <;> exact ⟨rfl, rfl⟩

theorem writeSym_keepsInstance (i v : Nat) (s : State) : s.keepsInstance (State.writeSym i v s) := by
  unfold State.writeSym
  split <;> exact ⟨rfl, rfl⟩

theorem writeTok_keepsInstance (i : Nat) (r : Record) (s : State) : s.keepsInstance (State.writeTok i r s) := by
  unfold State.writeTok
  split <;> exact ⟨rfl, rfl⟩

theorem writeAlpha_keepsInstance (i v : Nat) (s : State) : s.keepsInstance (State.writeAlpha i v s) := by
  unfold State.writeAlpha
  split <;> exact ⟨rfl, rfl⟩

theorem exec_keepsInstance {i : Instr} {s t : State} (h : exec i s = .next t) : s.keepsInstance t := by
  cases i with
  | lz77Enc | lz78Enc | lzwEnc =>
    obtain ⟨k, x, rfl⟩ | ⟨r, rfl⟩ := exec_encode_ends (by decide) h <;> simp [State.keepsInstance]
  | lz77Dec | lz78Dec | lzwDec =>
    obtain ⟨k, x, rfl⟩ | ⟨r, rfl⟩ := exec_decode_ends (by decide) h <;> simp [State.keepsInstance]
  | sbLpm | sbSlice =>
    obtain ⟨k, x, rfl⟩ | ⟨len, off, rfl⟩ := exec_query_ends (by decide) h <;> simp [State.keepsInstance]

theorem issue_keepsInstance {w : Word} {s t : State} (h : State.issue w s = .next t) : s.keepsInstance t := by
  obtain ⟨i, -, hi⟩ | ⟨-, hi⟩ := issue_cases w s
  · exact exec_keepsInstance (s := s.start) (hi ▸ h)
  · rw [hi] at h
    cases h
    exact ⟨rfl, rfl⟩

theorem perform_keepsInstance {op : HostOp} {s t : State} (h : op.perform s = .next t) : s.keepsInstance t := by
  cases op with
  | rdReg | rdSym | rdTok | rdAlpha | reset => cases h; exact ⟨rfl, rfl⟩
  | wrReg i v =>
    simp only [HostOp.perform, State.hostWriteReg] at h
    split at h
    · exact issue_keepsInstance h
    · cases h; exact writeReg_keepsInstance i v s
  | wrSym i v => cases h; exact writeSym_keepsInstance i v s
  | wrTok i r => cases h; exact writeTok_keepsInstance i r s
  | wrAlpha i v => cases h; exact writeAlpha_keepsInstance i v s

/-- Settles O57, by the cases of a step: an idle one changes nothing, any other performs the operation at the head of
the script on the state that has the rest of it. -/
theorem stepKeepsTheInstance : Obligations.StepKeepsTheInstance := by
  intro s t h
  obtain ⟨hs, ho⟩ | ⟨op, rest, -, -, -, ho⟩ | ⟨op, rest, hs, -, hp⟩ := step_cases h
  · cases ho; simp [hs]
  · cases ho
  · obtain ⟨hpar, hscr⟩ := perform_keepsInstance hp
    exact ⟨hpar, by simp [hscr, hs]⟩

/-! ### Two runs of one command -/

/-- Both outcomes are next states, and these are related by `R`. -/
def bothNext (R : State → State → Prop) (o₁ o₂ : Host.Outcome State Fault Refusal) : Prop :=
  ∃ t₁ t₂, o₁ = .next t₁ ∧ o₂ = .next t₂ ∧ R t₁ t₂

theorem bothNext.of_eq {R : State → State → Prop} {o₁ o₂ : Host.Outcome State Fault Refusal} {t₁ t₂ : State}
    (h : bothNext R o₁ o₂) (h₁ : o₁ = .next t₁) (h₂ : o₂ = .next t₂) : R t₁ t₂ := by
  obtain ⟨u₁, u₂, rfl, rfl, hR⟩ := h
  cases h₁
  cases h₂
  exact hR

/-- Two outcomes that branch on one test are related when they are on both branches. -/
theorem bothNext.ite {R : State → State → Prop} {c : Prop} [Decidable c]
    {o₁ o₂ u₁ u₂ : Host.Outcome State Fault Refusal} (ho : bothNext R o₁ o₂) (hu : bothNext R u₁ u₂) :
    bothNext R (if c then o₁ else u₁) (if c then o₂ else u₂) := by
  split
  · exact ho
  · exact hu

/-- The states show the same result of an encode. -/
def State.sameEncodeResult (t₁ t₂ : State) : Prop :=
  t₁.err = t₂.err ∧ t₁.errinfo = t₂.errinfo ∧ t₁.tokLen = t₂.tokLen ∧ t₁.dcount = t₂.dcount ∧
  (t₁.err = none → ∀ j, j < t₁.tokLen.toNat → t₁.tokAt j = t₂.tokAt j)

/-- The states show the same result of a decode. -/
def State.sameDecodeResult (t₁ t₂ : State) : Prop :=
  t₁.err = t₂.err ∧ t₁.errinfo = t₂.errinfo ∧ t₁.symLen = t₂.symLen ∧ t₁.dcount = t₂.dcount ∧
  (t₁.err = none → ∀ j, j < t₁.symLen.toNat → t₁.symAt j = t₂.symAt j)

theorem raiseEncode_sameEncodeResult (k : ErrKind) (x : Word) {s₁ s₂ : State} :
    bothNext State.sameEncodeResult (.next (State.raiseEncode k x s₁)) (.next (State.raiseEncode k x s₂)) :=
  ⟨_, _, rfl, rfl, by simp [State.sameEncodeResult]⟩

theorem raiseDecode_sameDecodeResult (k : ErrKind) (x : Word) {s₁ s₂ : State} :
    bothNext State.sameDecodeResult (.next (State.raiseDecode k x s₁)) (.next (State.raiseDecode k x s₂)) :=
  ⟨_, _, rfl, rfl, by simp [State.sameDecodeResult]⟩

/-- An index below the number a word was made of: the word may have wrapped, so the number is at least its value. -/
theorem lt_of_lt_ofNum_toNat {j n : Nat} (h : j < (Word.ofNum n).toNat) : j < n := by
  rw [BitVec.toNat_ofNat] at h
  exact Nat.lt_of_lt_of_le h (Nat.mod_le _ _)

/-- A written token, where `TOK` has the entry (R62, R251): nothing of the state but its capacity is read. -/
theorem tokAt_finishEncode_written (toks : List Token) (d : Nat) (s : State) {j : Nat} (h : j < toks.length) :
    (State.finishEncode (.ok (toks, d)) s).tokAt j = if j < s.params.tokCap then toks[j] else zeroToken := by
  simp [State.tokAt, finishEncode_ok, Memory.read_writeFrom, h]

/-- A written symbol, where `SYM` has the entry (R62, R251): nothing of the state but its capacity is read. -/
theorem symAt_finishDecode_written (syms : List Sym) (d : Nat) (s : State) {j : Nat} (h : j < syms.length) :
    (State.finishDecode (.ok (syms, d)) s).symAt j = if j < s.params.symCap then syms[j] else 0#24 := by
  simp [State.symAt, finishDecode_ok, Memory.read_writeFrom, h]

/-- One result of the loop ends two encodes under one set of parameters alike. -/
theorem finishEncode_sameEncodeResult (r : Except Raise (List Token × Nat)) {s₁ s₂ : State}
    (hp : s₁.params = s₂.params) :
    bothNext State.sameEncodeResult (.next (State.finishEncode r s₁)) (.next (State.finishEncode r s₂)) := by
  refine ⟨_, _, rfl, rfl, ?_⟩
  cases r with
  | error e => simp [State.sameEncodeResult, finishEncode_error]
  | ok x =>
    obtain ⟨toks, d⟩ := x
    refine ⟨rfl, rfl, rfl, rfl, fun _ j hj => ?_⟩
    have hj' : j < toks.length := lt_of_lt_ofNum_toNat hj
    rw [tokAt_finishEncode_written _ _ _ hj', tokAt_finishEncode_written _ _ _ hj', hp]

/-- One result of the loop ends two decodes under one set of parameters alike. -/
theorem finishDecode_sameDecodeResult (r : Except Raise (List Sym × Nat)) {s₁ s₂ : State}
    (hp : s₁.params = s₂.params) :
    bothNext State.sameDecodeResult (.next (State.finishDecode r s₁)) (.next (State.finishDecode r s₂)) := by
  refine ⟨_, _, rfl, rfl, ?_⟩
  cases r with
  | error e => simp [State.sameDecodeResult, finishDecode_error]
  | ok x =>
    obtain ⟨syms, d⟩ := x
    refine ⟨rfl, rfl, rfl, rfl, fun _ j hj => ?_⟩
    have hj' : j < syms.length := lt_of_lt_ofNum_toNat hj
    rw [symAt_finishDecode_written _ _ _ hj', symAt_finishDecode_written _ _ _ hj', hp]

/-! The views a command reads are equal when their lengths and entries are. -/

theorem input_congr {s₁ s₂ : State} (hl : s₁.symLen = s₂.symLen)
    (h : ∀ j, j < s₁.symLen.toNat → s₁.symAt j = s₂.symAt j) : s₁.input = s₂.input :=
  List.ext_getElem (by simp [hl]) fun j h₁ h₂ => by simpa using h j (by simpa using h₁)

theorem stream_congr {s₁ s₂ : State} (hl : s₁.tokLen = s₂.tokLen)
    (h : ∀ j, j < s₁.tokLen.toNat → s₁.tokAt j = s₂.tokAt j) : s₁.stream = s₂.stream :=
  List.ext_getElem (by simp [hl]) fun j h₁ h₂ => by simpa using h j (by simpa using h₁)

theorem alphabet_congr {s₁ s₂ : State} (hl : s₁.alphaLen = s₂.alphaLen)
    (h : ∀ j, j < s₁.alphaLen.toNat → s₁.alphaAt j = s₂.alphaAt j) : s₁.alphabet = s₂.alphabet :=
  List.ext_getElem (by simp [hl]) fun j h₁ h₂ => by simpa using h j (by simpa using h₁)

section
variable {s₁ s₂ : State} (hp : s₁.params = s₂.params)
include hp

theorem execLz77Enc_sameEncodeResult (hl : s₁.symLen = s₂.symLen) (hin : s₁.input = s₂.input)
    (hw : s₁.wsize = s₂.wsize) (hla : s₁.lsize = s₂.lsize) :
    bothNext State.sameEncodeResult (execLz77Enc s₁) (execLz77Enc s₂) := by
  simp only [execLz77Enc, State.symLenTooLong, State.sizesValid, hp, hl, hin, hw, hla]
  exact .ite (raiseEncode_sameEncodeResult _ _) <|
    .ite (raiseEncode_sameEncodeResult _ _) (finishEncode_sameEncodeResult _ hp)

theorem execLz78Enc_sameEncodeResult (hl : s₁.symLen = s₂.symLen) (hin : s₁.input = s₂.input) :
    bothNext State.sameEncodeResult (execLz78Enc s₁) (execLz78Enc s₂) := by
  simp only [execLz78Enc, State.symLenTooLong, hp, hl, hin]
  exact .ite (raiseEncode_sameEncodeResult _ _) (finishEncode_sameEncodeResult _ hp)

theorem execLzwEnc_sameEncodeResult (hl : s₁.symLen = s₂.symLen) (hin : s₁.input = s₂.input)
    (ha : s₁.alphaLen = s₂.alphaLen) (hal : s₁.alphabet = s₂.alphabet) :
    bothNext State.sameEncodeResult (execLzwEnc s₁) (execLzwEnc s₂) := by
  simp only [execLzwEnc, State.symLenTooLong, State.alphaLenTooLong, hp, hl, hin, ha, hal]
  refine .ite (raiseEncode_sameEncodeResult _ _) (.ite (raiseEncode_sameEncodeResult _ _) ?_)
  cases firstUnknown s₂.alphabet s₂.input 0 with
  | some i => exact raiseEncode_sameEncodeResult _ _
  | none => exact finishEncode_sameEncodeResult _ hp

theorem execLz78Dec_sameDecodeResult (hl : s₁.tokLen = s₂.tokLen) (hst : s₁.stream = s₂.stream) :
    bothNext State.sameDecodeResult (execLz78Dec s₁) (execLz78Dec s₂) := by
  simp only [execLz78Dec, State.tokLenTooLong, hp, hl, hst]
  exact .ite (raiseDecode_sameDecodeResult _ _) (finishDecode_sameDecodeResult _ hp)

theorem execLzwDec_sameDecodeResult (hl : s₁.tokLen = s₂.tokLen) (hst : s₁.stream = s₂.stream)
    (ha : s₁.alphaLen = s₂.alphaLen) (hal : s₁.alphabet = s₂.alphabet) :
    bothNext State.sameDecodeResult (execLzwDec s₁) (execLzwDec s₂) := by
  simp only [execLzwDec, State.tokLenTooLong, State.alphaLenTooLong, hp, hl, hst, ha, hal]
  exact .ite (raiseDecode_sameDecodeResult _ _) <|
    .ite (raiseDecode_sameDecodeResult _ _) (finishDecode_sameDecodeResult _ hp)

end

/-- Settles O55, command by command: equal views meet the same tests and give the loop the same arguments. -/
theorem encodeDependsOnlyOnItsInput : Obligations.EncodeDependsOnlyOnItsInput := by
  intro i s₁ s₂ t₁ t₂ hi hp hl hsym hsizes halpha h₁ h₂
  have hin : s₁.input = s₂.input := input_congr hl hsym
  obtain rfl | rfl | rfl := hi
  · obtain ⟨hw, hla⟩ := hsizes rfl
    exact (execLz77Enc_sameEncodeResult hp hl hin hw hla).of_eq h₁ h₂
  · exact (execLz78Enc_sameEncodeResult hp hl hin).of_eq h₁ h₂
  · obtain ⟨ha, hal⟩ := halpha rfl
    exact (execLzwEnc_sameEncodeResult hp hl hin ha (alphabet_congr ha hal)).of_eq h₁ h₂

/-- Settles O56, command by command: equal views meet the same tests and give the loop the same arguments. -/
theorem decodeDependsOnlyOnItsStream : Obligations.DecodeDependsOnlyOnItsStream := by
  intro i s₁ s₂ t₁ t₂ hi hp hl htok halpha h₁ h₂
  have hst : s₁.stream = s₂.stream := stream_congr hl htok
  obtain rfl | rfl := hi
  · exact (execLz78Dec_sameDecodeResult hp hl hst).of_eq h₁ h₂
  · obtain ⟨ha, hal⟩ := halpha rfl
    exact (execLzwDec_sameDecodeResult hp hl hst ha (alphabet_congr ha hal)).of_eq h₁ h₂

end Sys2Proof.Machine
end

section
/-! PROOF. What the engines hand to the end of a command, for every command at once: the output fits its memory and
holds only symbols the command read (10_state.md R33, R34), the dictionary is within its capacity (R27), and an error of
the loop carries an `info` its kind allows (60_exceptions.md R241 to R246). The idea: one invariant per loop, of which
each step lemma of Laws/Engines.lean gives the preservation. -/

namespace Sys2Proof.Machine

open Sys2Proof.Config

/-! ### The contract of a result -/

/-- The result is an error of which `E` holds, or a value of which `P` holds. -/
def resultMeets {α : Type} (E : Raise → Prop) (P : α → Prop) : Except Raise α → Prop
  | .error e => E e
  | .ok a => P a

theorem resultMeets.bind {α β : Type} {E : Raise → Prop} {P : α → Prop} {Q : β → Prop} {r : Except Raise α}
    {f : α → Except Raise β} (hr : resultMeets E P r) (hf : ∀ a, P a → resultMeets E Q (f a)) :
    resultMeets E Q (r.bind f) := by
  cases r with
  | error e => exact hr
  | ok a => exact hf a hr

/-- What `ERRINFO` may hold beside the kind of a `raise` (R241, R246), as `State.errinfoOk` has it. -/
def Raise.allowed (p : Params) (e : Raise) : Prop :=
  match e.kind with
  | .unknownSymbol => e.info.toNat < p.symCap
  | .corruptToken => e.info.toNat < p.tokCap
  | .invalidConfiguration => e.info = 0#32
  | .illegalCommand => 8 ≤ e.info.toNat
  | .capacityExceeded => e.info.toNat ≤ p.symCap ∨ e.info.toNat < p.tokCap

theorem errinfoOk_raise {k : ErrKind} {x : Word} {s : State} :
    (State.raise k x s).errinfoOk = true ↔ Raise.allowed s.params { kind := k, info := x } := by
  cases k with
  | unknownSymbol | corruptToken | invalidConfiguration | illegalCommand => exact decide_eq_true_iff
  | capacityExceeded => exact Bool.or_eq_true_iff.trans (or_congr decide_eq_true_iff decide_eq_true_iff)

/-- A word is at most the number it was made of. -/
theorem toNat_ofNum_le (n : Nat) : (Word.ofNum n).toNat ≤ n := by
  rw [BitVec.toNat_ofNat]
  exact Nat.mod_le _ _

/-- The output and the dictionary size of an engine: at most `cap` entries, each of them `good`, and under legal
parameters (R10) at most `DICT_CAP` dictionary entries. -/
structure OutputOk {α : Type} (p : Params) (cap : Nat) (good : α → Prop) (out : List α) (size : Nat) : Prop where
  length_le : out.length ≤ cap
  good_of_mem : ∀ x ∈ out, good x
  size_le : p.wf = true → size ≤ p.dictCap

section
variable {α : Type} {p : Params} {cap size size' : Nat} {good : α → Prop} {out new : List α}

theorem OutputOk.nil (hs : p.wf = true → size ≤ p.dictCap) : OutputOk p cap good [] size :=
  ⟨Nat.zero_le _, by simp, hs⟩

theorem OutputOk.append (h : OutputOk p cap good out size) (hlen : out.length + new.length ≤ cap)
    (hnew : ∀ x ∈ new, good x) (hs : p.wf = true → size' ≤ p.dictCap) : OutputOk p cap good (out ++ new) size' :=
  ⟨by simpa using hlen, fun x hx => (List.mem_append.mp hx).elim (h.good_of_mem x) (hnew x), hs⟩

/-- One element more, where the output is not full. -/
theorem OutputOk.snoc {x : α} (h : OutputOk p cap good out size) (hfull : out.length ≠ cap) (hx : good x)
    (hs : p.wf = true → size' ≤ p.dictCap) : OutputOk p cap good (out ++ [x]) size' :=
  h.append (by have := h.length_le; simp; omega) (by simpa using hx) hs

/-- There is room for one more entry in a dictionary that is not full. -/
theorem OutputOk.size_succ_le (h : OutputOk p cap good out size) (hfull : size ≠ p.dictCap) :
    p.wf = true → size + 1 ≤ p.dictCap :=
  fun hp => by have := h.size_le hp; omega

end

/-! ### The invariant rule of a loop -/

/-- The rule for the loops over a list: what every step keeps, the loop keeps. -/
theorem listLoop_meets {α β : Type} {loop : List α → Nat → β → Except Raise β} {step : Nat → α → β → Except Raise β}
    (hnil : ∀ i k, loop [] i k = .ok k)
    (hcons : ∀ x xs i k, loop (x :: xs) i k = (step i x k).bind (loop xs (i + 1)))
    {E : Raise → Prop} {P : β → Prop} (xs : List α) : ∀ (i : Nat) (k : β),
    (∀ j x k, j < i + xs.length → x ∈ xs → P k → resultMeets E P (step j x k)) → P k →
    resultMeets E P (loop xs i k) := by
  induction xs with
  | nil => intro i k _ hk; rw [hnil]; exact hk
  | cons x xs ih =>
    intro i k hstep hk
    rw [hcons]
    refine (hstep i x k (by simp) (by simp) hk).bind fun k' hk' => ih (i + 1) k' (fun j y k hj hy => ?_) hk'
    exact hstep j y k (by simp only [List.length_cons]; omega) (List.mem_cons_of_mem x hy)

/-- The rule for the loops that count their iterations and go on while `go` holds. -/
theorem whileLoop_meets {β : Type} {loop : Nat → β → Except Raise β} {step : β → Except Raise β} {go : β → Prop}
    (hstop : ∀ n k, ¬ go k → loop n k = .ok k) (hzero : ∀ k, loop 0 k = .ok k)
    (hsucc : ∀ n k, go k → loop (n + 1) k = (step k).bind (loop n))
    {E : Raise → Prop} {P : β → Prop} (hstep : ∀ k, go k → P k → resultMeets E P (step k)) (n : Nat) :
    ∀ k, P k → resultMeets E P (loop n k) := by
  induction n with
  | zero => intro k hk; rw [hzero]; exact hk
  | succ n ih =>
    intro k hk
    by_cases hg : go k
    · rw [hsucc n k hg]
      exact (hstep k hg hk).bind ih
    · rw [hstop _ k hg]
      exact hk

/-! ### Symbols -/

section
variable {p : Params} {ok : Sym → Prop} (h0 : ok 0#24)
include h0

/-- The symbol of a token an encoder makes is one of the input, or 0. -/
theorem mkToken_sym_ok {input : List Sym} (hin : ∀ x ∈ input, ok x) (tag : BitVec 2) (a b i : Nat) :
    ok (mkToken tag a b input[i]?).sym := by
  cases h : input[i]? with
  | none => exact h0
  | some x => exact hin x (List.mem_of_getElem? h)

theorem lz77Emission_sym_ok {input : List Sym} (hin : ∀ x ∈ input, ok x) (pos len off : Nat) :
    ok (lz77Emission input pos len off).1.sym := by
  unfold lz77Emission
  split
  · have h := mkToken_sym_ok h0 hin tagLz77 off len (pos + len)
    cases hx : input[pos + len]? <;> simpa [lz77Token, hx] using h
  · exact mkToken_sym_ok h0 hin tagLz77 0 0 pos

end

theorem optSym_ok {ok : Sym → Prop} {r : Token} (hr : ok r.sym) : ∀ x ∈ optSym r.symbol, ok x := by
  cases h : r.hasSym <;> simp [Token.symbol, optSym, h, hr]

/-- Every symbol of every phrase of the dictionary is `ok`. -/
def phrasesOk (ok : Sym → Prop) (dict : List Phrase) : Prop := ∀ ph ∈ dict, ∀ x ∈ ph, ok x

theorem phrasesOk.snoc {ok : Sym → Prop} {dict : List Phrase} {ph : Phrase} (hd : phrasesOk ok dict)
    (hp : ∀ x ∈ ph, ok x) : phrasesOk ok (dict ++ [ph]) := by
  intro q hq
  obtain hq | hq := List.mem_append.mp hq
  · exact hd q hq
  · exact List.mem_singleton.mp hq ▸ hp

theorem phrasesOk_seeds {ok : Sym → Prop} {alpha : List Sym} (ha : ∀ x ∈ alpha, ok x) :
    phrasesOk ok (lzwSeeds alpha) := by
  simpa [phrasesOk, lzwSeeds] using ha

theorem lz78Phrase_ok {ok : Sym → Prop} {dict : List Phrase} (hd : phrasesOk ok dict) (k : Nat) :
    ∀ x ∈ lz78Phrase dict k, ok x := by
  cases k with
  | zero => simp [lz78Phrase]
  | succ j =>
    simp only [lz78Phrase, List.getD_eq_getElem?_getD]
    cases h : dict[j]? with
    | none => simp
    | some ph => exact hd ph (List.mem_of_getElem? h)

theorem snoc_firstSym_ok {ok : Sym → Prop} {q ph : Phrase} (hq : ∀ x ∈ q, ok x) (hp : ∀ x ∈ ph, ok x) :
    ∀ x ∈ q ++ firstSym ph, ok x :=
  fun x hx => (List.mem_append.mp hx).elim (hq x) fun h => hp x (List.mem_of_mem_take h)

theorem lzwResolve_ok {ok : Sym → Prop} {dict : List Phrase} {prev : Option Phrase} {k : Nat} {ph : Phrase}
    (hd : phrasesOk ok dict) (hprev : ∀ q, prev = some q → ∀ x ∈ q, ok x)
    (h : lzwResolve dict prev k = some ph) : ∀ x ∈ ph, ok x := by
  unfold lzwResolve at h
  split at h
  · exact hd ph (List.mem_of_getElem? h)
  · split at h
    · obtain ⟨q, hq, rfl⟩ := Option.map_eq_some_iff.mp h
      exact snoc_firstSym_ok (hprev q hq) (hprev q hq)
    · cases h

/-! ### The engines as chains of steps -/

section
variable (p : Params)

/-- An iteration of the loop of R140, while there is input. -/
theorem lz77EncLoop_succ (w l : Nat) {input : List Sym} (n : Nat) (k : Lz77EncWork) (h : k.pos < input.length) :
    lz77EncLoop p w l input (n + 1) k = (lz77EncStep p w l input k).bind (lz77EncLoop p w l input n) := by
  cases hs : lz77EncStep p w l input k <;> simp [lz77EncLoop, h, hs, Except.bind]

theorem lz77EncLoop_stop (w l : Nat) {input : List Sym} (n : Nat) (k : Lz77EncWork) (h : ¬ k.pos < input.length) :
    lz77EncLoop p w l input n k = .ok k := by
  cases n <;> simp [lz77EncLoop, h]

theorem lz77Encode_eq_bind (w l : Nat) (input : List Sym) :
    lz77Encode p w l input =
      (lz77EncLoop p w l input input.length (lz77EncInit l input)).bind fun k => .ok (k.out, 0) := by
  cases h : lz77EncLoop p w l input input.length (lz77EncInit l input) <;> simp [lz77Encode, h, Except.bind]

/-- An iteration of the loop of R170, while there is input. -/
theorem lz78EncLoop_succ {input : List Sym} (n : Nat) (k : Lz78EncWork) (h : k.pos < input.length) :
    lz78EncLoop p input (n + 1) k = (lz78EncStep p input k).bind (lz78EncLoop p input n) := by
  cases hs : lz78EncStep p input k <;> simp [lz78EncLoop, h, hs, Except.bind]

theorem lz78EncLoop_stop {input : List Sym} (n : Nat) (k : Lz78EncWork) (h : ¬ k.pos < input.length) :
    lz78EncLoop p input n k = .ok k := by
  cases n <;> simp [lz78EncLoop, h]

theorem lz78Encode_eq_bind (input : List Sym) :
    lz78Encode p input = (lz78EncLoop p input input.length { pos := 0, dict := [], out := [] }).bind
      fun k => .ok (k.out, k.dict.length) := by
  cases h : lz78EncLoop p input input.length { pos := 0, dict := [], out := [] } <;>
    simp [lz78Encode, h, Except.bind]

theorem lzwEncLoop_cons (c : Sym) (rest : List Sym) (pos : Nat) (k : LzwEncWork) :
    lzwEncLoop p (c :: rest) pos k = (lzwEncStep p pos c k).bind (lzwEncLoop p rest (pos + 1)) := by
  cases h : lzwEncStep p pos c k <;> simp [lzwEncLoop, h, Except.bind]

/-- The flush (R198): the last token, of the accumulator. -/
def lzwEncFlush (n : Nat) (k : LzwEncWork) : Except Raise (List Token) :=
  emit p.tokCap n (lzwToken (codeOf k.dict k.cur)) k.out

theorem lzwEncode_cons (alpha : List Sym) (c : Sym) (rest : List Sym) :
    lzwEncode p alpha (c :: rest) = (lzwEncLoop p rest 1 (lzwEncInit alpha c)).bind
      fun k => (lzwEncFlush p (c :: rest).length k).bind fun out => .ok (out, k.dict.length) := by
  simp only [lzwEncode, lzwEncFlush]
  cases lzwEncLoop p rest 1 (lzwEncInit alpha c) with
  | error e => rfl
  | ok k => cases h : emit p.tokCap (c :: rest).length (lzwToken (codeOf k.dict k.cur)) k.out <;>
      simp only [h, Except.bind]

theorem lz77DecLoop_cons (r : Token) (rest : List Token) (t : Nat) (out : List Sym) :
    lz77DecLoop p (r :: rest) t out = (lz77DecStep p t r out).bind (lz77DecLoop p rest (t + 1)) := by
  cases h : lz77DecStep p t r out <;> simp [lz77DecLoop, h, Except.bind]

theorem lz77Decode_eq_bind (toks : List Token) :
    lz77Decode p toks = (lz77DecLoop p toks 0 []).bind fun out => .ok (out, 0) := by
  cases h : lz77DecLoop p toks 0 [] <;> simp [lz77Decode, h, Except.bind]

theorem lz78DecLoop_cons (r : Token) (rest : List Token) (t : Nat) (w : Lz78DecWork) :
    lz78DecLoop p (r :: rest) t w = (lz78DecStep p t r w).bind (lz78DecLoop p rest (t + 1)) := by
  cases h : lz78DecStep p t r w <;> simp [lz78DecLoop, h, Except.bind]

theorem lz78Decode_eq_bind (toks : List Token) :
    lz78Decode p toks =
      (lz78DecLoop p toks 0 { dict := [], out := [] }).bind fun w => .ok (w.out, w.dict.length) := by
  cases h : lz78DecLoop p toks 0 { dict := [], out := [] } <;> simp [lz78Decode, h, Except.bind]

theorem lzwDecLoop_cons (r : Token) (rest : List Token) (t : Nat) (w : LzwDecWork) :
    lzwDecLoop p (r :: rest) t w = (lzwDecStep p t r w).bind (lzwDecLoop p rest (t + 1)) := by
  cases h : lzwDecStep p t r w <;> simp [lzwDecLoop, h, Except.bind]

theorem lzwDecode_eq_bind (alpha : List Sym) (toks : List Token) :
    lzwDecode p alpha toks = (lzwDecLoop p toks 0 { dict := lzwSeeds alpha, prev := none, out := [] }).bind
      fun w => .ok (w.out, w.dict.length) := by
  cases h : lzwDecLoop p toks 0 { dict := lzwSeeds alpha, prev := none, out := [] } <;>
    simp [lzwDecode, h, Except.bind]

end

/-! ### The encoders -/

/-- A full memory at a cursor within the input (R104, R246 (b), (d)). -/
theorem allowed_capacity_cursor {p : Params} {pos n : Nat} (hpos : pos ≤ n) (hn : n ≤ p.symCap) :
    Raise.allowed p { kind := .capacityExceeded, info := Word.ofNum pos } :=
  .inl ((toNat_ofNum_le pos).trans (hpos.trans hn))

/-- What an encoder has emitted, and its dictionary size. -/
abbrev EncodeOk (p : Params) (ok : Sym → Prop) (out : List Token) (size : Nat) : Prop :=
  OutputOk p p.tokCap (fun t => ok t.sym) out size

section
variable {p : Params} {ok : Sym → Prop} (h0 : ok 0#24) {input : List Sym} (hin : ∀ x ∈ input, ok x)
  (hn : input.length ≤ p.symCap)
include h0 hn

include hin in
theorem lz77EncStep_meets (w l : Nat) {k : Lz77EncWork} (hpos : k.pos < input.length) (hk : EncodeOk p ok k.out 0) :
    resultMeets (Raise.allowed p) (fun k => EncodeOk p ok k.out 0) (lz77EncStep p w l input k) := by
  obtain ⟨-, h⟩ | ⟨hfull, m, e, -, rfl, h⟩ := lz77EncStep_cases (rfl : lz77EncStep p w l input k = _) <;> rw [h]
  · exact allowed_capacity_cursor (Nat.le_of_lt hpos) hn
  · exact hk.snoc hfull (lz77Emission_sym_ok h0 hin _ _ _) fun _ => Nat.zero_le _

include hin in
theorem lz77Encode_meets (w l : Nat) :
    resultMeets (Raise.allowed p) (fun x => EncodeOk p ok x.1 x.2) (lz77Encode p w l input) := by
  rw [lz77Encode_eq_bind]
  have hloop := whileLoop_meets (lz77EncLoop_stop p w l) (fun _ => rfl) (lz77EncLoop_succ p w l)
    (fun _ hpos hk => lz77EncStep_meets h0 hin hn w l hpos hk)
    input.length (lz77EncInit l input) (OutputOk.nil fun _ => Nat.zero_le _)
  exact hloop.bind fun k hk => hk

include hin in
theorem lz78EncStep_meets {k : Lz78EncWork} (hpos : k.pos < input.length) (hk : EncodeOk p ok k.out k.dict.length) :
    resultMeets (Raise.allowed p) (fun k => EncodeOk p ok k.out k.dict.length) (lz78EncStep p input k) := by
  obtain ⟨-, h⟩ | ⟨hfull, hdict, m, adv, -, -, h⟩ := lz78EncStep_cases (rfl : lz78EncStep p input k = _) <;> rw [h]
  · exact allowed_capacity_cursor (Nat.le_of_lt hpos) hn
  · exact hk.snoc hfull (mkToken_sym_ok h0 hin _ _ _ _) (by simpa using hk.size_succ_le hdict)

include hin in
theorem lz78Encode_meets :
    resultMeets (Raise.allowed p) (fun x => EncodeOk p ok x.1 x.2) (lz78Encode p input) := by
  rw [lz78Encode_eq_bind]
  have hloop := whileLoop_meets (lz78EncLoop_stop p) (fun _ => rfl) (lz78EncLoop_succ p)
    (fun _ hpos hk => lz78EncStep_meets h0 hin hn hpos hk)
    input.length { pos := 0, dict := [], out := [] } (OutputOk.nil fun _ => Nat.zero_le _)
  exact hloop.bind fun k hk => hk

theorem lzwEncStep_meets {pos : Nat} (hpos : pos ≤ input.length) (c : Sym) {k : LzwEncWork}
    (hk : EncodeOk p ok k.out k.dict.length) :
    resultMeets (Raise.allowed p) (fun k => EncodeOk p ok k.out k.dict.length) (lzwEncStep p pos c k) := by
  obtain ⟨-, h⟩ | ⟨-, -, h⟩ | ⟨-, hfull, hdict, h⟩ := lzwEncStep_cases (rfl : lzwEncStep p pos c k = _) <;> rw [h]
  · exact hk
  · exact allowed_capacity_cursor hpos hn
  · exact hk.snoc hfull h0 (by simpa using hk.size_succ_le hdict)

theorem lzwEncFlush_meets {k : LzwEncWork} (hk : EncodeOk p ok k.out k.dict.length) :
    resultMeets (Raise.allowed p) (fun out => EncodeOk p ok out k.dict.length) (lzwEncFlush p input.length k) := by
  obtain ⟨-, h⟩ | ⟨hfull, h⟩ := emit_cases (rfl : lzwEncFlush p input.length k = _) <;> rw [h]
  · exact allowed_capacity_cursor (Nat.le_refl _) hn
  · exact hk.snoc hfull h0 hk.size_le

theorem lzwEncode_meets {alpha : List Sym} (ha : p.wf = true → alpha.length ≤ p.dictCap) :
    resultMeets (Raise.allowed p) (fun x => EncodeOk p ok x.1 x.2) (lzwEncode p alpha input) := by
  have hseeds : p.wf = true → (lzwSeeds alpha).length ≤ p.dictCap := by simpa [lzwSeeds] using ha
  cases input with
  | nil => exact OutputOk.nil hseeds
  | cons c rest =>
    rw [lzwEncode_cons]
    have hloop := listLoop_meets (fun _ _ => rfl) (lzwEncLoop_cons p) rest 1 (lzwEncInit alpha c)
      (fun j x k hj _ hk => lzwEncStep_meets h0 hn (by simp only [List.length_cons]; omega) x hk)
      (OutputOk.nil hseeds)
    exact hloop.bind fun k hk => (lzwEncFlush_meets h0 hn hk).bind fun out ho => ho

end

/-! ### The decoders -/

/-- An invalid token, or no room for one, at an index of the stream (R243, R246 (c), (d)). -/
theorem allowed_token_index {p : Params} {kind : ErrKind} (hk : kind = .corruptToken ∨ kind = .capacityExceeded)
    {t n : Nat} (ht : t < n) (hn : n ≤ p.tokCap) : Raise.allowed p { kind := kind, info := Word.ofNum t } := by
  have h : (Word.ofNum t).toNat < p.tokCap := (toNat_ofNum_le t).trans_lt (ht.trans_le hn)
  obtain rfl | rfl := hk
  · exact h
  · exact .inr h

/-- What a decoder has produced, and its dictionary size. -/
abbrev DecodeOk (p : Params) (ok : Sym → Prop) (out : List Sym) (size : Nat) : Prop :=
  OutputOk p p.symCap ok out size

/-- The working state of `LZ78.DEC`: the dictionary's phrases too have only `ok` symbols. -/
def Lz78DecWork.isOk (p : Params) (ok : Sym → Prop) (w : Lz78DecWork) : Prop :=
  DecodeOk p ok w.out w.dict.length ∧ phrasesOk ok w.dict

/-- The working state of `LZW.DEC`: the previous phrase too has only `ok` symbols, for the entry being defined in a step
is made of it (R201). -/
def LzwDecWork.isOk (p : Params) (ok : Sym → Prop) (w : LzwDecWork) : Prop :=
  DecodeOk p ok w.out w.dict.length ∧ phrasesOk ok w.dict ∧ ∀ q, w.prev = some q → ∀ x ∈ q, ok x

section
variable {p : Params} {ok : Sym → Prop} {n t : Nat} (ht : t < n) (hn : n ≤ p.tokCap) {r : Token} (hr : ok r.sym)
include ht hn

include hr in
theorem lz77DecStep_meets {out : List Sym} (hk : DecodeOk p ok out 0) :
    resultMeets (Raise.allowed p) (fun out => DecodeOk p ok out 0) (lz77DecStep p t r out) := by
  obtain ⟨-, h⟩ | ⟨-, -, -, -, ⟨-, h⟩ | ⟨hroom, h⟩⟩ := lz77DecStep_cases (rfl : lz77DecStep p t r out = _) <;> rw [h]
  · exact allowed_token_index (.inl rfl) ht hn
  · exact allowed_token_index (.inr rfl) ht hn
  · rw [List.append_assoc]
    refine hk.append ?_ (fun y hy => ?_) fun _ => Nat.zero_le _
    · have := hk.length_le
      simp only [List.length_append, length_subseq]
      omega
    · obtain hy | hy := List.mem_append.mp hy
      · exact hk.good_of_mem y (List.mem_of_mem_drop (List.mem_of_mem_take hy))
      · exact optSym_ok hr y hy

include hr in
theorem lz78DecStep_meets {w : Lz78DecWork} (hw : w.isOk p ok) :
    resultMeets (Raise.allowed p) (fun w => w.isOk p ok) (lz78DecStep p t r w) := by
  obtain ⟨hk, hd⟩ := hw
  obtain ⟨-, h⟩ | ⟨-, -, -, new, rfl, ⟨-, h⟩ | ⟨hroom, hdict, h⟩⟩ :=
    lz78DecStep_cases (rfl : lz78DecStep p t r w = _) <;> rw [h]
  · exact allowed_token_index (.inl rfl) ht hn
  · exact allowed_token_index (.inr rfl) ht hn
  · have hnew : ∀ y ∈ lz78Phrase w.dict r.a.toNat ++ optSym r.symbol, ok y := fun y hy =>
      (List.mem_append.mp hy).elim (lz78Phrase_ok hd _ y) (optSym_ok hr y)
    have := hk.length_le
    exact ⟨hk.append (by omega) hnew (by simpa using hk.size_succ_le hdict), hd.snoc hnew⟩

theorem lzwDecStep_meets {w : LzwDecWork} (hw : w.isOk p ok) :
    resultMeets (Raise.allowed p) (fun w => w.isOk p ok) (lzwDecStep p t r w) := by
  obtain ⟨hk, hd, hprev⟩ := hw
  obtain ⟨-, h⟩ | ⟨-, ph, hph, hc⟩ := lzwDecStep_cases (rfl : lzwDecStep p t r w = _)
  · rw [h]
    exact allowed_token_index (.inl rfl) ht hn
  have hphOk : ∀ y ∈ ph, ok y := lzwResolve_ok hd hprev hph
  have hprev' : ∀ q, some ph = some q → ∀ y ∈ q, ok y := fun q hq => Option.some.inj hq ▸ hphOk
  have hlen := hk.length_le
  obtain ⟨-, h⟩ | ⟨hroom, -, h⟩ | ⟨hroom, hdict, q, hq, h⟩ := hc <;> rw [h]
  · exact allowed_token_index (.inr rfl) ht hn
  · exact ⟨hk.append (by omega) hphOk hk.size_le, hd, hprev'⟩
  · exact ⟨hk.append (by omega) hphOk (by simpa using hk.size_succ_le hdict),
      hd.snoc (snoc_firstSym_ok (hprev q hq) hphOk), hprev'⟩

end

section
variable {p : Params} {ok : Sym → Prop} {toks : List Token} (htoks : ∀ r ∈ toks, ok r.sym)
  (hn : toks.length ≤ p.tokCap)
include hn

include htoks in
theorem lz77Decode_meets :
    resultMeets (Raise.allowed p) (fun x => DecodeOk p ok x.1 x.2) (lz77Decode p toks) := by
  rw [lz77Decode_eq_bind]
  have hloop := listLoop_meets (fun _ _ => rfl) (lz77DecLoop_cons p) toks 0 []
    (fun j r k hj hr hk => lz77DecStep_meets hj (by simpa using hn) (htoks r hr) hk)
    (OutputOk.nil fun _ => Nat.zero_le _)
  exact hloop.bind fun out ho => ho

include htoks in
theorem lz78Decode_meets :
    resultMeets (Raise.allowed p) (fun x => DecodeOk p ok x.1 x.2) (lz78Decode p toks) := by
  rw [lz78Decode_eq_bind]
  have hloop := listLoop_meets (fun _ _ => rfl) (lz78DecLoop_cons p) toks 0 { dict := [], out := [] }
    (fun j r k hj hr hk => lz78DecStep_meets hj (by simpa using hn) (htoks r hr) hk)
    ⟨OutputOk.nil fun _ => Nat.zero_le _, by simp [phrasesOk]⟩
  exact hloop.bind fun w hw => hw.1

theorem lzwDecode_meets {alpha : List Sym} (hal : ∀ x ∈ alpha, ok x)
    (ha : p.wf = true → alpha.length ≤ p.dictCap) :
    resultMeets (Raise.allowed p) (fun x => DecodeOk p ok x.1 x.2) (lzwDecode p alpha toks) := by
  have hseeds : p.wf = true → (lzwSeeds alpha).length ≤ p.dictCap := by simpa [lzwSeeds] using ha
  rw [lzwDecode_eq_bind]
  have hloop := listLoop_meets (fun _ _ => rfl) (lzwDecLoop_cons p) toks 0
    { dict := lzwSeeds alpha, prev := none, out := [] }
    (fun j r k hj _ hk => lzwDecStep_meets hj (by simpa using hn) hk)
    ⟨OutputOk.nil hseeds, phrasesOk_seeds hal, by simp⟩
  exact hloop.bind fun w hw => hw.1

end

/-! ### The commands -/

section
variable {s t : State} {i : Instr}

/-- Under legal parameters the alphabet fits the dictionary (R10). -/
theorem length_alphabet_le_dictCap (ha : s.alphaLen.toNat ≤ s.params.alphaCap) (hp : s.params.wf = true) :
    s.alphabet.length ≤ s.params.dictCap := by
  simp only [Params.wf, Bool.and_eq_true, decide_eq_true_eq, le_min_iff] at hp
  rw [length_alphabet]
  omega

/-- How an encode ends (R247): an error raised before the loop, or what the loop hands over. -/
theorem exec_encode_cases (hi : i = .lz77Enc ∨ i = .lz78Enc ∨ i = .lzwEnc) (h : exec i s = .next t)
    {ok : Sym → Prop} (h0 : ok 0#24) (hin : ∀ x ∈ s.input, ok x) :
    (∃ e, Raise.allowed s.params e ∧ t = State.raiseEncode e.kind e.info s) ∨
    (∃ r, resultMeets (Raise.allowed s.params) (fun x => EncodeOk s.params ok x.1 x.2) r ∧
      t = State.finishEncode r s) := by
  have hn (hl : s.symLen.toNat ≤ s.params.symCap) : s.input.length ≤ s.params.symCap := by simpa using hl
  obtain rfl | rfl | rfl := hi
  · obtain ⟨-, ho⟩ | ⟨-, -, ho⟩ | ⟨hl, -, -, ho⟩ := execLz77Enc_cases h <;> cases ho
    · exact .inl ⟨⟨.capacityExceeded, 0#32⟩, .inl (Nat.zero_le _), rfl⟩
    · exact .inl ⟨⟨.invalidConfiguration, 0#32⟩, rfl, rfl⟩
    · exact .inr ⟨_, lz77Encode_meets h0 hin (hn hl) _ _, rfl⟩
  · obtain ⟨-, ho⟩ | ⟨hl, ho⟩ := execLz78Enc_cases h <;> cases ho
    · exact .inl ⟨⟨.capacityExceeded, 0#32⟩, .inl (Nat.zero_le _), rfl⟩
    · exact .inr ⟨_, lz78Encode_meets h0 hin (hn hl), rfl⟩
  · obtain ⟨-, ho⟩ | ⟨hl, ha, ⟨-, ho⟩ | ⟨-, -, ⟨j, hj, ho⟩ | ⟨-, ho⟩⟩⟩ := execLzwEnc_cases h <;> cases ho
    · exact .inl ⟨⟨.capacityExceeded, 0#32⟩, .inl (Nat.zero_le _), rfl⟩
    · exact .inl ⟨⟨.invalidConfiguration, 0#32⟩, rfl, rfl⟩
    · obtain ⟨j', rfl, ⟨x, hx, -⟩, -⟩ := firstUnknown_eq_some hj
      have hj' : 0 + j' < s.input.length := by simpa using (List.getElem?_eq_some_iff.mp hx).1
      exact .inl ⟨⟨.unknownSymbol, Word.ofNum (0 + j')⟩,
        (toNat_ofNum_le _).trans_lt (hj'.trans_le (hn hl)), rfl⟩
    · exact .inr ⟨_, lzwEncode_meets h0 (hn hl) (length_alphabet_le_dictCap ha), rfl⟩

/-- How a decode ends (R247): an error raised before the loop, or what the loop hands over. -/
theorem exec_decode_cases (hi : i = .lz77Dec ∨ i = .lz78Dec ∨ i = .lzwDec) (h : exec i s = .next t)
    {ok : Sym → Prop} (hst : ∀ r ∈ s.stream, ok r.sym) (hal : ∀ x ∈ s.alphabet, ok x) :
    (∃ e, Raise.allowed s.params e ∧ t = State.raiseDecode e.kind e.info s) ∨
    (∃ r, resultMeets (Raise.allowed s.params) (fun x => DecodeOk s.params ok x.1 x.2) r ∧
      t = State.finishDecode r s) := by
  have hn (hl : s.tokLen.toNat ≤ s.params.tokCap) : s.stream.length ≤ s.params.tokCap := by simpa using hl
  obtain rfl | rfl | rfl := hi
  · obtain ⟨-, ho⟩ | ⟨-, -, ho⟩ | ⟨hl, -, -, ho⟩ := execLz77Dec_cases h <;> cases ho
    · exact .inl ⟨⟨.capacityExceeded, 0#32⟩, .inl (Nat.zero_le _), rfl⟩
    · exact .inl ⟨⟨.invalidConfiguration, 0#32⟩, rfl, rfl⟩
    · exact .inr ⟨_, lz77Decode_meets hst (hn hl), rfl⟩
  · obtain ⟨-, ho⟩ | ⟨hl, ho⟩ := execLz78Dec_cases h <;> cases ho
    · exact .inl ⟨⟨.capacityExceeded, 0#32⟩, .inl (Nat.zero_le _), rfl⟩
    · exact .inr ⟨_, lz78Decode_meets hst (hn hl), rfl⟩
  · obtain ⟨-, ho⟩ | ⟨hl, ha, ⟨-, ho⟩ | ⟨-, -, ho⟩⟩ := execLzwDec_cases h <;> cases ho
    · exact .inl ⟨⟨.capacityExceeded, 0#32⟩, .inl (Nat.zero_le _), rfl⟩
    · exact .inl ⟨⟨.invalidConfiguration, 0#32⟩, rfl, rfl⟩
    · exact .inr ⟨_, lzwDecode_meets (hn hl) hal (length_alphabet_le_dictCap ha), rfl⟩

/-- A match is no longer than the bound of its search, its offset within the context (R120, R121). -/
theorem lpmFrom_le (seq ctx : List Sym) (l : Nat) :
    (lpmFrom seq ctx l).1 ≤ l ∧ (lpmFrom seq ctx l).2 ≤ ctx.length := by
  induction l with
  | zero => simp [lpmFrom]
  | succ l ih =>
    simp only [lpmFrom]
    split
    · simp
    · exact ⟨by omega, ih.2⟩

/-- How a query ends: an error, or a length and an offset within `SYM` (R125, R126). -/
theorem exec_query_cases (hi : i = .sbLpm ∨ i = .sbSlice) (h : exec i s = .next t) :
    (∃ e, Raise.allowed s.params e ∧ t = State.raiseQuery e.kind e.info s) ∨
    (∃ len off, len ≤ s.params.symCap ∧ off ≤ s.params.symCap ∧ t = State.finishQuery len off s) := by
  obtain rfl | rfl := hi
  · change execSbLpm s = _ at h
    unfold execSbLpm at h
    split at h <;> cases h
    · exact .inl ⟨⟨.capacityExceeded, 0#32⟩, .inl (Nat.zero_le _), rfl⟩
    · next hl =>
      simp only [State.symLenTooLong, decide_eq_true_eq] at hl
      refine .inr ⟨_, _, (lpmFrom_le _ _ _).1.trans ?_, (lpmFrom_le _ _ _).2.trans ?_, rfl⟩ <;>
        simp only [length_symView] <;> omega
  · obtain ⟨-, ho⟩ | ⟨hl, ho⟩ := execSbSlice_cases h <;> cases ho
    · exact .inl ⟨⟨.capacityExceeded, 0#32⟩, .inl (Nat.zero_le _), rfl⟩
    · exact .inr ⟨_, _, by omega, by omega, rfl⟩

end

end Sys2Proof.Machine
end

section
/-! PROOF. 10_state.md: the `STATUS` word (R23), what each class of command leaves unchanged (R32, with R249 to R251 of
60_exceptions.md), and the two invariants of every step: of the memories (R30, R33, R34) and of the status and result
registers (R23, R27, R32, R43). -/

namespace Sys2Proof.Machine

open Sys2Proof.Config

/-! ### Frames -/

theorem finishEncode_encodeFrame (r : Except Raise (List Token × Nat)) (s : State) :
    State.encodeFrame s (State.finishEncode r s) := by
  cases r <;> rfl

theorem finishDecode_decodeFrame (r : Except Raise (List Sym × Nat)) (s : State) :
    State.decodeFrame s (State.finishDecode r s) := by
  cases r <;> rfl

theorem State.encodeFrame.results_eq {s t : State} (h : s.encodeFrame t) : t.rlen = s.rlen ∧ t.roff = s.roff := by
  unfold State.encodeFrame at h
  exact ⟨(congrArg State.rlen h :), (congrArg State.roff h :)⟩

theorem State.decodeFrame.results_eq {s t : State} (h : s.decodeFrame t) : t.rlen = s.rlen ∧ t.roff = s.roff := by
  unfold State.decodeFrame at h
  exact ⟨(congrArg State.rlen h :), (congrArg State.roff h :)⟩

/-- A legal capacity is below `2^32` (R10), so a length up to it fits a register. -/
theorem caps_lt_of_wf {p : Params} (hp : p.wf = true) : p.symCap < 2 ^ 32 ∧ p.tokCap < 2 ^ 32 := by
  simp only [Params.wf, Bool.and_eq_true, decide_eq_true_eq] at hp
  have hmax : maxCap = 4294967294 := rfl
  omega

/-- A number below `2^32` is put into a register whole (R232). -/
theorem toNat_ofNum {n : Nat} (h : n < 2 ^ 32) : (Word.ofNum n).toNat = n := by
  rw [BitVec.toNat_ofNat, Nat.mod_eq_of_lt h]

/-- Settles O25, by how an encode ends: what a successful loop emitted fits `TOK`, so `TOK_LEN` is the number of entries
written. -/
theorem encodeFrame : Obligations.EncodeFrame := by
  intro i s t hi h
  obtain ⟨e, -, rfl⟩ | ⟨r, hr, rfl⟩ := exec_encode_cases hi h (ok := fun _ => True) trivial fun _ _ => trivial
  · exact ⟨rfl, fun _ herr => by cases herr⟩
  refine ⟨finishEncode_encodeFrame r s, fun hp herr j hj => ?_⟩
  cases r with
  | error e => cases herr
  | ok x =>
    obtain ⟨toks, d⟩ := x
    have hlen : toks.length ≤ s.params.tokCap := hr.length_le
    have hj' : toks.length ≤ j := by
      rwa [finishEncode_ok, toNat_ofNum (hlen.trans_lt (caps_lt_of_wf hp).2)] at hj
    rw [tokAt_finishEncode_ok toks d s hlen, dif_neg (by omega)]

/-- Settles O26, by how a decode ends: what a successful loop produced fits `SYM`, so `SYM_LEN` is the number of entries
written. -/
theorem decodeFrame : Obligations.DecodeFrame := by
  intro i s t hi h
  obtain ⟨e, -, rfl⟩ | ⟨r, hr, rfl⟩ :=
    exec_decode_cases hi h (ok := fun _ => True) (fun _ _ => trivial) fun _ _ => trivial
  · exact ⟨rfl, fun _ herr => by cases herr⟩
  refine ⟨finishDecode_decodeFrame r s, fun hp herr j hj => ?_⟩
  cases r with
  | error e => cases herr
  | ok x =>
    obtain ⟨syms, d⟩ := x
    have hlen : syms.length ≤ s.params.symCap := hr.length_le
    have hj' : syms.length ≤ j := by
      rwa [finishDecode_ok, toNat_ofNum (hlen.trans_lt (caps_lt_of_wf hp).1)] at hj
    rw [symAt_finishDecode_ok syms d s hlen, dif_neg (by omega)]

/-- While not busy, a step performs the host's next operation. -/
theorem step_eq_perform {s : State} {op : HostOp} {rest : List HostOp} (hb : s.busy = false)
    (hs : s.script = op :: rest) : step s = op.perform (s.take rest) := by
  simp [step, runPending, hs, hostStep, hb]

/-- Settles O27: the ends of the commands name what they write, and 13 and 14 are no read/write registers. -/
theorem queryResultsWrittenByQueriesOnly : Obligations.QueryResultsWrittenByQueriesOnly := by
  refine ⟨fun i s t hi h => ?_, fun i s t hlpm hslice h => ?_, fun s i v rest hb hi hs => ?_⟩
  · obtain ⟨k, x, rfl⟩ | ⟨len, off, rfl⟩ := exec_query_ends hi h <;> rfl
  · cases i with
    | lz77Enc | lz78Enc | lzwEnc => exact (encodeFrame _ s t (by decide) h).1.results_eq
    | lz77Dec | lz78Dec | lzwDec => exact (decodeFrame _ s t (by decide) h).1.results_eq
    | sbLpm => exact absurd rfl hlpm
    | sbSlice => exact absurd rfl hslice
  · rw [step_eq_perform hb hs]
    obtain rfl | rfl := hi <;> rfl

/-! ### The `STATUS` word -/

/-- The bits of the `STATUS` word (R23). -/
theorem statusWord_bit (busy done : Bool) (err : Option ErrKind) (j : Nat) :
    (statusWord busy done err).getLsbD j =
      if j = 0 then busy else if j = 1 then done else if j < 4 then false else (errCode err).getLsbD (j - 4) := by
  simp only [statusWord, BitVec.getLsbD_append, BitVec.getLsbD_ofBool]
  by_cases h0 : j = 0
  · simp [h0]
  by_cases h1 : j = 1
  · simp [h1]
  by_cases h4 : j < 4
  · have h2 : ¬ j < 1 ∧ ¬ j - 1 < 1 ∧ j - 1 - 1 < 2 := by omega
    simp [h0, h1, h2, h4]
  · have h2 : ¬ j < 1 ∧ ¬ j - 1 < 1 ∧ ¬ j - 1 - 1 < 2 ∧ j - 1 - 1 - 2 = j - 4 := by omega
    by_cases h7 : j - 4 < 3
    · simp [h0, h1, h2, h4, h7]
    · simp [h0, h1, h2, h4, h7, BitVec.getLsbD_of_ge _ _ (Nat.le_of_not_lt h7)]

theorem statusWord_err (busy done : Bool) (err : Option ErrKind) :
    (statusWord busy done err).extractLsb' 4 3 = errCode err := by
  ext j hj
  have h : 4 + j ≠ 1 := by omega
  simp [← BitVec.getLsbD_eq_getElem, statusWord_bit, hj, h]

/-- Settles O9, field by field; the codes are those of R241. -/
theorem statusWordFields : Obligations.StatusWordFields := by
  intro busy done err
  refine ⟨statusWord_bit busy done err 0, statusWord_bit busy done err 1, ?_, ?_, ?_⟩
  · ext j hj
    have h : 2 + j ≠ 1 ∧ 2 + j < 4 := by omega
    simp [← BitVec.getLsbD_eq_getElem, statusWord_bit, h]
  · ext j hj
    have h : 7 + j ≠ 1 ∧ ¬ 7 + j < 4 ∧ 3 ≤ 7 + j - 4 := by omega
    simp [← BitVec.getLsbD_eq_getElem, statusWord_bit, h]
  · rw [statusWord_err]
    cases err with
    | none => rfl
    | some k => cases k <;> rfl

/-! ### The memories: canonical, within capacity, `SYMW` bits wide -/

section
variable {α : Type} {cap : Nat} {good : α → Bool}

/-- The canonical form, every listed index below the capacity, every listed value `good`. -/
def Memory.isOk (cap : Nat) (good : α → Bool) (m : Memory α) : Prop :=
  m.wf = true ∧ ∀ c ∈ m.cells, c.1 < cap ∧ good c.2 = true

theorem cellsWithin_iff {cells : List (Nat × α)} :
    cellsWithin cap good cells = true ↔ ∀ c ∈ cells, c.1 < cap ∧ good c.2 = true := by
  simp [cellsWithin]

theorem Memory.isOk_scramble (m : Memory α) : m.scramble.isOk cap good :=
  ⟨Memory.wf_scramble m, by simp⟩

theorem Memory.isOk.write {m : Memory α} (h : m.isOk cap good) {i : Nat} {v : α} (hi : i < cap) (hv : good v = true) :
    (m.write i v).isOk cap good := by
  refine ⟨Memory.wf_write m i v h.1, fun c hc => ?_⟩
  obtain rfl | hc := mem_setCell hc
  · exact ⟨hi, hv⟩
  · exact h.2 c hc

theorem Memory.isOk.writeFrom {m : Memory α} (h : m.isOk cap good) {vs : List α} (hlen : vs.length ≤ cap)
    (hv : ∀ v ∈ vs, good v = true) : (m.writeFrom 0 vs).isOk cap good := by
  refine ⟨Memory.wf_writeFrom vs m 0 h.1, fun c hc => ?_⟩
  obtain hc | ⟨-, hlt, hmem⟩ := mem_writeFrom vs m 0 c hc
  · exact h.2 c hc
  · exact ⟨by omega, hv _ hmem⟩

theorem mem_of_cellAt {v : α} {i : Nat} {cells : List (Nat × α)} (h : cellAt cells i = some v) : (i, v) ∈ cells := by
  induction cells with
  | nil => cases h
  | cons c cells ih =>
    obtain ⟨j, w⟩ := c
    simp only [cellAt] at h
    split at h
    · next hj => cases h; exact hj ▸ List.mem_cons_self
    · exact List.mem_cons_of_mem _ (ih h)

/-- A read returns a listed value or a free one. -/
theorem Memory.isOk.read {m : Memory α} (h : m.isOk cap good) {free : Nat → Nat → α}
    (hfree : ∀ g i, good (free g i) = true) (i : Nat) : good (m.read free i) = true := by
  unfold Memory.read
  split
  · next hc => exact (h.2 _ (mem_of_cellAt hc)).2
  · exact hfree _ _

end

theorem memoriesOk_iff {s : State} : s.memoriesOk = true ↔
    s.sym.isOk s.params.symCap (symFits s.params.symW) ∧
    s.tok.isOk s.params.tokCap (fun t : Token => symFits s.params.symW t.sym) ∧
    s.alpha.isOk s.params.alphaCap (symFits s.params.symW) := by
  simp only [State.memoriesOk, Bool.and_eq_true, cellsWithin_iff, Memory.isOk]
  tauto

@[simp] theorem symFits_narrow (w v : Nat) : symFits w (narrow w v) = true := by
  simp [symFits, narrow_lt]

@[simp] theorem symFits_zero (w : Nat) : symFits w 0#24 = true := by
  simp [symFits]

/-! What a command reads is `SYMW` bits wide. -/

section
variable {s : State} (h : s.memoriesOk = true)
include h

theorem symFits_input : ∀ x ∈ s.input, symFits s.params.symW x = true := by
  intro x hx
  obtain ⟨i, -, rfl⟩ := mem_input.mp hx
  unfold State.symAt
  split
  · exact (memoriesOk_iff.mp h).1.read (fun _ _ => symFits_narrow _ _) i
  · exact symFits_zero _

theorem symFits_alphabet : ∀ x ∈ s.alphabet, symFits s.params.symW x = true := by
  intro x hx
  obtain ⟨i, -, rfl⟩ := mem_alphabet.mp hx
  unfold State.alphaAt
  split
  · exact (memoriesOk_iff.mp h).2.2.read (fun _ _ => symFits_narrow _ _) i
  · exact symFits_zero _

theorem symFits_stream : ∀ r ∈ s.stream, symFits s.params.symW r.sym = true := by
  intro r hr
  obtain ⟨i, -, rfl⟩ := List.mem_map.mp hr
  unfold State.tokAt
  split
  · exact (memoriesOk_iff.mp h).2.1.read (good := fun t : Token => symFits s.params.symW t.sym)
      (fun _ _ => symFits_narrow _ _) i
  · exact symFits_zero _

theorem finishEncode_memoriesOk {r : Except Raise (List Token × Nat)} {E : Raise → Prop}
    (hr : resultMeets E (fun x => EncodeOk s.params (fun y => symFits s.params.symW y = true) x.1 x.2) r) :
    (State.finishEncode r s).memoriesOk = true := by
  obtain ⟨hsym, htok, halpha⟩ := memoriesOk_iff.mp h
  cases r with
  | error e => exact memoriesOk_iff.mpr ⟨hsym, Memory.isOk_scramble _, halpha⟩
  | ok x => exact memoriesOk_iff.mpr ⟨hsym, htok.writeFrom hr.length_le hr.good_of_mem, halpha⟩

theorem finishDecode_memoriesOk {r : Except Raise (List Sym × Nat)} {E : Raise → Prop}
    (hr : resultMeets E (fun x => DecodeOk s.params (fun y => symFits s.params.symW y = true) x.1 x.2) r) :
    (State.finishDecode r s).memoriesOk = true := by
  obtain ⟨hsym, htok, halpha⟩ := memoriesOk_iff.mp h
  cases r with
  | error e => exact memoriesOk_iff.mpr ⟨Memory.isOk_scramble _, htok, halpha⟩
  | ok x => exact memoriesOk_iff.mpr ⟨hsym.writeFrom hr.length_le hr.good_of_mem, htok, halpha⟩

theorem exec_memoriesOk {i : Instr} {t : State} (ht : exec i s = .next t) : t.memoriesOk = true := by
  cases i with
  | lz77Enc | lz78Enc | lzwEnc =>
    obtain ⟨e, -, rfl⟩ | ⟨r, hr, rfl⟩ := exec_encode_cases (by decide) ht (symFits_zero _) (symFits_input h)
    · exact h
    · exact finishEncode_memoriesOk h hr
  | lz77Dec | lz78Dec | lzwDec =>
    obtain ⟨e, -, rfl⟩ | ⟨r, hr, rfl⟩ := exec_decode_cases (by decide) ht (symFits_stream h) (symFits_alphabet h)
    · exact h
    · exact finishDecode_memoriesOk h hr
  | sbLpm | sbSlice =>
    obtain ⟨k, x, rfl⟩ | ⟨len, off, rfl⟩ := exec_query_ends (by decide) ht <;> exact h

theorem issue_memoriesOk {w : Word} {t : State} (ht : State.issue w s = .next t) : t.memoriesOk = true := by
  obtain ⟨i, -, hi⟩ | ⟨-, hi⟩ := issue_cases w s
  · exact exec_memoriesOk (s := s.start) h (hi ▸ ht)
  · rw [hi] at ht
    cases ht
    exact h

theorem writeReg_memoriesOk (i : Nat) (v : Word) : (State.writeReg i v s).memoriesOk = true := by
  unfold State.writeReg
  split <;> exact h

theorem writeSym_memoriesOk (i v : Nat) : (State.writeSym i v s).memoriesOk = true := by
  obtain ⟨hsym, htok, halpha⟩ := memoriesOk_iff.mp h
  unfold State.writeSym
  split
  · next hi => exact memoriesOk_iff.mpr ⟨hsym.write hi (symFits_narrow _ _), htok, halpha⟩
  · exact h

theorem writeTok_memoriesOk (i : Nat) (r : Record) : (State.writeTok i r s).memoriesOk = true := by
  obtain ⟨hsym, htok, halpha⟩ := memoriesOk_iff.mp h
  unfold State.writeTok
  split
  · next hi => exact memoriesOk_iff.mpr ⟨hsym, htok.write hi (symFits_narrow _ _), halpha⟩
  · exact h

theorem writeAlpha_memoriesOk (i v : Nat) : (State.writeAlpha i v s).memoriesOk = true := by
  obtain ⟨hsym, htok, halpha⟩ := memoriesOk_iff.mp h
  unfold State.writeAlpha
  split
  · next hi => exact memoriesOk_iff.mpr ⟨hsym, htok, halpha.write hi (symFits_narrow _ _)⟩
  · exact h

theorem perform_memoriesOk {op : HostOp} {t : State} (ht : op.perform s = .next t) : t.memoriesOk = true := by
  cases op with
  | rdReg | rdSym | rdTok | rdAlpha => cases ht; exact h
  | wrReg i v =>
    simp only [HostOp.perform, State.hostWriteReg] at ht
    split at ht
    · exact issue_memoriesOk h ht
    · cases ht; exact writeReg_memoriesOk h i v
  | wrSym i v => cases ht; exact writeSym_memoriesOk h i v
  | wrTok i r => cases ht; exact writeTok_memoriesOk h i r
  | wrAlpha i v => cases ht; exact writeAlpha_memoriesOk h i v
  | reset =>
    cases ht
    exact memoriesOk_iff.mpr ⟨Memory.isOk_scramble _, Memory.isOk_scramble _, Memory.isOk_scramble _⟩

end

/-- Settles O58, by the cases of a step: an idle one changes nothing, and every operation of the host keeps the
memories. -/
theorem stepKeepsMemoriesOk : Obligations.StepKeepsMemoriesOk := by
  intro s t hs h
  obtain ⟨-, ho⟩ | ⟨-, -, -, -, -, ho⟩ | ⟨op, rest, -, -, hp⟩ := step_cases h
  · cases ho; exact hs
  · cases ho
  · exact perform_memoriesOk (s := s.take rest) hs hp

/-! ### The status and result registers -/

/-- The result registers are within the capacities (R27, R32). -/
def State.resultsOk (s : State) : Prop :=
  s.dcount.toNat ≤ s.params.dictCap ∧ s.rlen.toNat ≤ s.params.symCap ∧ s.roff.toNat ≤ s.params.symCap

theorem statusOk_iff {s : State} : s.statusOk = true ↔
    s.busy = false ∧ (s.done = true ∨ s.err = none) ∧ s.errinfoOk = true ∧ s.resultsOk := by
  simp [State.statusOk, State.resultsOk, and_assoc]

theorem succeed_statusOk {s : State} (h : s.resultsOk) : s.succeed.statusOk = true :=
  statusOk_iff.mpr ⟨rfl, .inl rfl, rfl, h⟩

theorem raise_statusOk {k : ErrKind} {x : Word} {s : State} (ha : Raise.allowed s.params { kind := k, info := x })
    (h : s.resultsOk) : (State.raise k x s).statusOk = true :=
  statusOk_iff.mpr ⟨rfl, .inl rfl, errinfoOk_raise.mpr ha, h⟩

section
variable {s : State} (hp : s.params.wf = true) (h : s.resultsOk)

include h in
theorem resultsOk_dcount {size : Nat} (hd : size ≤ s.params.dictCap) :
    State.resultsOk { s with dcount := Word.ofNum size } :=
  ⟨(toNat_ofNum_le size).trans hd, h.2⟩

include hp h

theorem finishEncode_statusOk {ok : Sym → Prop} {r : Except Raise (List Token × Nat)}
    (hr : resultMeets (Raise.allowed s.params) (fun x => EncodeOk s.params ok x.1 x.2) r) :
    (State.finishEncode r s).statusOk = true := by
  cases r with
  | error e => exact raise_statusOk hr (resultsOk_dcount h (Nat.zero_le _))
  | ok x => exact succeed_statusOk (resultsOk_dcount h (hr.size_le hp))

theorem finishDecode_statusOk {ok : Sym → Prop} {r : Except Raise (List Sym × Nat)}
    (hr : resultMeets (Raise.allowed s.params) (fun x => DecodeOk s.params ok x.1 x.2) r) :
    (State.finishDecode r s).statusOk = true := by
  cases r with
  | error e => exact raise_statusOk hr (resultsOk_dcount h (Nat.zero_le _))
  | ok x => exact succeed_statusOk (resultsOk_dcount h (hr.size_le hp))

theorem exec_statusOk {i : Instr} {t : State} (ht : exec i s = .next t) : t.statusOk = true := by
  cases i with
  | lz77Enc | lz78Enc | lzwEnc =>
    obtain ⟨e, he, rfl⟩ | ⟨r, hr, rfl⟩ :=
      exec_encode_cases (by decide) ht (ok := fun _ => True) trivial fun _ _ => trivial
    · exact raise_statusOk he (resultsOk_dcount h (Nat.zero_le _))
    · exact finishEncode_statusOk hp h hr
  | lz77Dec | lz78Dec | lzwDec =>
    obtain ⟨e, he, rfl⟩ | ⟨r, hr, rfl⟩ :=
      exec_decode_cases (by decide) ht (ok := fun _ => True) (fun _ _ => trivial) fun _ _ => trivial
    · exact raise_statusOk he (resultsOk_dcount h (Nat.zero_le _))
    · exact finishDecode_statusOk hp h hr
  | sbLpm | sbSlice =>
    obtain ⟨e, he, rfl⟩ | ⟨len, off, hlen, hoff, rfl⟩ := exec_query_cases (by decide) ht
    · exact raise_statusOk he ⟨h.1, Nat.zero_le _, Nat.zero_le _⟩
    · exact succeed_statusOk ⟨h.1, (toNat_ofNum_le len).trans hlen, (toNat_ofNum_le off).trans hoff⟩

end

/-- A word that is no command has a bit of `ZERO` set (R93), so it is at least 8. -/
theorem eight_le_of_decode_error {w : Word} {e : DecodeError} (h : decode w = .error e) : 8 ≤ w.toNat := by
  by_contra hlt
  have hz : cmdZero w = 0#29 := BitVec.eq_of_toNat_eq (by
    rw [cmdZero, BitVec.extractLsb'_toNat, Nat.shiftRight_eq_div_pow, BitVec.toNat_zero]
    omega)
  simp [decode, hz] at h

section
variable {s : State} (hp : s.params.wf = true) (h : s.statusOk = true)
include h

theorem writeReg_statusOk (i : Nat) (v : Word) : (State.writeReg i v s).statusOk = true := by
  unfold State.writeReg
  split <;> exact h

theorem writeSym_statusOk (i v : Nat) : (State.writeSym i v s).statusOk = true := by
  unfold State.writeSym
  split <;> exact h

theorem writeTok_statusOk (i : Nat) (r : Record) : (State.writeTok i r s).statusOk = true := by
  unfold State.writeTok
  split <;> exact h

theorem writeAlpha_statusOk (i v : Nat) : (State.writeAlpha i v s).statusOk = true := by
  unfold State.writeAlpha
  split <;> exact h

include hp

theorem issue_statusOk {w : Word} {t : State} (ht : State.issue w s = .next t) : t.statusOk = true := by
  obtain ⟨-, -, -, hres⟩ := statusOk_iff.mp h
  obtain ⟨i, -, hi⟩ | ⟨hw, hi⟩ := issue_cases w s
  · exact exec_statusOk (s := s.start) hp hres (hi ▸ ht)
  · rw [hi] at ht
    cases ht
    exact raise_statusOk (eight_le_of_decode_error hw) hres

theorem perform_statusOk {op : HostOp} {t : State} (ht : op.perform s = .next t) : t.statusOk = true := by
  cases op with
  | rdReg | rdSym | rdTok | rdAlpha => cases ht; exact h
  | wrReg i v =>
    simp only [HostOp.perform, State.hostWriteReg] at ht
    split at ht
    · exact issue_statusOk hp h ht
    · cases ht; exact writeReg_statusOk h i v
  | wrSym i v => cases ht; exact writeSym_statusOk h i v
  | wrTok i r => cases ht; exact writeTok_statusOk h i r
  | wrAlpha i v => cases ht; exact writeAlpha_statusOk h i v
  | reset =>
    cases ht
    exact statusOk_iff.mpr ⟨rfl, .inr rfl, rfl, Nat.zero_le _, Nat.zero_le _, Nat.zero_le _⟩

end

/-- Settles O59, by the cases of a step: an idle one changes nothing, and every operation of the host keeps the
registers consistent. -/
theorem stepKeepsStatusOk : Obligations.StepKeepsStatusOk := by
  intro s t hp hs h
  obtain ⟨-, ho⟩ | ⟨-, -, -, -, -, ho⟩ | ⟨op, rest, -, -, hperf⟩ := step_cases h
  · cases ho; exact hs
  · cases ho
  · exact perform_statusOk (s := s.take rest) hp hs hperf

/-- Settles O60: the reference parameters are legal, no memory lists an entry, and every register is 0. -/
theorem resetMeetsTheInvariants : Obligations.ResetMeetsTheInvariants :=
  ⟨by decide, by decide, by decide⟩

end Sys2Proof.Machine
end

section
/-! PROOF. 30_encoding.md: the command word (R90 to R92), and the token record (R96 to R99, with R64 of 20_memory.md).
The ideas: the three fields of a command word are a row of the opcode map and make up the whole word; and `pack_bit`
says every bit of a record word, from which its fields are read off. -/

namespace Sys2Proof.Machine

open Sys2Proof.Laws

/-! ### The fields of a record word -/

section
variable (symW : Nat) (t : Token)

theorem packToken_a : (packToken symW t).extractLsb' 0 32 = t.a := by
  ext j hj
  simp [← BitVec.getLsbD_eq_getElem, pack_bit, hj]

theorem packToken_b : (packToken symW t).extractLsb' 32 32 = t.b := by
  ext j hj
  have h : ¬ 32 + j < 32 ∧ 32 + j < 64 := by omega
  simp [← BitVec.getLsbD_eq_getElem, pack_bit, h, hj]

theorem packToken_sym : (packToken symW t).extractLsb' 64 24 = narrow symW t.sym.toNat := by
  ext j hj
  have h : ¬ 64 + j < 32 ∧ ¬ 64 + j < 64 ∧ 64 + j < 88 := by omega
  simp [← BitVec.getLsbD_eq_getElem, pack_bit, h, hj]

theorem packToken_hasSym : (packToken symW t).getLsbD 88 = t.hasSym :=
  pack_bit symW t 88

theorem packToken_tag : (packToken symW t).extractLsb' 89 2 = t.tag := by
  ext j hj
  have h : ¬ 89 + j < 32 ∧ ¬ 89 + j < 64 ∧ ¬ 89 + j < 88 ∧ 89 + j ≠ 88 ∧ 89 + j < 91 := by omega
  simp [← BitVec.getLsbD_eq_getElem, pack_bit, h, hj]

theorem packToken_top : (packToken symW t).extractLsb' 91 5 = 0#5 := by
  ext j hj
  have h : ¬ 91 + j < 32 ∧ ¬ 91 + j < 64 ∧ ¬ 91 + j < 88 ∧ 91 + j ≠ 88 ∧ ¬ 91 + j < 91 := by omega
  simp [pack_bit, h]

/-- The bits between the stored width of the symbol and `HAS_SYM` are unused (R64, R96). -/
theorem packToken_above_sym {j : Nat} (h : 64 + symW ≤ j) (hj : j < 88) : (packToken symW t).getLsbD j = false := by
  have h' : ¬ j < 32 ∧ ¬ j < 64 ∧ ¬ j - 64 < symW := by omega
  simp [pack_bit, narrow_bit, h', hj]

end

/-- A record whose symbol has the stored width reads back whole (R64). -/
theorem unpackToken_packToken {symW : Nat} {t : Token} (h : t.sym.toNat < 2 ^ symW) :
    unpackToken symW (packToken symW t) = t := by
  rw [unpackToken, packToken_a, packToken_b, packToken_sym, packToken_hasSym, packToken_tag, narrow_fit symW t.sym h,
    narrow_fit symW t.sym h]

/-- The stored symbol of a record word: `SYMW` bits from bit 64 on (R64, R96). -/
theorem unpackToken_sym_bit (symW : Nat) (r : Record) (k : Nat) : (unpackToken symW r).sym.getLsbD k =
    (decide (k < symW) && decide (k < 24) && r.getLsbD (64 + k)) := by
  rw [unpackToken, narrow_bit, BitVec.testBit_toNat, BitVec.getLsbD_extractLsb']
  cases decide (k < 24) <;> simp

/-- A record word read back: the bits of the stored fields as written, every other bit 0 (R64). -/
theorem packToken_unpackToken_bit {symW : Nat} (hw : symW ≤ 24) (r : Record) (j : Nat) :
    (packToken symW (unpackToken symW r)).getLsbD j =
      if j < 64 + symW ∨ (88 ≤ j ∧ j < 91) then r.getLsbD j else false := by
  have hsym : narrow symW (unpackToken symW r).sym.toNat = (unpackToken symW r).sym :=
    narrow_fit _ _ (narrow_lt _ _)
  rw [pack_bit, hsym]
  by_cases ha : j < 32
  · have h : j < 64 + symW := by omega
    simp [ha, h, unpackToken]
  by_cases hb : j < 64
  · have h : j < 64 + symW ∧ j - 32 < 32 ∧ 32 + (j - 32) = j := by omega
    simp [ha, hb, h, unpackToken]
  by_cases hs : j < 88
  · have h : j - 64 < 24 ∧ 64 + (j - 64) = j ∧ (j - 64 < symW ↔ j < 64 + symW) ∧ ¬ 88 ≤ j := by omega
    rw [if_neg ha, if_neg hb, if_pos hs, unpackToken_sym_bit]
    simp [h]
  by_cases hh : j = 88
  · subst hh
    simp [unpackToken]
  by_cases ht : j < 91
  · have h : 88 ≤ j ∧ j - 89 < 2 ∧ 89 + (j - 89) = j := by omega
    simp [ha, hb, hs, hh, ht, h, unpackToken]
  · have h : ¬ j < 64 + symW := by omega
    simp [ha, hb, hs, hh, ht, h]

/-- Settles O4, field by field. -/
theorem recordLayout : Obligations.RecordLayout :=
  ⟨fun symW t _ hsym => ⟨packToken_a symW t, packToken_b symW t,
      (packToken_sym symW t).trans (narrow_fit symW t.sym hsym), packToken_hasSym symW t, packToken_tag symW t,
      packToken_top symW t, fun _ => packToken_above_sym symW t, unpackToken_packToken hsym⟩,
    fun _ r j hw => packToken_unpackToken_bit hw r j⟩

/-! ### The command word -/

/-- The three fields of the word of every command (R90, R91). -/
theorem encode_fields (i : Instr) : WordFields.Statement i := by
  cases i with
  | lz77Enc => exact WordFields.lz77Enc
  | lz78Enc => exact WordFields.lz78Enc
  | lzwEnc => exact WordFields.lzwEnc
  | sbLpm => exact WordFields.sbLpm
  | lz77Dec => exact WordFields.lz77Dec
  | lz78Dec => exact WordFields.lz78Dec
  | lzwDec => exact WordFields.lzwDec
  | sbSlice => exact WordFields.sbSlice

/-- Every command stands in the row of its own `DIR` and `ALG` (R91). -/
theorem commandOf_dirOf_algOf (i : Instr) : commandOf (dirOf i) (algOf i) = i := by
  cases i <;> rfl

/-- A row of the opcode map has one command (R91). -/
theorem dirOf_algOf_commandOf : ∀ (dir : BitVec 1) (alg : BitVec 2),
    dirOf (commandOf dir alg) = dir ∧ algOf (commandOf dir alg) = alg := by
  decide

/-- A word is its three fields, from the most significant bit down (R90). -/
theorem cmdFields_append (w : Word) : (cmdZero w ++ cmdDir w) ++ cmdAlg w = w := by
  have hhigh : cmdZero w ++ cmdDir w = w.extractLsb' 2 30 := BitVec.extractLsb'_append_extractLsb'_eq_extractLsb' rfl
  have hwhole : w.extractLsb' 2 30 ++ cmdAlg w = w.extractLsb' 0 32 :=
    BitVec.extractLsb'_append_extractLsb'_eq_extractLsb' rfl
  rw [hhigh, hwhole, BitVec.extractLsb'_eq_self]

theorem decode_encode (i : Instr) : decode (encode i) = .ok i := by
  obtain ⟨-, halg, hdir, hzero⟩ := encode_fields i
  rw [decode, if_pos hzero, hdir, halg, commandOf_dirOf_algOf]

theorem eq_encode_of_decode {w : Word} {i : Instr} (h : decode w = .ok i) : w = encode i := by
  unfold decode at h
  split at h
  · next hzero =>
    cases h
    obtain ⟨hdir, halg⟩ := dirOf_algOf_commandOf (cmdDir w) (cmdAlg w)
    rw [encode, hdir, halg, ← hzero, cmdFields_append]
  · cases h

/-- A word with one of the bits 31 to 3 set is no command (R93). -/
theorem decode_of_mask_ne_zero {w : Word} (h : w &&& 0xFFFFFFF8#32 ≠ 0#32) : decode w = .error (.illegalCommand w) :=
  if_neg (mt (mask_eq_zero_iff w).mpr h)

/-- Settles O1: the word of each row is the encoded word of its command. -/
theorem opcodeMapDecodes : Obligations.OpcodeMapDecodes :=
  ⟨decode_encode .lz77Enc, decode_encode .lz78Enc, decode_encode .lzwEnc, decode_encode .sbLpm,
    decode_encode .lz77Dec, decode_encode .lz78Dec, decode_encode .lzwDec, decode_encode .sbSlice,
    fun _ => decode_of_mask_ne_zero⟩

/-- Settles O2, by the three fields of the word. -/
theorem decodeAndEncodeAgree : Obligations.DecodeAndEncodeAgree :=
  ⟨fun i _ => decode_encode i, fun _ _ => eq_encode_of_decode⟩

/-! ### The three token shapes -/

/-- Settles O3: the shapes by definition, and the reference words by packing each record. -/
theorem tokenRecordsAreCanonical : Obligations.TokenRecordsAreCanonical := by
  refine ⟨fun _ _ _ => rfl, fun _ _ => rfl, fun _ _ => rfl, fun _ => rfl, fun _ => rfl, ?_, ?_, ?_, ?_, ?_⟩ <;> decide

end Sys2Proof.Machine
end

section
/-! PROOF. 40_symbol_buffer.md: the longest-prefix match (R120, R121), the clamped slice (R123), the two queries (R125,
R126), and R151 of 41_lz77.md, that a step of `LZ77.ENC` makes such a query. The idea of the first two: a match reports
the last occurrence of the longest prefix that has one, and this one fact (`lpm_cases`) gives both. -/

namespace Sys2Proof.Machine

/-! ### Occurrences -/

/-- `q` is the greatest start at which `p` occurs in `c` (R121). -/
def isLastOccurrence (p c : List Sym) (q : Nat) : Prop :=
  occursAt p c q = true ∧ ∀ q', occursAt p c q' = true → q' ≤ q

theorem le_of_occursAt {p c : List Sym} {q : Nat} (h : occursAt p c q = true) : q + p.length ≤ c.length :=
  (occursAt_iff.mp h).1

theorem mem_of_occursAt_cons {x : Sym} {p c : List Sym} {q : Nat} (h : occursAt (x :: p) c q = true) : x ∈ c := by
  obtain ⟨-, hp⟩ := occursAt_iff.mp h
  exact List.mem_of_mem_drop (List.mem_of_mem_take (hp ▸ List.mem_cons_self))

theorem exists_occursAt_singleton {x : Sym} {c : List Sym} (h : x ∈ c) : ∃ q, occursAt [x] c q = true := by
  obtain ⟨q, hq, rfl⟩ := List.getElem_of_mem h
  exact ⟨q, occursAt_iff.mpr ⟨hq, List.take_one_drop_eq_of_lt_length hq⟩⟩

/-- The bound of R122's inner loop leaves no occurrence out. -/
theorem isLastOccurrence_of_search {p c : List Sym} {q : Nat}
    (h : lastOccurrence p c (c.length - p.length) = some q) : isLastOccurrence p c q := by
  obtain ⟨hq, -, hlast⟩ := lastOccurrence_eq_some h
  refine ⟨hq, fun q' hq' => Nat.le_of_not_lt fun hlt => ?_⟩
  have hfit := le_of_occursAt hq'
  simp [hlast q' hlt (by omega)] at hq'

theorem not_occursAt_of_search {p c : List Sym} (h : lastOccurrence p c (c.length - p.length) = none) (q : Nat) :
    ¬ occursAt p c q = true := fun hq => by
  have hfit := le_of_occursAt hq
  simp [lastOccurrence_eq_none.mp h q (by omega)] at hq

/-! ### The longest-prefix match -/

/-- Of the prefixes of `seq` up to length `n`, none longer than `l` occurs in `ctx` (R120). -/
def noLongerMatch (seq ctx : List Sym) (l n : Nat) : Prop :=
  ∀ l', l' ≤ n → (∃ q, occursAt (seq.take l') ctx q = true) → l' ≤ l

/-- What the outer loop of R122 can find: nothing, or the last occurrence of the longest prefix that has one. -/
theorem lpmFrom_cases (seq ctx : List Sym) : ∀ n, n ≤ seq.length →
    (lpmFrom seq ctx n = (0, 0) ∧ noLongerMatch seq ctx 0 n) ∨
    ∃ l q, lpmFrom seq ctx n = (l, ctx.length - q) ∧ 1 ≤ l ∧ l ≤ n ∧ isLastOccurrence (seq.take l) ctx q ∧
      noLongerMatch seq ctx l n := by
  intro n
  induction n with
  | zero => exact fun _ => .inl ⟨rfl, fun _ h _ => h⟩
  | succ n ih =>
    intro hn
    have hlen : (seq.take (n + 1)).length = n + 1 := by simp [hn]
    simp only [lpmFrom]
    split
    · next q hq =>
      exact .inr ⟨n + 1, q, rfl, by omega, le_rfl, isLastOccurrence_of_search (by rwa [hlen]), fun _ h _ => h⟩
    · next hq =>
      have hnone : ∀ q, ¬ occursAt (seq.take (n + 1)) ctx q = true := not_occursAt_of_search (by rwa [hlen])
      have extend {l : Nat} (h : noLongerMatch seq ctx l n) : noLongerMatch seq ctx l (n + 1) := by
        rintro l' hle ⟨q, hocc⟩
        obtain rfl | hle' : l' = n + 1 ∨ l' ≤ n := by omega
        · exact absurd hocc (hnone q)
        · exact h l' hle' ⟨q, hocc⟩
      obtain ⟨h0, hno⟩ | ⟨l, q, hl, h1, h2, hlast, hno⟩ := ih (by omega)
      · exact .inl ⟨h0, extend hno⟩
      · exact .inr ⟨l, q, hl, h1, by omega, hlast, extend hno⟩

/-- What `LPM` can report (R120, R121). A prefix longer than the context does not occur in it, so the loop's start at
`min(m, |seq|, |ctx|)` leaves no length out. -/
theorem lpm_cases (seq : List Sym) (m : Nat) (ctx : List Sym) :
    (lpm seq m ctx = (0, 0) ∧ noLongerMatch seq ctx 0 (min m seq.length)) ∨
    ∃ l q, lpm seq m ctx = (l, ctx.length - q) ∧ 1 ≤ l ∧ l ≤ min m seq.length ∧
      isLastOccurrence (seq.take l) ctx q ∧ noLongerMatch seq ctx l (min m seq.length) := by
  have extend {l : Nat} (h : noLongerMatch seq ctx l (min m (min seq.length ctx.length))) :
      noLongerMatch seq ctx l (min m seq.length) := by
    rintro l' hle ⟨q, hocc⟩
    have hfit := le_of_occursAt hocc
    rw [List.length_take] at hfit
    exact h l' (by omega) ⟨q, hocc⟩
  obtain ⟨h0, hno⟩ | ⟨l, q, hl, h1, h2, hlast, hno⟩ :=
    lpmFrom_cases seq ctx (min m (min seq.length ctx.length)) (by omega)
  · exact .inl ⟨h0, extend hno⟩
  · exact .inr ⟨l, q, hl, h1, by omega, hlast, extend hno⟩

theorem lpm_le_length_ctx (seq : List Sym) (m : Nat) (ctx : List Sym) :
    (lpm seq m ctx).1 ≤ ctx.length ∧ (lpm seq m ctx).2 ≤ ctx.length := by
  obtain ⟨hlen, hoff⟩ := lpmFrom_le seq ctx (min m (min seq.length ctx.length))
  exact ⟨hlen.trans (by omega), hoff⟩

/-- R120, the condition for no match. -/
theorem lpm_length_eq_zero_iff (seq : List Sym) (m : Nat) (ctx : List Sym) :
    (lpm seq m ctx).1 = 0 ↔ m = 0 ∨ seq = [] ∨ ctx = [] ∨ ∀ x, seq[0]? = some x → x ∉ ctx := by
  constructor
  · intro h
    obtain ⟨-, hno⟩ | ⟨l, q, hl, h1, -⟩ := lpm_cases seq m ctx
    · cases seq with
      | nil => exact .inr (.inl rfl)
      | cons x xs =>
        by_cases hm : m = 0
        · exact .inl hm
        refine .inr (.inr (.inr fun y hy hmem => ?_))
        obtain rfl : x = y := by simpa using hy
        obtain ⟨q, hq⟩ := exists_occursAt_singleton hmem
        have hone : 1 ≤ 0 := hno 1 (by rw [List.length_cons]; omega) ⟨q, hq⟩
        omega
    · rw [hl] at h
      exact absurd h (Nat.ne_of_gt h1)
  · intro h
    obtain ⟨h0, -⟩ | ⟨l, q, -, h1, h2, ⟨hocc, -⟩, -⟩ := lpm_cases seq m ctx
    · simp [h0]
    · cases seq with
      | nil => rw [List.length_nil] at h2; omega
      | cons x xs =>
        obtain ⟨l, rfl⟩ : ∃ l', l = l' + 1 := ⟨l - 1, by omega⟩
        have hx : x ∈ ctx := mem_of_occursAt_cons hocc
        obtain rfl | h | rfl | h := h
        · omega
        · cases h
        · cases hx
        · exact absurd hx (h x rfl)

/-- Settles O14, by the two cases of a match. -/
theorem lpmLengthIsGreatest : Obligations.LpmLengthIsGreatest := by
  intro seq m ctx
  have hzero := lpm_length_eq_zero_iff seq m ctx
  have hctx := (lpm_le_length_ctx seq m ctx).1
  obtain ⟨h0, hno⟩ | ⟨l, q, hl, -, h2, ⟨hocc, -⟩, hno⟩ := lpm_cases seq m ctx
  · rw [h0] at hzero hctx ⊢
    exact ⟨Nat.zero_le _, .inl rfl, hno, hzero, hctx⟩
  · rw [hl] at hzero hctx ⊢
    exact ⟨h2, .inr ⟨q, hocc⟩, hno, hzero, hctx⟩

/-- Settles O15, by the two cases of a match; `q + len <= |ctx|` gives `len <= off`. -/
theorem lpmReportsRightmost : Obligations.LpmReportsRightmost := by
  intro seq m ctx
  obtain ⟨h0, -⟩ | ⟨l, q, hl, h1, h2, ⟨hocc, hlast⟩, -⟩ := lpm_cases seq m ctx
  · simp [h0]
  · have hfit := le_of_occursAt hocc
    rw [List.length_take] at hfit
    rw [hl]
    exact ⟨fun h => absurd h (Nat.ne_of_gt h1),
      fun _ => ⟨⟨q, hocc, rfl, hlast⟩, Nat.le_sub_of_add_le (by omega), Nat.sub_le _ _⟩⟩

/-! ### Slices and views -/

/-- The clamped slice is what remains from `i`, cut at `n`. -/
theorem slice_eq_take_drop {α : Type} (xs : List α) (i n : Nat) : slice xs i n = (xs.drop i).take n := by
  obtain h | h := Nat.le_total i xs.length
  · simp [slice, subseq, Nat.min_eq_left h, List.take_eq_take_iff]
  · simp [slice, subseq, List.drop_eq_nil_of_le h, Nat.min_eq_right h]

/-- Settles O16: the first part is the definition, the others follow from the form without clamps. -/
theorem sliceIsClamped : Obligations.SliceIsClamped := by
  intro s i n
  refine ⟨rfl, ?_, slice_eq_take_drop s i n, fun h => ?_⟩
  · rw [slice_eq_take_drop, List.length_take, List.length_drop]
    omega
  · rw [slice_eq_take_drop, List.drop_eq_nil_of_le h, List.take_nil]

theorem symView_eq_map_range (s : State) (lo hi : Nat) :
    s.symView lo hi = (List.range (hi - lo)).map (fun j => s.symAt (lo + j)) := by
  simp [State.symView, List.range'_eq_map_range]

/-- A view of valid symbols is a part of the input (R25). -/
theorem symView_eq_subseq_input {s : State} {lo hi : Nat} (h : hi ≤ s.symLen.toNat) :
    s.symView lo hi = subseq s.input lo hi := by
  apply List.ext_getElem
  · simp only [length_symView, length_subseq, length_input]
    omega
  · intro j h1 h2
    simp [State.symView, subseq]

/-- The last `w` symbols before `pos` are the view of R151. -/
theorem lastn_take_eq_subseq {α : Type} {xs : List α} {pos : Nat} (h : pos ≤ xs.length) (w : Nat) :
    lastn (xs.take pos) w = subseq xs (pos - w) pos := by
  have hstart : pos - min w pos = pos - w := by omega
  rw [lastn, subseq, List.length_take, Nat.min_eq_left h, hstart, List.drop_take]

/-- A match of at most `n` symbols looks at the first `n` of its sequence only. -/
theorem lpmFrom_take {n l : Nat} (h : l ≤ n) (seq ctx : List Sym) :
    lpmFrom (seq.take n) ctx l = lpmFrom seq ctx l := by
  induction l with
  | zero => rfl
  | succ l ih => simp only [lpmFrom, List.take_take, Nat.min_eq_left h, ih (by omega)]

theorem lpm_take (seq : List Sym) (l : Nat) (ctx : List Sym) :
    lpm (seq.take l) (min l (seq.take l).length) ctx = lpm seq l ctx := by
  have hbound : min (min l (min l seq.length)) (min (min l seq.length) ctx.length) =
      min l (min seq.length ctx.length) := by omega
  simp only [lpm, List.length_take, hbound]
  exact lpmFrom_take (Nat.min_le_left _ _) seq ctx

/-! ### The two queries -/

/-- The match `SB.LPM` asks for: of `SYM[QPOS..QEND)` in `SYM[CLO..CHI)`, both clamped to the valid symbols
(R125). -/
def State.lpmQuery (s : State) : Nat × Nat :=
  let qend := min s.qend.toNat s.symLen.toNat
  let chi := min s.chi.toNat s.symLen.toNat
  lpm (s.symView (min s.qpos.toNat qend) qend) s.qmax.toNat (s.symView (min s.clo.toNat chi) chi)

theorem exec_sbLpm_of_le {s : State} (h : s.symLen.toNat ≤ s.params.symCap) :
    exec .sbLpm s = .next (State.finishQuery s.lpmQuery.1 s.lpmQuery.2 s) :=
  if_neg (by simpa [State.symLenTooLong] using h)

/-- R249: a query of an input longer than `SYM` is `CapacityExceeded(0)`. -/
theorem exec_query_of_lt {s : State} {i : Instr} (h : s.params.symCap < s.symLen.toNat)
    (hi : i = .sbLpm ∨ i = .sbSlice) :
    exec i s = .next (State.raiseQuery .capacityExceeded 0#32 s) := by
  obtain rfl | rfl := hi
  · obtain ⟨-, ho⟩ | ⟨hle, -⟩ := execSbLpm_cases (s := s) rfl
    · exact ho
    · omega
  · obtain ⟨-, ho⟩ | ⟨hle, -⟩ := execSbSlice_cases (s := s) rfl
    · exact ho
    · omega

/-- Settles O17, by the two cases of the capacity test; the statement writes each view as a `map` over `range`. -/
theorem sbLpmAnswersQuery : Obligations.SbLpmAnswersQuery := by
  intro s
  simp only [← symView_eq_map_range]
  exact ⟨fun h => exec_sbLpm_of_le h, fun h => exec_query_of_lt h (.inl rfl)⟩

/-- Settles O18, by the two cases of the capacity test; the input has `SYM_LEN` symbols, so its slice is the range. -/
theorem sbSliceAnswersBounds : Obligations.SbSliceAnswersBounds := by
  intro s
  refine ⟨by rw [← length_input]; rfl, fun h => ?_, fun h => exec_query_of_lt h (.inr rfl)⟩
  obtain ⟨hlt, -⟩ | ⟨-, ho⟩ := execSbSlice_cases (s := s) rfl
  · omega
  · exact ho

/-- The query of R151 at cursor `pos` is the match `LZ77.ENC` makes between its lookahead and its window. -/
theorem lpmQuery_eq_lz77Search {s : State} {w l pos : Nat} (hpos : pos ≤ s.symLen.toNat) (hqpos : s.qpos.toNat = pos)
    (hchi : s.chi.toNat = pos) (hqend : s.qend = s.symLen) (hqmax : s.qmax.toNat = l) (hclo : s.clo.toNat = pos - w) :
    s.lpmQuery = lpm (slice s.input pos l) (min l (slice s.input pos l).length) (lastn (s.input.take pos) w) := by
  have hla : s.symView pos s.symLen.toNat = s.input.drop pos := by
    rw [symView_eq_subseq_input le_rfl, subseq, List.take_of_length_le (by simp)]
  have hwin : s.symView (pos - w) pos = lastn (s.input.take pos) w := by
    rw [lastn_take_eq_subseq (by simpa using hpos), symView_eq_subseq_input hpos]
  simp only [State.lpmQuery, hqpos, hchi, hqend, hqmax, hclo, Nat.min_self, Nat.min_eq_left hpos,
    Nat.min_eq_left (Nat.sub_le pos w), hla, hwin]
  rw [slice_eq_take_drop, lpm_take]

/-- Settles O19: the query is the engine's match, and both results fit their registers, being within the window. -/
theorem sbLpmIsTheLz77Search : Obligations.SbLpmIsTheLz77Search := by
  intro s w l pos hcap hpos hqpos hchi hqend hqmax hclo
  refine ⟨_, exec_sbLpm_of_le hcap, rfl, ?_⟩
  rw [lpmQuery_eq_lz77Search hpos hqpos hchi hqend hqmax hclo]
  obtain ⟨hlen, hoff⟩ := lpm_le_length_ctx (slice s.input pos l) (min l (slice s.input pos l).length)
    (lastn (s.input.take pos) w)
  have hwin : (lastn (s.input.take pos) w).length < 2 ^ 32 := by
    have hlt := s.symLen.isLt
    simp only [length_lastn, List.length_take, length_input]
    omega
  rw [State.finishQuery_rlen, State.finishQuery_roff, toNat_ofNum (hlen.trans_lt hwin),
    toNat_ofNum (hoff.trans_lt hwin)]

end Sys2Proof.Machine
end

section
/-! PROOF. 41_lz77.md, the encoder: the sizes (R141), the window and the lookahead as views (R151), the tokens of
`LZ77.ENC` (R140, R144 to R150, R104) and their properties (R152). The idea: literals and matches are one shape of
token, a copy of `len >= 0` symbols from `off` back and the symbol after it, so one lemma says what a step of the parse
over views is (`lz77Parse_cons`) and one says that a step of the engine is the same (`lz77EncStep_view_cases`). -/

namespace Sys2Proof.Machine

open Sys2Proof.Config

/-! ### The commands with valid sizes -/

theorem exec_lz77Enc_of_valid {s : State} (hlen : s.symLen.toNat ≤ s.params.symCap) (hw : 0 < s.wsize.toInt)
    (hl : 0 < s.lsize.toInt) :
    exec .lz77Enc s =
      .next (State.finishEncode (lz77Encode s.params s.wsize.toNat s.lsize.toNat s.input) s) := by
  obtain ⟨hlt, -⟩ | ⟨-, hsize, -⟩ | ⟨-, -, -, ho⟩ := execLz77Enc_cases (s := s) rfl
  · omega
  · omega
  · exact ho

theorem exec_lz77Dec_of_valid {s : State} (hlen : s.tokLen.toNat ≤ s.params.tokCap) (hw : 0 < s.wsize.toInt)
    (hl : 0 < s.lsize.toInt) :
    exec .lz77Dec s = .next (State.finishDecode (lz77Decode s.params s.stream) s) := by
  obtain ⟨hlt, -⟩ | ⟨-, hsize, -⟩ | ⟨-, -, -, ho⟩ := execLz77Dec_cases (s := s) rfl
  · omega
  · omega
  · exact ho

/-- Settles O21, by the cases of the two commands: the length is in range and a size is not, which leaves one. -/
theorem lz77SizesMustBePositive : Obligations.Lz77SizesMustBePositive := by
  intro s hsize
  constructor
  · intro hlen
    obtain ⟨hlt, -⟩ | ⟨-, -, ho⟩ | ⟨-, hw, hl, -⟩ := execLz77Enc_cases (s := s) rfl
    · omega
    · exact ho
    · omega
  · intro hlen
    obtain ⟨hlt, -⟩ | ⟨-, -, ho⟩ | ⟨-, hw, hl, -⟩ := execLz77Dec_cases (s := s) rfl
    · omega
    · exact ho
    · omega

/-! ### Parts of a sequence -/

section
variable {α : Type} (xs : List α) {i j k : Nat}

theorem subseq_append_subseq (hij : i ≤ j) (hjk : j ≤ k) : subseq xs i j ++ subseq xs j k = subseq xs i k := by
  have hlen : k - i = (j - i) + (k - j) := by omega
  have hstart : i + (j - i) = j := by omega
  rw [subseq, subseq, subseq, hlen, List.take_add, List.drop_drop, hstart]

theorem lastn_subseq {w : Nat} (hi : i ≤ j - w) (hj : j ≤ xs.length) :
    lastn (subseq xs i j) w = subseq xs (j - w) j := by
  have hdrop : i + (min (j - i) (xs.length - i) - min w (min (j - i) (xs.length - i))) = j - w := by omega
  rw [lastn, length_subseq, subseq, List.drop_take, List.drop_drop, hdrop, subseq]
  congr 1
  omega

theorem slice_eq_subseq (i n : Nat) : slice xs i n = subseq xs i (min (i + n) xs.length) := by
  rw [slice_eq_take_drop, subseq, List.take_eq_take_iff, List.length_drop]
  omega

end

/-! ### The fields of a token -/

section
variable (off len : Nat) (x : Option Sym)

@[simp] theorem lz77Token_tag : (lz77Token off len x).tag = 0#2 := by cases x <;> rfl
@[simp] theorem lz77Token_a : (lz77Token off len x).a = Word.ofNum off := by cases x <;> rfl
@[simp] theorem lz77Token_b : (lz77Token off len x).b = Word.ofNum len := by cases x <;> rfl
@[simp] theorem lz77Token_hasSym : (lz77Token off len x).hasSym = x.isSome := by cases x <;> rfl
@[simp] theorem lz77Token_symbol : (lz77Token off len x).symbol = x := by cases x <;> rfl

end

theorem optSym_eq_toList (x : Option Sym) : optSym x = x.toList := by cases x <;> rfl

/-- The trailing symbol is there, and counts for one, unless the match reaches the end of the input. -/
theorem length_optSym_getElem? (input : List Sym) (i : Nat) :
    (optSym input[i]?).length = if i < input.length then 1 else 0 := by
  by_cases h : i < input.length <;> simp [optSym, h]

/-! ### The search at a cursor -/

/-- The match of R144 between the views of R151 at cursor `pos`: its length and its offset. -/
def lz77Search (w l : Nat) (input : List Sym) (pos : Nat) : Nat × Nat :=
  lpm (subseq input pos (min (pos + l) input.length)) l (subseq input (pos - w) pos)

/-- The token emitted at cursor `pos` (R145 to R147), a literal being the match of length 0. -/
def lz77TokenAt (w l : Nat) (input : List Sym) (pos : Nat) : Token :=
  lz77Token (lz77Search w l input pos).2 (lz77Search w l input pos).1 input[pos + (lz77Search w l input pos).1]?

/-- The cursor after the token emitted at `pos`. -/
def lz77Next (w l : Nat) (input : List Sym) (pos : Nat) : Nat :=
  min (pos + (lz77Search w l input pos).1 + 1) input.length

/-- At cursor `pos` the next `len` symbols of the input repeat those `off` back, within the window and the
lookahead; a copy of nothing has offset 0. -/
structure Lz77Copies (w l : Nat) (input : List Sym) (pos len off : Nat) : Prop where
  len_le_off : len ≤ off
  off_eq_zero : len = 0 → off = 0
  off_le : off ≤ min w pos
  len_le : len ≤ l
  fits : pos + len ≤ input.length
  copy : subseq input (pos - off) (pos - off + len) = subseq input pos (pos + len)

section
variable (w l : Nat) {input : List Sym} {pos : Nat}

/-- What the search finds is a copy (R120, R121): an occurrence at `q` of the window lies `|win| - q` back. -/
theorem lz77Search_copies (hpos : pos ≤ input.length) :
    Lz77Copies w l input pos (lz77Search w l input pos).1 (lz77Search w l input pos).2 := by
  have hwin : (subseq input (pos - w) pos).length = min w pos := by rw [length_subseq]; omega
  have hla : (subseq input pos (min (pos + l) input.length)).length = min l (input.length - pos) := by
    rw [length_subseq]; omega
  obtain ⟨h0, -⟩ | ⟨len, q, hm, h1, hlen, ⟨hocc, -⟩, -⟩ :=
    lpm_cases (subseq input pos (min (pos + l) input.length)) l (subseq input (pos - w) pos)
  · rw [lz77Search, h0]
    exact ⟨le_rfl, fun _ => rfl, Nat.zero_le _, Nat.zero_le _, hpos, by simp [subseq]⟩
  · rw [lz77Search, hm]
    obtain ⟨hq, heq⟩ := occursAt_iff.mp hocc
    rw [List.length_take, Nat.min_eq_left (by omega)] at hq heq
    rw [hwin] at hq ⊢
    rw [hla] at hlen
    change Lz77Copies w l input pos len (min w pos - q)
    refine ⟨by omega, fun h => by omega, Nat.sub_le _ _, by omega, by omega, ?_⟩
    have hstart : pos - (min w pos - q) = pos - w + q := by omega
    rw [subseq, subseq, List.drop_take, List.take_take, List.take_take, List.drop_drop,
      Nat.min_eq_left (by omega), Nat.min_eq_left (by omega)] at heq
    simpa [subseq, hstart] using heq

theorem lz77Next_gt (hpos : pos < input.length) : pos < lz77Next w l input pos := by
  rw [lz77Next]; omega

theorem lz77Next_le : lz77Next w l input pos ≤ input.length := Nat.min_le_right _ _

/-- The two forms of R145 to R147 are the one token of `lz77TokenAt`. -/
theorem lz77Emission_lz77Search (hpos : pos < input.length) :
    lz77Emission input pos (lz77Search w l input pos).1 (lz77Search w l input pos).2 =
      (lz77TokenAt w l input pos, lz77Next w l input pos - pos) := by
  have hc := lz77Search_copies w l (Nat.le_of_lt hpos)
  have hfits := hc.fits
  unfold lz77Emission lz77TokenAt lz77Next
  by_cases h1 : 1 ≤ (lz77Search w l input pos).1
  · rw [if_pos h1]
    cases hx : input[pos + (lz77Search w l input pos).1]? with
    | none =>
      have hend := List.getElem?_eq_none_iff.mp hx
      exact Prod.ext rfl (by dsimp only; omega)
    | some x =>
      have hin := (List.getElem?_eq_some_iff.mp hx).1
      exact Prod.ext rfl (by dsimp only; omega)
  · have h0 : (lz77Search w l input pos).1 = 0 := by omega
    rw [if_neg h1, hc.off_eq_zero h0, h0]
    exact Prod.ext rfl (by dsimp only; omega)

/-- The number of symbols of the token is what the cursor moves by. -/
theorem lz77Span_lz77TokenAt (hN : input.length < 2 ^ 32) (hpos : pos < input.length) :
    pos + lz77Span (lz77TokenAt w l input pos) = lz77Next w l input pos := by
  have hfits := (lz77Search_copies w l (Nat.le_of_lt hpos)).fits
  rw [lz77Span, lz77TokenAt, lz77Token_b, lz77Token_symbol, toNat_ofNum (by omega), length_optSym_getElem?, lz77Next]
  split <;> omega

end

/-! ### The parse over views -/

section
variable {w l : Nat} {input : List Sym}

/-- One token of the parse. -/
theorem lz77Parse_cons {pos : Nat} {t : Token} {ts : List Token} :
    lz77Parse w l input pos (t :: ts) ↔
      pos < input.length ∧ t = lz77TokenAt w l input pos ∧ lz77Parse w l input (lz77Next w l input pos) ts := by
  simp only [lz77Parse]
  change (_ ∧ if (lz77Search w l input pos).1 = 0 then _
    else t = lz77TokenAt w l input pos ∧ lz77Parse w l input (lz77Next w l input pos) ts) ↔ _
  refine and_congr_right fun hpos => ?_
  split
  · next h0 =>
    have hoff := (lz77Search_copies w l (Nat.le_of_lt hpos)).off_eq_zero h0
    have hnext : lz77Next w l input pos = pos + 1 := by rw [lz77Next, h0]; omega
    rw [lz77TokenAt, h0, hoff, hnext]
    exact Iff.rfl
  · rfl

/-- Every input has a parse: the cursor moves on until it is at the end. -/
theorem exists_lz77Parse (pos : Nat) (hpos : pos ≤ input.length) : ∃ toks, lz77Parse w l input pos toks := by
  by_cases h : pos < input.length
  · have hgt := lz77Next_gt w l h
    obtain ⟨toks, ht⟩ := exists_lz77Parse (lz77Next w l input pos) (lz77Next_le w l)
    exact ⟨_ :: toks, lz77Parse_cons.mpr ⟨h, rfl, ht⟩⟩
  · exact ⟨[], by rw [lz77Parse]; omega⟩
termination_by input.length - pos

/-- Every token consumes a symbol (R150, R152 (e)). -/
theorem length_le_of_lz77Parse : ∀ {toks : List Token} {pos : Nat}, lz77Parse w l input pos toks →
    pos + toks.length ≤ input.length
  | [], pos, h => Nat.le_of_eq h
  | t :: ts, pos, h => by
    obtain ⟨hpos, -, hts⟩ := lz77Parse_cons.mp h
    have hgt := lz77Next_gt w l hpos
    have hle := length_le_of_lz77Parse hts
    rw [List.length_cons]
    omega

theorem lz77Total_cons (t : Token) (ts : List Token) : lz77Total (t :: ts) = lz77Span t + lz77Total ts := by
  simp [lz77Total]

variable (hN : input.length < 2 ^ 32)
include hN

/-- The tokens after the first ones are the parse from the cursor these have moved to. -/
theorem lz77Parse_of_append : ∀ {pre post : List Token} {pos : Nat}, lz77Parse w l input pos (pre ++ post) →
    lz77Parse w l input (pos + lz77Total pre) post
  | [], _, _, h => h
  | t :: pre, post, pos, h => by
    obtain ⟨hpos, rfl, hts⟩ := lz77Parse_cons.mp h
    have hpost := lz77Parse_of_append hts
    rwa [← lz77Span_lz77TokenAt w l hN hpos, Nat.add_assoc, ← lz77Total_cons] at hpost

/-- The tokens stand for the whole input (R152 (d)). -/
theorem lz77Total_of_lz77Parse {toks : List Token} (h : lz77Parse w l input 0 toks) :
    lz77Total toks = input.length := by
  have hend : 0 + lz77Total toks = input.length :=
    lz77Parse_of_append hN (pre := toks) (post := []) (by rwa [List.append_nil])
  omega

/-- A token of the parse is the one emitted at the total of the tokens before it. -/
theorem lz77Parse_getElem? {toks : List Token} (h : lz77Parse w l input 0 toks) {i : Nat} {r : Token}
    (hr : toks[i]? = some r) :
    lz77Total (toks.take i) < input.length ∧ r = lz77TokenAt w l input (lz77Total (toks.take i)) ∧
      lz77Parse w l input (lz77Next w l input (lz77Total (toks.take i))) (toks.drop (i + 1)) := by
  obtain ⟨hi, rfl⟩ := List.getElem?_eq_some_iff.mp hr
  have hsplit : toks.take i ++ toks[i] :: toks.drop (i + 1) = toks := by simp
  have hrest := lz77Parse_of_append hN (hsplit.symm ▸ h)
  rwa [Nat.zero_add, lz77Parse_cons] at hrest

end

/-! ### The engine makes the parse -/

/-- The Search Window and the Lookahead Buffer are the views of R151 at the cursor. -/
def Lz77EncWork.viewsOk (w l : Nat) (input : List Sym) (k : Lz77EncWork) : Prop :=
  k.win = subseq input (k.pos - w) k.pos ∧ k.la = subseq input k.pos (min (k.pos + l) input.length)

section
variable {p : Params} {w l : Nat} {input : List Sym}

theorem lz77EncInit_viewsOk : (lz77EncInit l input).viewsOk w l input :=
  ⟨by simp [lz77EncInit, subseq], slice_eq_subseq input 0 l⟩

/-- The engine's search is the one over views: its bound `min(L, |la|)` leaves nothing out. -/
theorem lpm_of_viewsOk {k : Lz77EncWork} (hk : k.viewsOk w l input) :
    lpm k.la (min l k.la.length) k.win = lz77Search w l input k.pos := by
  obtain ⟨hwin, hla⟩ := hk
  rw [lz77Search, ← hwin, ← hla, lpm, lpm]
  congr 1
  omega

/-- What an iteration can do where the views hold: `TOK` is full, or the token of the parse is emitted and the views
hold at the next cursor. -/
theorem lz77EncStep_view_cases {k : Lz77EncWork} (hk : k.viewsOk w l input) (hpos : k.pos < input.length) :
    (k.out.length = p.tokCap ∧
      lz77EncStep p w l input k = .error { kind := .capacityExceeded, info := Word.ofNum k.pos }) ∨
    (k.out.length ≠ p.tokCap ∧ ∃ k', lz77EncStep p w l input k = .ok k' ∧ k'.viewsOk w l input ∧
      k'.pos = lz77Next w l input k.pos ∧ k'.out = k.out ++ [lz77TokenAt w l input k.pos]) := by
  obtain hfull | ⟨hroom, m, e, rfl, rfl, ho⟩ := lz77EncStep_cases (rfl : lz77EncStep p w l input k = _)
  · exact .inl hfull
  · rw [lpm_of_viewsOk hk, lz77Emission_lz77Search w l hpos] at ho
    have hgt := lz77Next_gt w l hpos
    have hmove : k.pos + (lz77Next w l input k.pos - k.pos) = lz77Next w l input k.pos := by omega
    rw [hmove] at ho
    refine .inr ⟨hroom, _, ho, ⟨?_, slice_eq_subseq _ _ _⟩, rfl, rfl⟩
    rw [hk.1, subseq_append_subseq _ (by omega) (by omega), lastn_subseq _ (by omega) (lz77Next_le w l)]

/-- The loop emits the tokens of the parse while `TOK` has room for them; the iterations left are enough for the
rest. -/
theorem lz77EncLoop_emits (hN : input.length < 2 ^ 32) : ∀ {pre post : List Token} {n : Nat} {k : Lz77EncWork},
    k.viewsOk w l input → input.length ≤ k.pos + n → lz77Parse w l input k.pos (pre ++ post) →
    k.out.length + pre.length ≤ p.tokCap →
    ∃ n' k', lz77EncLoop p w l input n k = lz77EncLoop p w l input n' k' ∧ k'.viewsOk w l input ∧
      input.length ≤ k'.pos + n' ∧ k'.pos = k.pos + lz77Total pre ∧ k'.out = k.out ++ pre := by
  intro pre
  induction pre with
  | nil => exact fun hk hn _ _ => ⟨_, _, rfl, hk, hn, rfl, (List.append_nil _).symm⟩
  | cons t pre ih =>
    intro post n k hk hn hparse hroom
    obtain ⟨hpos, rfl, hrest⟩ := lz77Parse_cons.mp hparse
    rw [List.length_cons] at hroom
    obtain ⟨n, rfl⟩ : ∃ m, n = m + 1 := ⟨n - 1, by omega⟩
    obtain ⟨hfull, -⟩ | ⟨-, k', hstep, hk', hpos', hout'⟩ := lz77EncStep_view_cases (p := p) hk hpos
    · omega
    have hgt := lz77Next_gt w l hpos
    obtain ⟨n'', k'', hloop, hk'', hn'', hpos'', hout''⟩ := ih hk' (n := n) (by omega) (hpos' ▸ hrest)
      (by simp only [hout', List.length_append, List.length_singleton]; omega)
    refine ⟨n'', k'', ?_, hk'', hn'', ?_, ?_⟩
    · rw [lz77EncLoop_succ p w l n k hpos, hstep, ← hloop, Except.bind]
    · have hspan := lz77Span_lz77TokenAt w l hN hpos
      rw [lz77Total_cons]
      omega
    · rw [hout'', hout', List.append_assoc, List.singleton_append]

variable {toks : List Token} (hN : input.length < 2 ^ 32) (hparse : lz77Parse w l input 0 toks)
include hN hparse

/-- A parse that fits `TOK` is what the encoder makes. -/
theorem lz77Encode_of_fits (hfit : toks.length ≤ p.tokCap) : lz77Encode p w l input = .ok (toks, 0) := by
  obtain ⟨n, k, hloop, -, -, hpos, hout⟩ := lz77EncLoop_emits (p := p) (pre := toks) (post := []) hN
    (lz77EncInit_viewsOk (w := w) (l := l)) (n := input.length) (by omega) (by rwa [List.append_nil])
    (by simpa [lz77EncInit] using hfit)
  have hend : k.pos = input.length := by
    rw [hpos, lz77Total_of_lz77Parse hN hparse]
    exact Nat.zero_add _
  rw [lz77Encode_eq_bind, hloop, lz77EncLoop_stop p w l n k (by omega), Except.bind, hout]
  rfl

/-- The first token of the parse that does not fit ends the encoder, at its cursor (R104). -/
theorem lz77Encode_of_not_fits (hfit : p.tokCap < toks.length) :
    lz77Encode p w l input =
      .error { kind := .capacityExceeded, info := Word.ofNum (lz77Total (toks.take p.tokCap)) } := by
  have hlen : (toks.take p.tokCap).length = p.tokCap := List.length_take_of_le (by omega)
  obtain ⟨n, k, hloop, hk, hn, hpos, hout⟩ := lz77EncLoop_emits (p := p) (pre := toks.take p.tokCap)
    (post := toks.drop p.tokCap) hN (lz77EncInit_viewsOk (w := w) (l := l)) (n := input.length) (by omega)
    (by rwa [List.take_append_drop]) (by simp [lz77EncInit])
  have hcursor : k.pos = lz77Total (toks.take p.tokCap) := hpos.trans (Nat.zero_add _)
  obtain ⟨hlt, -, -⟩ := lz77Parse_getElem? hN hparse (List.getElem?_eq_getElem hfit)
  obtain ⟨n, rfl⟩ : ∃ m, n = m + 1 := ⟨n - 1, by omega⟩
  obtain ⟨-, hstep⟩ | ⟨hroom, -⟩ := lz77EncStep_view_cases (p := p) hk (by omega)
  · rw [lz77Encode_eq_bind, hloop, lz77EncLoop_succ p w l n k (by omega), hstep, hcursor]
    rfl
  · exact absurd (by simp [hout, lz77EncInit, hlen]) hroom

end

/-- Settles O32: the start, and a step that is not stopped by a full `TOK`. -/
theorem lz77WindowIsAView : Obligations.Lz77WindowIsAView := by
  refine ⟨fun l input => ⟨rfl, rfl, (slice_eq_subseq input 0 l).trans (by rw [Nat.zero_add])⟩,
    fun p w l input k k' hpos hwin hla hstep => ?_⟩
  obtain ⟨-, ho⟩ | ⟨-, k₁, ho, ⟨hwin', hla'⟩, hpos', -⟩ := lz77EncStep_view_cases (p := p) ⟨hwin, hla⟩ hpos
  · rw [ho] at hstep; cases hstep
  · rw [ho] at hstep; cases hstep
    exact ⟨hpos' ▸ lz77Next_gt w l hpos, hpos' ▸ lz77Next_le w l, hwin', hla'⟩

/-! ### The command -/

theorem length_input_lt (s : State) : s.input.length < 2 ^ 32 := by
  rw [length_input]
  exact s.symLen.isLt

/-- The token stream an encode leaves (R26, R251). -/
theorem stream_finishEncode_ok {toks : List Token} {d : Nat} {s : State} (hfit : toks.length ≤ s.params.tokCap)
    (hlt : toks.length < 2 ^ 32) : (State.finishEncode (.ok (toks, d)) s).stream = toks := by
  apply List.ext_getElem
  · rw [length_stream, finishEncode_ok, toNat_ofNum hlt]
  · intro i _ hi
    rw [getElem_stream, tokAt_finishEncode_ok toks d s hfit, dif_pos hi]

section
variable {s : State} {toks : List Token}
  (hparse : lz77Parse s.wsize.toNat s.lsize.toNat s.input 0 toks)
include hparse

theorem length_lz77Parse_input : toks.length ≤ s.symLen.toNat := by
  simpa using length_le_of_lz77Parse hparse

theorem stream_finishEncode_lz77Parse (hfit : toks.length ≤ s.params.tokCap) (d : Nat) :
    (State.finishEncode (.ok (toks, d)) s).stream = toks :=
  stream_finishEncode_ok hfit ((length_lz77Parse_input hparse).trans_lt s.symLen.isLt)

end

/-- Settles O31, by whether the parse fits `TOK`. -/
theorem lz77EncodeIsTheParse : Obligations.Lz77EncodeIsTheParse := by
  intro s toks _ hlen hw hl hparse
  have hexec := exec_lz77Enc_of_valid hlen hw hl
  split
  · next hfit =>
    rw [lz77Encode_of_fits (length_input_lt s) hparse hfit] at hexec
    exact ⟨_, hexec, rfl, stream_finishEncode_lz77Parse hparse hfit 0⟩
  · next hfit =>
    rw [lz77Encode_of_not_fits (length_input_lt s) hparse (by omega)] at hexec
    exact ⟨_, hexec, rfl, rfl, rfl, rfl⟩

/-- Settles O30: the parse has at most one token per symbol, so it fits. -/
theorem lz77EncodeSucceeds : Obligations.Lz77EncodeSucceeds := by
  intro s hlen hfit hw hl
  obtain ⟨toks, hparse⟩ := exists_lz77Parse (w := s.wsize.toNat) (l := s.lsize.toNat) 0 (Nat.zero_le s.input.length)
  have htoks := length_lz77Parse_input hparse
  have hexec := exec_lz77Enc_of_valid hlen hw hl
  rw [lz77Encode_of_fits (length_input_lt s) hparse (by omega)] at hexec
  exact ⟨_, hexec, rfl, rfl, rfl, rfl, rfl, (toNat_ofNum_le _).trans htoks,
    (stream_finishEncode_lz77Parse hparse (by omega) 0).symm ▸ hparse⟩

/-- What a successful `LZ77.ENC` leaves: the parse, in a `TOK` that has room for it. -/
theorem lz77Enc_success {s t : State} (h : exec .lz77Enc s = .next t) (herr : t.err = none) :
    s.symLen.toNat ≤ s.params.symCap ∧ ∃ toks, lz77Parse s.wsize.toNat s.lsize.toNat s.input 0 toks ∧
      toks.length ≤ s.params.tokCap ∧ t = State.finishEncode (.ok (toks, 0)) s ∧ t.stream = toks := by
  obtain ⟨-, ho⟩ | ⟨-, -, ho⟩ | ⟨hlen, -, -, ho⟩ := execLz77Enc_cases h <;> cases ho
  · cases herr
  · cases herr
  obtain ⟨toks, hparse⟩ := exists_lz77Parse (w := s.wsize.toNat) (l := s.lsize.toNat) 0 (Nat.zero_le s.input.length)
  by_cases hfit : toks.length ≤ s.params.tokCap
  · rw [lz77Encode_of_fits (length_input_lt s) hparse hfit]
    exact ⟨hlen, toks, hparse, hfit, rfl, stream_finishEncode_lz77Parse hparse hfit 0⟩
  · rw [lz77Encode_of_not_fits (length_input_lt s) hparse (by omega)] at herr
    cases herr

/-- The shape of the token emitted at a cursor (R152 (b)): a literal, or a match within window and lookahead. -/
theorem lz77TokenAt_shape (w l : Nat) {input : List Sym} {pos : Nat} (hN : input.length < 2 ^ 32)
    (hpos : pos < input.length) {r : Token} (hr : r = lz77TokenAt w l input pos) : r.tag = 0#2 ∧
      ((r.b.toNat = 0 ∧ r.a.toNat = 0 ∧ r.hasSym = true) ∨
       (1 ≤ r.b.toNat ∧ r.b.toNat ≤ r.a.toNat ∧ r.a.toNat ≤ min w pos ∧ r.b.toNat ≤ l)) := by
  have hc := lz77Search_copies w l (Nat.le_of_lt hpos)
  obtain ⟨hlenOff, hzero, hoff, hlenL, hfits, -⟩ := hc
  rw [hr, lz77TokenAt, lz77Token_a, lz77Token_b, lz77Token_hasSym, toNat_ofNum (by omega), toNat_ofNum (by omega)]
  refine ⟨lz77Token_tag _ _ _, ?_⟩
  obtain h0 | h1 := Nat.eq_zero_or_pos (lz77Search w l input pos).1
  · exact .inl ⟨h0, hzero h0, by simp [h0, hpos]⟩
  · exact .inr ⟨h1, hlenOff, hoff, hlenL⟩

/-- A token without a symbol is a match to the end of the input (R146). -/
theorem lz77TokenAt_without_symbol (w l : Nat) {input : List Sym} {pos : Nat}
    (hsym : (lz77TokenAt w l input pos).hasSym = false) : lz77Next w l input pos = input.length := by
  rw [lz77TokenAt, lz77Token_hasSym, Option.isSome_eq_false_iff, Option.isNone_iff_eq_none,
    List.getElem?_eq_none_iff] at hsym
  rw [lz77Next]
  omega

/-- The first token is the literal of the first symbol: the window is empty (R152 (f)). -/
theorem lz77TokenAt_zero (w l : Nat) (input : List Sym) : lz77TokenAt w l input 0 = lz77Token 0 0 input[0]? := by
  have hc := lz77Search_copies w l (Nat.zero_le input.length)
  have hoff : (lz77Search w l input 0).2 = 0 := by have := hc.off_le; omega
  have hlen : (lz77Search w l input 0).1 = 0 := by have := hc.len_le_off; omega
  rw [lz77TokenAt, hoff, hlen]

/-- Settles O33, from the parse: each token is the one emitted at the total of those before it. -/
theorem lz77EncoderOutput : Obligations.Lz77EncoderOutput := by
  intro s t _ h herr
  obtain ⟨-, toks, hparse, -, -, hstream⟩ := lz77Enc_success h herr
  have hN := length_input_lt s
  have hlen : toks.length = t.tokLen.toNat := by rw [← hstream, length_stream]
  have hle := length_lz77Parse_input hparse
  rw [hstream]
  refine ⟨fun h0 => by omega, fun i r hr => ?_, fun i r hr hsym => ?_, ?_, hlen, by omega, fun r hr => ?_⟩
  · obtain ⟨hpos, hr, -⟩ := lz77Parse_getElem? hN hparse hr
    exact lz77TokenAt_shape _ _ hN hpos hr
  · have hi := (List.getElem?_eq_some_iff.mp hr).1
    obtain ⟨hpos, hr, hrest⟩ := lz77Parse_getElem? hN hparse hr
    have hend := lz77TokenAt_without_symbol _ _ (hr ▸ hsym)
    have hlast := length_le_of_lz77Parse hrest
    rw [List.length_drop] at hlast
    obtain ⟨-, ⟨-, -, hlit⟩ | ⟨hmatch, -⟩⟩ := lz77TokenAt_shape _ _ hN hpos hr
    · rw [hsym] at hlit; cases hlit
    · exact ⟨by omega, hmatch⟩
  · rw [lz77Total_of_lz77Parse hN hparse, length_input]
  · obtain ⟨-, hr, -⟩ := lz77Parse_getElem? hN hparse hr
    exact hr.trans (lz77TokenAt_zero _ _ _)

end Sys2Proof.Machine
end

section
/-! PROOF. 41_lz77.md, the decoder: what `LZ77.DEC` makes of a valid stream (R153, R155, R157), where it stops (R154),
what it does not depend on (R156), and the round trip (R159). The idea: on valid tokens the loop is the fold of one
copy-and-append (`lz77DecLoop_append`); on the tokens of the parse that fold gives the input up to the cursor
(`lz77Rebuild_lz77Parse`). -/

namespace Sys2Proof.Machine

open Sys2Proof.Config

/-! ### Parts of a sequence -/

section
variable {α : Type} (xs : List α) {i j n : Nat}

theorem subseq_take (h : j ≤ n) : subseq (xs.take n) i j = subseq xs i j := by
  rw [subseq, subseq, List.drop_take, List.take_take, Nat.min_eq_left (by omega)]

theorem take_append_subseq (h : i ≤ j) : xs.take i ++ subseq xs i j = xs.take j := by
  simpa [subseq] using subseq_append_subseq xs (Nat.zero_le i) h

end

/-! ### What a token appends -/

/-- The output after the token (R155): the copy from `offset` positions back, then the trailing symbol. -/
def lz77Append (out : List Sym) (r : Token) : List Sym :=
  (out ++ subseq out (out.length - r.a.toNat) (out.length - r.a.toNat + r.b.toNat)) ++ optSym r.symbol

/-- The output after a list of tokens. -/
def lz77Rebuild (out : List Sym) (toks : List Token) : List Sym := toks.foldl lz77Append out

theorem lz77TokenValid_iff {n : Nat} {r : Token} : lz77TokenValid n r = true ↔
    r.tag = 0#2 ∧ r.a.toNat ≤ n ∧ r.b.toNat ≤ r.a.toNat ∧ ¬ (r.b.toNat = 0 ∧ r.symbol = none) := by
  cases hx : r.symbol <;> simp [lz77TokenValid, hx, and_assoc]

theorem lz77StreamValid_cons {cap n : Nat} {r : Token} {rest : List Token} :
    lz77StreamValid cap n (r :: rest) = true ↔ lz77TokenValid n r = true ∧ n + lz77Span r ≤ cap ∧
      lz77StreamValid cap (n + lz77Span r) rest = true := by
  simp [lz77StreamValid, and_assoc]

section
variable {out : List Sym} {r : Token} (hr : lz77TokenValid out.length r = true)
include hr

theorem length_lz77Append : (lz77Append out r).length = out.length + lz77Span r := by
  obtain ⟨-, ha, hb, -⟩ := lz77TokenValid_iff.mp hr
  simp only [lz77Append, lz77Span, List.length_append, length_subseq]
  omega

/-- A copied symbol is the one `offset` positions back. -/
theorem lz77Append_getElem?_copy {j : Nat} (hj : j < r.b.toNat) :
    (lz77Append out r)[out.length + j]? = (lz77Append out r)[out.length - r.a.toNat + j]? := by
  obtain ⟨-, ha, hb, -⟩ := lz77TokenValid_iff.mp hr
  have hlen : (subseq out (out.length - r.a.toNat) (out.length - r.a.toNat + r.b.toNat)).length = r.b.toNat := by
    rw [length_subseq]; omega
  rw [lz77Append, List.append_assoc, List.getElem?_append_right (by omega), Nat.add_sub_cancel_left,
    List.getElem?_append_left (by omega), List.getElem?_append_left (by omega), subseq,
    List.getElem?_take_of_lt (by omega), List.getElem?_drop]

/-- The trailing symbol comes after the copy. -/
theorem lz77Append_getElem?_symbol {x : Sym} (hx : r.symbol = some x) :
    (lz77Append out r)[out.length + r.b.toNat]? = some x := by
  obtain ⟨-, ha, hb, -⟩ := lz77TokenValid_iff.mp hr
  have hlen : (out ++ subseq out (out.length - r.a.toNat) (out.length - r.a.toNat + r.b.toNat)).length =
      out.length + r.b.toNat := by
    rw [List.length_append, length_subseq]; omega
  rw [lz77Append, List.getElem?_append_right (by omega), hlen, Nat.sub_self, hx]
  rfl

/-- A valid token stands for a symbol at least (R154). -/
theorem one_le_lz77Span : 1 ≤ lz77Span r := by
  obtain ⟨-, -, -, hsym⟩ := lz77TokenValid_iff.mp hr
  rw [lz77Span]
  cases hx : r.symbol with
  | none =>
    have hb : r.b.toNat ≠ 0 := fun h0 => hsym ⟨h0, hx⟩
    omega
  | some x => exact Nat.le_add_left 1 r.b.toNat

/-- What the step on a valid token can do: no room for its symbols, or they are appended. -/
theorem lz77DecStep_valid_cases (p : Params) (t : Nat) :
    (p.symCap - out.length < lz77Span r ∧
      lz77DecStep p t r out = .error { kind := .capacityExceeded, info := Word.ofNum t }) ∨
    (lz77Span r ≤ p.symCap - out.length ∧ lz77DecStep p t r out = .ok (lz77Append out r)) := by
  obtain ⟨htag, ha, hb, hsym⟩ := lz77TokenValid_iff.mp hr
  obtain ⟨hbad | hbad | hbad | hbad, -⟩ | ⟨-, -, -, -, hroom⟩ :=
    lz77DecStep_cases (rfl : lz77DecStep p t r out = _)
  · exact absurd htag hbad
  · omega
  · omega
  · exact absurd hbad hsym
  · exact hroom

theorem lz77DecStep_of_fits {p : Params} (t : Nat) (hfit : out.length + lz77Span r ≤ p.symCap) :
    lz77DecStep p t r out = .ok (lz77Append out r) := by
  obtain ⟨hfull, -⟩ | ⟨-, ho⟩ := lz77DecStep_valid_cases hr p t
  · omega
  · exact ho

/-- A valid token whose symbols do not fit is `CapacityExceeded(t)` (R246 (c)). -/
theorem lz77DecStep_of_not_fits {p : Params} (t : Nat) (hfit : p.symCap < out.length + lz77Span r) :
    lz77DecStep p t r out = .error { kind := .capacityExceeded, info := Word.ofNum t } := by
  have hspan := one_le_lz77Span hr
  obtain ⟨-, ho⟩ | ⟨hroom, -⟩ := lz77DecStep_valid_cases hr p t
  · exact ho
  · omega

end

/-- A token that fails a test of R101 or R154 is `CorruptToken(t)`. -/
theorem lz77DecStep_of_corrupt {p : Params} {out : List Sym} {r : Token} (t : Nat)
    (hr : r.tag ≠ 0#2 ∨ out.length < r.a.toNat ∨ r.a.toNat < r.b.toNat ∨ (r.b.toNat = 0 ∧ r.symbol = none)) :
    lz77DecStep p t r out = .error { kind := .corruptToken, info := Word.ofNum t } := by
  obtain ⟨-, ho⟩ | ⟨htag, ha, hb, hsym, -⟩ := lz77DecStep_cases (rfl : lz77DecStep p t r out = _)
  · exact ho
  · obtain h | h | h | h := hr
    · exact absurd htag h
    · omega
    · omega
    · exact absurd h hsym

/-! ### What a stream appends -/

/-- The loop rebuilds a valid stream and goes on with what follows it. -/
theorem lz77DecLoop_append {p : Params} (rest : List Token) : ∀ {toks : List Token} {t : Nat} {out : List Sym},
    lz77StreamValid p.symCap out.length toks = true →
    lz77DecLoop p (toks ++ rest) t out = lz77DecLoop p rest (t + toks.length) (lz77Rebuild out toks)
  | [], _, _, _ => rfl
  | r :: toks, t, out, h => by
    obtain ⟨hr, hfit, hrest⟩ := lz77StreamValid_cons.mp h
    rw [← length_lz77Append hr] at hrest
    have hindex : t + (r :: toks).length = t + 1 + toks.length := by rw [List.length_cons]; omega
    rw [List.cons_append, lz77DecLoop_cons, lz77DecStep_of_fits hr t hfit, Except.bind,
      lz77DecLoop_append rest hrest, hindex]
    rfl

/-- A valid stream appends as many symbols as its tokens stand for. -/
theorem length_lz77Rebuild {cap : Nat} : ∀ {toks : List Token} {out : List Sym},
    lz77StreamValid cap out.length toks = true → (lz77Rebuild out toks).length = out.length + lz77Total toks
  | [], _, _ => rfl
  | r :: toks, out, h => by
    obtain ⟨hr, -, hrest⟩ := lz77StreamValid_cons.mp h
    have hstep := length_lz77Append hr
    rw [← hstep] at hrest
    rw [lz77Total_cons, ← Nat.add_assoc, ← hstep]
    exact length_lz77Rebuild hrest

theorem length_lz77Rebuild_nil {cap : Nat} {toks : List Token} (h : lz77StreamValid cap 0 toks = true) :
    (lz77Rebuild [] toks).length = lz77Total toks :=
  (length_lz77Rebuild (out := []) h).trans (Nat.zero_add _)

/-- The symbols of a valid stream fit. -/
theorem lz77Total_le_of_valid {cap : Nat} : ∀ {toks : List Token} {n : Nat}, n ≤ cap →
    lz77StreamValid cap n toks = true → n + lz77Total toks ≤ cap
  | [], _, hn, _ => hn
  | r :: toks, n, _, h => by
    obtain ⟨-, hfit, hrest⟩ := lz77StreamValid_cons.mp h
    rw [lz77Total_cons, ← Nat.add_assoc]
    exact lz77Total_le_of_valid hfit hrest

/-- What was there stays. -/
theorem lz77Rebuild_getElem? (toks : List Token) : ∀ {out : List Sym} {i : Nat}, i < out.length →
    (lz77Rebuild out toks)[i]? = out[i]? := by
  induction toks with
  | nil => exact fun _ => rfl
  | cons r toks ih =>
    intro out i hi
    have happend : lz77Append out r = out ++ (subseq out (out.length - r.a.toNat)
        (out.length - r.a.toNat + r.b.toNat) ++ optSym r.symbol) := List.append_assoc _ _ _
    have hi' : i < (lz77Append out r).length := by rw [happend, List.length_append]; omega
    exact (ih hi').trans (by rw [happend, List.getElem?_append_left hi])

theorem lz77StreamValid_append {cap : Nat} {post : List Token} : ∀ {pre : List Token} {n : Nat},
    lz77StreamValid cap n (pre ++ post) = true ↔
      lz77StreamValid cap n pre = true ∧ lz77StreamValid cap (n + lz77Total pre) post = true
  | [], n => by simp [lz77StreamValid, lz77Total]
  | r :: pre, n => by
    rw [List.cons_append, lz77StreamValid_cons, lz77StreamValid_append, lz77StreamValid_cons, lz77Total_cons,
      Nat.add_assoc]
    simp only [and_assoc]

/-- In the output of a valid stream every token's symbols are the copy and the trailing symbol: what a token appends
stays to the end. -/
theorem lz77Rebuild_token {cap : Nat} {pre post : List Token} {r : Token}
    (h : lz77StreamValid cap 0 (pre ++ r :: post) = true) :
    (∀ j, j < r.b.toNat → ∃ x, (lz77Rebuild [] (pre ++ r :: post))[lz77Total pre + j]? = some x ∧
      (lz77Rebuild [] (pre ++ r :: post))[lz77Total pre - r.a.toNat + j]? = some x) ∧
    ∀ x, r.symbol = some x → (lz77Rebuild [] (pre ++ r :: post))[lz77Total pre + r.b.toNat]? = some x := by
  rw [lz77StreamValid_append, Nat.zero_add, lz77StreamValid_cons] at h
  obtain ⟨hpre, hr, -⟩ := h
  rw [← length_lz77Rebuild_nil hpre] at hr ⊢
  have hlen := length_lz77Append hr
  obtain ⟨-, ha, hb, -⟩ := lz77TokenValid_iff.mp hr
  have hspan : r.b.toNat ≤ lz77Span r := Nat.le_add_right _ _
  have hkeep {i : Nat} (hi : i < (lz77Append (lz77Rebuild [] pre) r).length) :
      (lz77Rebuild [] (pre ++ r :: post))[i]? = (lz77Append (lz77Rebuild [] pre) r)[i]? := by
    rw [lz77Rebuild, List.foldl_append]
    exact lz77Rebuild_getElem? post hi
  constructor
  · intro j hj
    have hback : (lz77Rebuild [] pre).length - r.a.toNat + j < (lz77Append (lz77Rebuild [] pre) r).length := by omega
    refine ⟨_, ?_, (hkeep hback).trans (List.getElem?_eq_getElem hback)⟩
    rw [hkeep (by omega), lz77Append_getElem?_copy hr hj, List.getElem?_eq_getElem hback]
  · intro x hx
    have hsym := lz77Append_getElem?_symbol hr hx
    rw [hkeep (List.getElem?_eq_some_iff.mp hsym).1, hsym]

/-! ### The command -/

/-- A valid stream decodes to what its tokens append. -/
theorem lz77Decode_of_valid {p : Params} {toks : List Token} (h : lz77StreamValid p.symCap 0 toks = true) :
    lz77Decode p toks = .ok (lz77Rebuild [] toks, 0) := by
  have hloop := lz77DecLoop_append (p := p) [] (toks := toks) (t := 0) (out := []) h
  rw [List.append_nil] at hloop
  rw [lz77Decode_eq_bind, hloop]
  rfl

/-- A token at which the step raises after a valid stream ends the decoder with what it raises. -/
theorem lz77Decode_of_step_error {p : Params} {pre post : List Token} {r : Token} {e : Raise}
    (hpre : lz77StreamValid p.symCap 0 pre = true)
    (hstep : lz77DecStep p pre.length r (lz77Rebuild [] pre) = .error e) :
    lz77Decode p (pre ++ r :: post) = .error e := by
  rw [lz77Decode_eq_bind, lz77DecLoop_append (out := []) _ hpre, lz77DecLoop_cons, Nat.zero_add, hstep]
  rfl

/-- `LZ77.DEC` with positive sizes on a valid stream. -/
theorem exec_lz77Dec_of_validStream {s : State} {toks : List Token} (hstream : s.stream = toks)
    (hlen : s.tokLen.toNat ≤ s.params.tokCap) (hw : 0 < s.wsize.toInt) (hl : 0 < s.lsize.toInt)
    (hvalid : lz77StreamValid s.params.symCap 0 toks = true) :
    exec .lz77Dec s = .next (State.finishDecode (.ok (lz77Rebuild [] toks, 0)) s) := by
  rw [exec_lz77Dec_of_valid hlen hw hl, hstream, lz77Decode_of_valid hvalid]

/-- A produced symbol is what `SYM` holds at its index (R251). -/
theorem symAt_finishDecode_of_getElem? {syms : List Sym} {d : Nat} {s : State} (hfit : syms.length ≤ s.params.symCap)
    {i : Nat} {x : Sym} (h : syms[i]? = some x) : (State.finishDecode (.ok (syms, d)) s).symAt i = x := by
  obtain ⟨hi, rfl⟩ := List.getElem?_eq_some_iff.mp h
  rw [symAt_finishDecode_ok _ _ _ hfit, dif_pos hi]

/-- Settles O34: `SYM` holds the output of the stream, in which every token's symbols are as R155 says. -/
theorem lz77DecodeRebuilds : Obligations.Lz77DecodeRebuilds := by
  intro s hlen hw hl hvalid
  have hexec := exec_lz77Dec_of_validStream rfl hlen hw hl hvalid
  have htotal := length_lz77Rebuild_nil hvalid
  have hfit : (lz77Rebuild [] s.stream).length ≤ s.params.symCap := by
    have hle := lz77Total_le_of_valid (Nat.zero_le _) hvalid
    omega
  refine ⟨_, hexec, rfl, rfl, rfl, rfl, rfl, congrArg Word.ofNum htotal, fun pre r post hsplit => ?_⟩
  rw [hsplit] at hvalid hfit ⊢
  obtain ⟨hcopy, hsym⟩ := lz77Rebuild_token hvalid
  refine ⟨fun j hj => ?_, fun x hx => symAt_finishDecode_of_getElem? hfit (hsym x hx)⟩
  obtain ⟨x, hx, hback⟩ := hcopy j hj
  rw [symAt_finishDecode_of_getElem? hfit hx, symAt_finishDecode_of_getElem? hfit hback]

/-- Settles O35: the step on the bad token raises, the output before it having as many symbols as the tokens before it
stand for. -/
theorem lz77DecodeFailsAtFirstBadToken : Obligations.Lz77DecodeFailsAtFirstBadToken := by
  intro s pre r post hlen hw hl hsplit hpre
  have hexec := exec_lz77Dec_of_valid hlen hw hl
  rw [hsplit] at hexec
  rw [← length_lz77Rebuild_nil hpre]
  constructor
  · intro hbad
    rw [lz77Decode_of_step_error hpre (lz77DecStep_of_corrupt _ hbad)] at hexec
    exact ⟨_, hexec, rfl, rfl, rfl, rfl⟩
  · intro hr hfit
    rw [lz77Decode_of_step_error hpre (lz77DecStep_of_not_fits hr _ hfit)] at hexec
    exact ⟨_, hexec, rfl, rfl, rfl, rfl⟩

theorem execLz77Dec_sameDecodeResult {s₁ s₂ : State} (hp : s₁.params = s₂.params) (hl : s₁.tokLen = s₂.tokLen)
    (hst : s₁.stream = s₂.stream) (hv : s₁.sizesValid = s₂.sizesValid) :
    bothNext State.sameDecodeResult (execLz77Dec s₁) (execLz77Dec s₂) := by
  simp only [execLz77Dec, State.tokLenTooLong, hp, hl, hst, hv]
  exact .ite (raiseDecode_sameDecodeResult _ _) <|
    .ite (raiseDecode_sameDecodeResult _ _) (finishDecode_sameDecodeResult _ hp)

/-- Settles O36: of the sizes the command reads only whether they are valid, and the loop reads none of `SYM`. -/
theorem lz77DecodeIgnoresSizesAndOldSymbols : Obligations.Lz77DecodeIgnoresSizesAndOldSymbols := by
  intro s₁ s₂ t₁ t₂ hp hst hl hw₁ hl₁ hw₂ hl₂ h₁ h₂
  have hv : s₁.sizesValid = s₂.sizesValid := by simp [State.sizesValid, isPositive, hw₁, hl₁, hw₂, hl₂]
  exact (execLz77Dec_sameDecodeResult hp hl hst hv).of_eq h₁ h₂

/-! ### The round trip -/

section
variable {w l : Nat} {input : List Sym} (hN : input.length < 2 ^ 32)
include hN

/-- A token of the parse is valid where it was emitted (R159 from R152 (b), (c)). -/
theorem lz77TokenValid_lz77TokenAt {pos : Nat} (hpos : pos < input.length) :
    lz77TokenValid pos (lz77TokenAt w l input pos) = true := by
  obtain ⟨htag, ⟨hb, ha, hsym⟩ | ⟨hb, hba, ha, -⟩⟩ := lz77TokenAt_shape w l hN hpos rfl
  · exact lz77TokenValid_iff.mpr ⟨htag, by omega, by omega, fun h => by simp [Token.symbol, hsym] at h⟩
  · exact lz77TokenValid_iff.mpr ⟨htag, by omega, hba, fun h => by omega⟩

/-- A token of the parse appends the input up to the next cursor to the input up to its own. -/
theorem lz77Append_take {pos : Nat} (hpos : pos < input.length) :
    lz77Append (input.take pos) (lz77TokenAt w l input pos) = input.take (lz77Next w l input pos) := by
  obtain ⟨hlenOff, -, hoff, -, hfits, hcopy⟩ := lz77Search_copies w l (Nat.le_of_lt hpos)
  have hlen : (input.take pos).length = pos := List.length_take_of_le (by omega)
  rw [lz77Append, lz77TokenAt, lz77Token_a, lz77Token_b, lz77Token_symbol, toNat_ofNum (by omega),
    toNat_ofNum (by omega), hlen, subseq_take _ (by omega), hcopy, take_append_subseq _ (Nat.le_add_right _ _),
    optSym_eq_toList, ← List.take_add_one, lz77Next, List.take_eq_take_iff]
  omega

/-- The tokens of the parse from a cursor on are a valid stream there, and rebuild the rest of the input. -/
theorem lz77Rebuild_lz77Parse {cap : Nat} (hcap : input.length ≤ cap) : ∀ {toks : List Token} {pos : Nat},
    lz77Parse w l input pos toks →
    lz77StreamValid cap pos toks = true ∧ lz77Rebuild (input.take pos) toks = input
  | [], pos, h => ⟨rfl, List.take_of_length_le (Nat.le_of_eq h.symm)⟩
  | t :: ts, pos, h => by
    obtain ⟨hpos, rfl, hts⟩ := lz77Parse_cons.mp h
    obtain ⟨hvalid, hrest⟩ := lz77Rebuild_lz77Parse hcap hts
    have hspan := lz77Span_lz77TokenAt w l hN hpos
    have hnext := lz77Next_le w l (input := input) (pos := pos)
    refine ⟨lz77StreamValid_cons.mpr ⟨lz77TokenValid_lz77TokenAt hN hpos, by omega, hspan.symm ▸ hvalid⟩, ?_⟩
    rw [lz77Rebuild, List.foldl_cons, lz77Append_take hN hpos]
    exact hrest

end

/-- Settles O37: `LZ77.ENC` left the parse of the input, which decodes to the input. -/
theorem lz77RoundTrip : Obligations.Lz77RoundTrip := by
  intro s t w' l' _ h herr hw hl
  obtain ⟨hlen, toks, hparse, hfit, rfl, hstream⟩ := lz77Enc_success h herr
  obtain ⟨hvalid, hrebuild⟩ := lz77Rebuild_lz77Parse (length_input_lt s) (cap := s.params.symCap)
    (by rwa [length_input]) hparse
  have hinput : lz77Rebuild [] toks = s.input := hrebuild
  have hexec := exec_lz77Dec_of_validStream
    (s := { State.finishEncode (.ok (toks, 0)) s with wsize := w', lsize := l' })
    hstream ((toNat_ofNum_le _).trans hfit) hw hl hvalid
  rw [hinput] at hexec
  refine ⟨_, hexec, rfl, ?_, fun i hi => ?_⟩
  · exact BitVec.eq_of_toNat_eq (by rw [finishDecode_ok, toNat_ofNum (length_input_lt s), length_input])
  · have hi' : i < s.input.length := by rwa [length_input]
    exact symAt_finishDecode_of_getElem? (by rwa [length_input])
      (by rw [List.getElem?_eq_getElem hi', getElem_input])

end Sys2Proof.Machine
end

section
/-! PROOF. 42_lz78.md, the encoder: the longest entry (R172), the tokens of `LZ78.ENC` (R170, R173 to R175, R104), its
dictionary (R176 (c), (d), R181) and the properties of its output (R176). The idea: the entries of a dictionary, one
after the other, are the consumed input (`Lz78Rest`), so the cursor is a function of the dictionary, and the entry of a
token is the phrase of its code and its symbol, which is how the decoder computes it (`Lz78Emits`). -/

namespace Sys2Proof.Machine

open Sys2Proof.Config

/-- An element of a list one longer is one of the list, or the last. -/
theorem getElem?_snoc_eq_some {α : Type} {xs : List α} {x y : α} {i : Nat} :
    (xs ++ [x])[i]? = some y ↔ xs[i]? = some y ∨ (i = xs.length ∧ x = y) := by
  rw [List.getElem?_append]
  split
  · next hi => exact ⟨.inl, fun h => h.resolve_right fun h => by omega⟩
  · next hi =>
    rw [List.getElem?_singleton, List.getElem?_eq_none_iff.mpr (Nat.le_of_not_lt hi)]
    simp only [Option.ite_none_right_eq_some, Option.some.injEq, reduceCtorEq, false_or]
    exact and_congr_left fun _ => by omega

/-! ### The longest entry -/

/-- `best` is what R172 asks of the phrases `ps`: `(0, 0)` if `rest` begins with none of them, else the code and the
length of a longest one it begins with, the lowest code of that length. -/
def isLongestEntry (rest : List Sym) (ps : List Phrase) (best : Nat × Nat) : Prop :=
  (best = (0, 0) ∧ ∀ q ∈ ps, ¬ q <+: rest) ∨
  (∃ j p, ps[j]? = some p ∧ best = (j + 1, p.length) ∧ p <+: rest ∧
    ∀ j' q, ps[j']? = some q → q <+: rest → q.length ≤ p.length ∧ (q.length = p.length → j ≤ j'))

section
variable {rest : List Sym} {ps : List Phrase} {best : Nat × Nat}

/-- The search after one more entry. -/
theorem isLongestEntry.snoc (h : isLongestEntry rest ps best) (p : Phrase) :
    isLongestEntry rest (ps ++ [p])
      (if p.isPrefixOf rest && (decide (best.1 = 0) || decide (best.2 < p.length)) then (ps.length + 1, p.length)
       else best) := by
  split
  · next hwins =>
    simp only [Bool.and_eq_true, List.isPrefixOf_iff_prefix, Bool.or_eq_true, decide_eq_true_eq] at hwins
    obtain ⟨hp, hwins⟩ := hwins
    refine .inr ⟨ps.length, p, getElem?_snoc_eq_some.mpr (.inr ⟨rfl, rfl⟩), rfl, hp, fun j' q hj' hq => ?_⟩
    obtain hj' | ⟨rfl, rfl⟩ := getElem?_snoc_eq_some.mp hj'
    · obtain ⟨-, hnone⟩ | ⟨j, p₀, -, rfl, -, hlongest⟩ := h
      · exact absurd hq (hnone q (List.mem_of_getElem? hj'))
      · obtain ⟨hle, -⟩ := hlongest j' q hj' hq
        exact ⟨by omega, fun _ => by omega⟩
    · exact ⟨le_rfl, fun _ => le_rfl⟩
  · next hloses =>
    simp only [Bool.and_eq_true, List.isPrefixOf_iff_prefix, Bool.or_eq_true, decide_eq_true_eq, not_and,
      not_or] at hloses
    obtain ⟨rfl, hnone⟩ | ⟨j, p₀, hj, rfl, hp₀, hlongest⟩ := h
    · refine .inl ⟨rfl, fun q hq => ?_⟩
      obtain hq | hq := List.mem_append.mp hq
      · exact hnone q hq
      · exact List.mem_singleton.mp hq ▸ fun hp => (hloses hp).1 rfl
    · refine .inr ⟨j, p₀, getElem?_snoc_eq_some.mpr (.inl hj), rfl, hp₀, fun j' q hj' hq => ?_⟩
      obtain hj' | ⟨rfl, rfl⟩ := getElem?_snoc_eq_some.mp hj'
      · exact hlongest j' q hj' hq
      · have hlen := (hloses hq).2
        exact ⟨by omega, fun _ => Nat.le_of_lt (List.getElem?_eq_some_iff.mp hj).1⟩

theorem longestEntryFrom_isLongestEntry (qs : List Phrase) : ∀ {ps : List Phrase} {best : Nat × Nat},
    isLongestEntry rest ps best → isLongestEntry rest (ps ++ qs) (longestEntryFrom rest qs (ps.length + 1) best) := by
  induction qs with
  | nil => exact fun h => by rwa [List.append_nil]
  | cons p qs ih =>
    intro ps best h
    have hrest := ih (h.snoc p)
    rwa [List.append_assoc, List.length_append] at hrest

end

/-- Settles O38: the search keeps a longest entry of the phrases it has seen. -/
theorem longestEntryIsLongestPrefix : Obligations.LongestEntryIsLongestPrefix := fun dict rest =>
  longestEntryFrom_isLongestEntry (rest := rest) dict (ps := []) (best := (0, 0)) (.inl ⟨rfl, by simp⟩)

/-! ### What a token appends -/

theorem lz78Phrase_succ {dict : List Phrase} {k : Nat} {ph : Phrase} (h : dict[k]? = some ph) :
    lz78Phrase dict (k + 1) = ph := by
  rw [lz78Phrase, List.getD_eq_getElem?_getD, h]
  rfl

/-- The phrase a token appends and enters (R178): that of its code, then its symbol. -/
def lz78NewPhrase (dict : List Phrase) (r : Token) : Phrase := lz78Phrase dict r.a.toNat ++ optSym r.symbol

/-- The dictionary after a list of tokens. -/
def lz78Entries (dict : List Phrase) (toks : List Token) : List Phrase :=
  toks.foldl (fun dict r => dict ++ [lz78NewPhrase dict r]) dict

section
variable (dict : List Phrase) (r : Token) (toks toks' : List Token)

theorem lz78Entries_cons : lz78Entries dict (r :: toks) = lz78Entries (dict ++ [lz78NewPhrase dict r]) toks := rfl

theorem lz78Entries_append : lz78Entries dict (toks ++ toks') = lz78Entries (lz78Entries dict toks) toks' :=
  List.foldl_append

/-- The entries that are there stay, and every token adds one (R181). -/
theorem exists_lz78Entries_eq_append : ∃ new, lz78Entries dict toks = dict ++ new ∧ new.length = toks.length := by
  induction toks generalizing dict with
  | nil => exact ⟨[], (List.append_nil _).symm, rfl⟩
  | cons r toks ih =>
    obtain ⟨new, hnew, hlen⟩ := ih (dict ++ [lz78NewPhrase dict r])
    refine ⟨lz78NewPhrase dict r :: new, ?_, congrArg (· + 1) hlen⟩
    rw [lz78Entries_cons, hnew, List.append_assoc, List.singleton_append]

theorem length_lz78Entries : (lz78Entries dict toks).length = dict.length + toks.length := by
  obtain ⟨new, hnew, hlen⟩ := exists_lz78Entries_eq_append dict toks
  rw [hnew, List.length_append, hlen]

theorem length_lz78Entries_nil : (lz78Entries [] toks).length = toks.length :=
  (length_lz78Entries [] toks).trans (Nat.zero_add _)

/-- `lz78Span` is the length of the phrase. -/
theorem length_lz78NewPhrase : (lz78NewPhrase dict r).length = lz78Span (dict.map List.length) r := by
  rw [lz78NewPhrase, lz78Span, List.length_append]
  congr 1
  cases r.a.toNat with
  | zero => rfl
  | succ j => exact (List.getD_map dict [] List.length).symm

/-- `lz78Lens` are the lengths of the entries. -/
theorem map_length_lz78Entries : (lz78Entries dict toks).map List.length = lz78Lens (dict.map List.length) toks := by
  induction toks generalizing dict with
  | nil => rfl
  | cons r toks ih =>
    rw [lz78Entries_cons, ih, List.map_append, List.map_singleton, length_lz78NewPhrase]
    rfl

/-- The symbols of the entries of a stream are as many as its tokens stand for. -/
theorem length_flatten_lz78Entries : (lz78Entries [] toks).flatten.length = (lz78Lens [] toks).sum := by
  rw [List.length_flatten, map_length_lz78Entries]
  rfl

end

/-! ### The search at a cursor -/

/-- The longest entry at cursor `pos` (R172): its code and its length. -/
def lz78Search (input : List Sym) (dict : List Phrase) (pos : Nat) : Nat × Nat := longestEntry dict (input.drop pos)

/-- The token emitted at cursor `pos` (R173, R174). -/
def lz78TokenAt (input : List Sym) (dict : List Phrase) (pos : Nat) : Token :=
  lz78Token (lz78Search input dict pos).1 input[pos + (lz78Search input dict pos).2]?

/-- The cursor after the token emitted at `pos`. -/
def lz78Next (input : List Sym) (dict : List Phrase) (pos : Nat) : Nat :=
  min (pos + (lz78Search input dict pos).2 + 1) input.length

/-- The entry made at cursor `pos` (R175): the consumed symbols. -/
def lz78EntryAt (input : List Sym) (dict : List Phrase) (pos : Nat) : Phrase :=
  subseq input pos (lz78Next input dict pos)

/-- At cursor `pos` the next `len` symbols of the input are the phrase of `code`, and no entry matches more. -/
structure Lz78Match (input : List Sym) (dict : List Phrase) (pos code len : Nat) : Prop where
  code_le : code ≤ dict.length
  fits : pos + len ≤ input.length
  phrase : lz78Phrase dict code = subseq input pos (pos + len)
  longest : ∀ q ∈ dict, q <+: input.drop pos → q.length ≤ len

section
variable {input : List Sym} (dict : List Phrase) {pos : Nat}

theorem lz78Search_match (hpos : pos ≤ input.length) :
    Lz78Match input dict pos (lz78Search input dict pos).1 (lz78Search input dict pos).2 := by
  obtain ⟨h0, hnone⟩ | ⟨j, p, hj, hm, hp, hlongest⟩ := longestEntryIsLongestPrefix dict (input.drop pos)
  · rw [lz78Search, h0]
    exact ⟨Nat.zero_le _, hpos, by simp [lz78Phrase, subseq], fun q hq hp => absurd hp (hnone q hq)⟩
  · rw [lz78Search, hm]
    have hlen := hp.length_le
    rw [List.length_drop] at hlen
    refine ⟨(List.getElem?_eq_some_iff.mp hj).1, by omega, ?_, fun q hq hq' => ?_⟩
    · rw [lz78Phrase_succ hj, subseq, Nat.add_sub_cancel_left]
      exact List.prefix_iff_eq_take.mp hp
    · obtain ⟨j', hj'⟩ := List.mem_iff_getElem?.mp hq
      exact (hlongest j' q hj' hq').1

theorem lz78Next_gt (hpos : pos < input.length) : pos < lz78Next input dict pos := by
  rw [lz78Next]; omega

theorem lz78Next_le : lz78Next input dict pos ≤ input.length := Nat.min_le_right _ _

/-- The cursor moves by the match and its symbol, if there is one (R173, R174). -/
theorem lz78Next_eq_add (hpos : pos ≤ input.length) :
    pos + ((lz78Search input dict pos).2 + (optSym input[pos + (lz78Search input dict pos).2]?).length) =
      lz78Next input dict pos := by
  have hfits := (lz78Search_match dict hpos).fits
  rw [length_optSym_getElem?, lz78Next]
  split <;> omega

/-- The entry is the phrase of the match, then the symbol after it (R175). -/
theorem lz78EntryAt_eq_append (hpos : pos ≤ input.length) :
    lz78EntryAt input dict pos = lz78Phrase dict (lz78Search input dict pos).1 ++
      optSym input[pos + (lz78Search input dict pos).2]? := by
  rw [(lz78Search_match dict hpos).phrase, optSym_eq_toList, subseq, ← List.getElem?_drop, Nat.add_sub_cancel_left,
    ← List.take_add_one, lz78EntryAt, subseq, lz78Next, List.take_eq_take_iff, List.length_drop]
  omega

/-- Where the entries are the consumed input, they are so after the next one. -/
theorem flatten_snoc_lz78EntryAt {dict : List Phrase} (hpre : dict.flatten <+: input)
    (hpos : dict.flatten.length < input.length) :
    (dict ++ [lz78EntryAt input dict dict.flatten.length]).flatten =
      input.take (lz78Next input dict dict.flatten.length) := by
  have htake : dict.flatten = input.take dict.flatten.length := List.prefix_iff_eq_take.mp hpre
  calc (dict ++ [lz78EntryAt input dict dict.flatten.length]).flatten
      = dict.flatten ++ lz78EntryAt input dict dict.flatten.length := by simp
    _ = input.take dict.flatten.length ++ lz78EntryAt input dict dict.flatten.length := congrArg (· ++ _) htake
    _ = _ := take_append_subseq input (Nat.le_of_lt (lz78Next_gt dict hpos))

end

@[simp] theorem lz78Token_tag (k : Nat) (x : Option Sym) : (lz78Token k x).tag = 1#2 := by cases x <;> rfl
@[simp] theorem lz78Token_a (k : Nat) (x : Option Sym) : (lz78Token k x).a = Word.ofNum k := by cases x <;> rfl
@[simp] theorem lz78Token_b (k : Nat) (x : Option Sym) : (lz78Token k x).b = 0#32 := by cases x <;> rfl
@[simp] theorem lz78Token_hasSym (k : Nat) (x : Option Sym) : (lz78Token k x).hasSym = x.isSome := by cases x <;> rfl
@[simp] theorem lz78Token_symbol (k : Nat) (x : Option Sym) : (lz78Token k x).symbol = x := by cases x <;> rfl

/-! ### The parse -/

section
variable {input : List Sym}

/-- One token of the parse. -/
theorem lz78Parse_cons {dict : List Phrase} {pos : Nat} {t : Token} {ts : List Token} :
    lz78Parse input dict pos (t :: ts) ↔ pos < input.length ∧ t = lz78TokenAt input dict pos ∧
      lz78Parse input (dict ++ [lz78EntryAt input dict pos]) (lz78Next input dict pos) ts := Iff.rfl

/-- Every input has a parse: the cursor moves on until it is at the end. -/
theorem exists_lz78Parse (dict : List Phrase) (pos : Nat) (hpos : pos ≤ input.length) :
    ∃ toks, lz78Parse input dict pos toks := by
  by_cases h : pos < input.length
  · have hgt := lz78Next_gt dict h
    obtain ⟨toks, ht⟩ := exists_lz78Parse (dict ++ [lz78EntryAt input dict pos]) _ (lz78Next_le dict (pos := pos))
    exact ⟨_ :: toks, lz78Parse_cons.mpr ⟨h, rfl, ht⟩⟩
  · exact ⟨[], by rw [lz78Parse]; omega⟩
termination_by input.length - pos

/-- An input has one parse only: the cursor and the dictionary determine the token. -/
theorem lz78Parse_unique : ∀ {toks toks' : List Token} {dict : List Phrase} {pos : Nat},
    lz78Parse input dict pos toks → lz78Parse input dict pos toks' → toks' = toks
  | [], [], _, _, _, _ => rfl
  | [], t :: ts, _, _, h, h' => absurd h (Nat.ne_of_lt (lz78Parse_cons.mp h').1)
  | t :: ts, [], _, _, h, h' => absurd h' (Nat.ne_of_lt (lz78Parse_cons.mp h).1)
  | t :: ts, t' :: ts', _, _, h, h' => by
    obtain ⟨-, rfl, hts⟩ := lz78Parse_cons.mp h
    obtain ⟨-, rfl, hts'⟩ := lz78Parse_cons.mp h'
    rw [lz78Parse_unique hts hts']

/-- Every token consumes a symbol (R176 (g)). -/
theorem length_le_of_lz78Parse : ∀ {toks : List Token} {dict : List Phrase} {pos : Nat},
    lz78Parse input dict pos toks → pos + toks.length ≤ input.length
  | [], _, pos, h => Nat.le_of_eq h
  | t :: ts, dict, pos, h => by
    obtain ⟨hpos, -, hts⟩ := lz78Parse_cons.mp h
    have hgt := lz78Next_gt dict hpos
    have hle := length_le_of_lz78Parse hts
    rw [List.length_cons]
    omega

end

/-- The entries of `dict`, one after the other, are the consumed input, of at least one symbol each, and `toks` is the
parse of the rest: the cursor is the number of their symbols. -/
structure Lz78Rest (input : List Sym) (dict : List Phrase) (toks : List Token) : Prop where
  isPrefix : dict.flatten <+: input
  length_le : dict.length ≤ dict.flatten.length
  parse : lz78Parse input dict dict.flatten.length toks

theorem lz78Rest_start {input : List Sym} {toks : List Token} (h : lz78Parse input [] 0 toks) :
    Lz78Rest input [] toks := ⟨List.nil_prefix, le_rfl, h⟩

/-- At the end of the parse the whole input is consumed. -/
theorem Lz78Rest.flatten_eq {input : List Sym} {dict : List Phrase} (h : Lz78Rest input dict []) :
    dict.flatten = input := h.isPrefix.eq_of_length h.parse

/-- Token `t` is the one emitted at the cursor of `dict`, and what the decoder reads in it is the code of the match and
the entry made. -/
structure Lz78Emits (input : List Sym) (dict : List Phrase) (t : Token) : Prop where
  cursor_lt : dict.flatten.length < input.length
  token_eq : t = lz78TokenAt input dict dict.flatten.length
  newPhrase_eq : lz78NewPhrase dict t = lz78EntryAt input dict dict.flatten.length
  cursor_eq : (dict ++ [lz78NewPhrase dict t]).flatten.length = lz78Next input dict dict.flatten.length
  code_eq : t.a.toNat = (lz78Search input dict dict.flatten.length).1

section
variable {input : List Sym} (hN : input.length < 2 ^ 32)
include hN

theorem Lz78Rest.emits {dict : List Phrase} {t : Token} {ts : List Token} (h : Lz78Rest input dict (t :: ts)) :
    Lz78Emits input dict t ∧ Lz78Rest input (dict ++ [lz78NewPhrase dict t]) ts := by
  obtain ⟨hpre, hlen, hparse⟩ := h
  obtain ⟨hpos, ht, hts⟩ := lz78Parse_cons.mp hparse
  have hle := Nat.le_of_lt hpos
  have hgt := lz78Next_gt dict hpos
  have hcode : t.a.toNat = (lz78Search input dict dict.flatten.length).1 := by
    have hcode := (lz78Search_match dict hle).code_le
    rw [ht, lz78TokenAt, lz78Token_a, toNat_ofNum (by omega)]
  have hnew : lz78NewPhrase dict t = lz78EntryAt input dict dict.flatten.length := by
    rw [lz78NewPhrase, hcode, lz78EntryAt_eq_append dict hle, ht, lz78TokenAt, lz78Token_symbol]
  have hflat := flatten_snoc_lz78EntryAt hpre hpos
  have hcursor : (dict ++ [lz78EntryAt input dict dict.flatten.length]).flatten.length =
      lz78Next input dict dict.flatten.length := by
    rw [hflat, List.length_take_of_le (lz78Next_le dict)]
  refine ⟨⟨hpos, ht, hnew, hnew ▸ hcursor, hcode⟩, ?_⟩
  rw [hnew]
  refine ⟨hflat ▸ List.take_prefix _ _, ?_, hcursor.symm ▸ hts⟩
  rw [hcursor, List.length_append, List.length_singleton]
  omega

/-- The tokens after the first ones are the parse from the entries of these on. -/
theorem Lz78Rest.of_append : ∀ {pre post : List Token} {dict : List Phrase}, Lz78Rest input dict (pre ++ post) →
    Lz78Rest input (lz78Entries dict pre) post
  | [], _, _, h => h
  | _ :: _, _, _, h => (h.emits hN).2.of_append

/-- The entries of the parse, one after the other, are the input. -/
theorem flatten_lz78Entries_of_parse {toks : List Token} (h : lz78Parse input [] 0 toks) :
    (lz78Entries [] toks).flatten = input := by
  have hstart := lz78Rest_start h
  rw [← List.append_nil toks] at hstart
  exact (hstart.of_append hN).flatten_eq

/-- A token of the parse is the one emitted at the cursor of the entries of the tokens before it, and the tokens after
it are the parse from its entry on. -/
theorem lz78Parse_getElem? {toks : List Token} (h : lz78Parse input [] 0 toks) {i : Nat} {r : Token}
    (hr : toks[i]? = some r) : Lz78Emits input (lz78Entries [] (toks.take i)) r ∧
      Lz78Rest input (lz78Entries [] (toks.take i) ++ [lz78NewPhrase (lz78Entries [] (toks.take i)) r])
        (toks.drop (i + 1)) := by
  obtain ⟨hi, rfl⟩ := List.getElem?_eq_some_iff.mp hr
  have hsplit : toks.take i ++ toks[i] :: toks.drop (i + 1) = toks := by simp
  have hstart := lz78Rest_start h
  rw [← hsplit] at hstart
  exact (hstart.of_append hN).emits hN

end

/-! ### The engine makes the parse -/

/-- The working state of the encoder when its entries are `dict` and its tokens `out`. -/
def lz78EncAt (dict : List Phrase) (out : List Token) : Lz78EncWork :=
  { pos := dict.flatten.length, dict := dict, out := out }

theorem lz78Encode_eq_bind_encAt (p : Params) (input : List Sym) : lz78Encode p input =
    (lz78EncLoop p input input.length (lz78EncAt [] [])).bind fun k => .ok (k.out, k.dict.length) :=
  lz78Encode_eq_bind p input

section
variable {p : Params} {input : List Sym}

/-- What an iteration can do: `TOK` or the dictionary is full, or the token and the entry at the cursor are added. -/
theorem lz78EncStep_cursor_cases {k : Lz78EncWork} (hpos : k.pos < input.length) :
    ((k.out.length = p.tokCap ∨ k.dict.length = p.dictCap) ∧
      lz78EncStep p input k = .error { kind := .capacityExceeded, info := Word.ofNum k.pos }) ∨
    (k.out.length ≠ p.tokCap ∧ k.dict.length ≠ p.dictCap ∧ lz78EncStep p input k =
      .ok { pos := lz78Next input k.dict k.pos, dict := k.dict ++ [lz78EntryAt input k.dict k.pos]
            out := k.out ++ [lz78TokenAt input k.dict k.pos] }) := by
  obtain hfull | ⟨htok, hdict, m, adv, rfl, hadv, ho⟩ := lz78EncStep_cases (rfl : lz78EncStep p input k = _)
  · exact .inl hfull
  · have hnext : k.pos + adv = lz78Next input k.dict k.pos := by
      rw [hadv]
      exact lz78Next_eq_add k.dict (Nat.le_of_lt hpos)
    rw [hnext] at ho
    exact .inr ⟨htok, hdict, ho⟩

variable {dict : List Phrase} {out : List Token} {t : Token} (he : Lz78Emits input dict t)
include he

theorem lz78EncStep_of_fits (htok : out.length ≠ p.tokCap) (hdict : dict.length ≠ p.dictCap) :
    lz78EncStep p input (lz78EncAt dict out) = .ok (lz78EncAt (dict ++ [lz78NewPhrase dict t]) (out ++ [t])) := by
  obtain ⟨hfull, -⟩ | ⟨-, -, ho⟩ :=
    lz78EncStep_cursor_cases (p := p) (k := lz78EncAt dict out) he.cursor_lt
  · exact absurd hfull (not_or.mpr ⟨htok, hdict⟩)
  · unfold lz78EncAt at ho ⊢
    rw [ho, he.cursor_eq, he.newPhrase_eq, ← he.token_eq]

theorem lz78EncStep_of_not_fits (hfull : out.length = p.tokCap ∨ dict.length = p.dictCap) :
    lz78EncStep p input (lz78EncAt dict out) =
      .error { kind := .capacityExceeded, info := Word.ofNum dict.flatten.length } := by
  obtain ⟨-, ho⟩ | ⟨htok, hdict, -⟩ :=
    lz78EncStep_cursor_cases (p := p) (k := lz78EncAt dict out) he.cursor_lt
  · exact ho
  · exact absurd hfull (not_or.mpr ⟨htok, hdict⟩)

end

section
variable {p : Params} {input : List Sym} (hN : input.length < 2 ^ 32)
include hN

/-- The loop emits the tokens of the parse while both memories have room for them; the iterations left are enough for
the rest. -/
theorem lz78EncLoop_emits {post : List Token} : ∀ {pre : List Token} {n : Nat} {dict : List Phrase}
    {out : List Token}, Lz78Rest input dict (pre ++ post) → input.length ≤ dict.flatten.length + n →
    out.length = dict.length → dict.length + pre.length ≤ min p.tokCap p.dictCap →
    ∃ n', lz78EncLoop p input n (lz78EncAt dict out) =
        lz78EncLoop p input n' (lz78EncAt (lz78Entries dict pre) (out ++ pre)) ∧
      input.length ≤ (lz78Entries dict pre).flatten.length + n'
  | [], n, dict, out, _, hn, _, _ => ⟨n, by rw [List.append_nil]; rfl, hn⟩
  | t :: pre, n, dict, out, h, hn, hout, hroom => by
    obtain ⟨he, hrest⟩ := h.emits hN
    have hpos := he.cursor_lt
    have hcursor := he.cursor_eq
    have hgt := lz78Next_gt dict hpos
    rw [List.length_cons] at hroom
    obtain ⟨n, rfl⟩ : ∃ m, n = m + 1 := ⟨n - 1, by omega⟩
    obtain ⟨n', hloop, hn'⟩ := lz78EncLoop_emits hrest (n := n) (out := out ++ [t]) (by omega) (by simp [hout])
      (by simp only [List.length_append, List.length_singleton]; omega)
    refine ⟨n', ?_, hn'⟩
    rw [lz78EncLoop_succ p n _ hpos, lz78EncStep_of_fits he (by omega) (by omega), Except.bind, hloop,
      List.append_assoc]
    rfl

variable {toks : List Token} (hparse : lz78Parse input [] 0 toks)
include hparse

/-- A parse that fits `TOK` and the dictionary is what the encoder makes, with one entry per token. -/
theorem lz78Encode_of_fits (hfit : toks.length ≤ min p.tokCap p.dictCap) :
    lz78Encode p input = .ok (toks, toks.length) := by
  have hstart := lz78Rest_start hparse
  rw [← List.append_nil toks] at hstart
  obtain ⟨n, hloop, -⟩ := lz78EncLoop_emits (p := p) hN hstart (n := input.length) (out := [])
    (Nat.le_add_left _ _) rfl (by simpa using hfit)
  have hend := flatten_lz78Entries_of_parse hN hparse
  have hstop : ¬ (lz78EncAt (lz78Entries [] toks) toks).pos < input.length := by simp [lz78EncAt, hend]
  rw [lz78Encode_eq_bind_encAt, hloop, List.nil_append, lz78EncLoop_stop p n _ hstop, Except.bind, lz78EncAt,
    length_lz78Entries_nil]

/-- The first token of the parse for which `TOK` or the dictionary has no room ends the encoder, at its cursor (R104,
R246 (b), (d)). -/
theorem lz78Encode_of_not_fits (hfit : min p.tokCap p.dictCap < toks.length) :
    lz78Encode p input = .error { kind := .capacityExceeded
                                  info := Word.ofNum (lz78Lens [] (toks.take (min p.tokCap p.dictCap))).sum } := by
  have hlen : (toks.take (min p.tokCap p.dictCap)).length = min p.tokCap p.dictCap :=
    List.length_take_of_le (Nat.le_of_lt hfit)
  have hstart := lz78Rest_start hparse
  rw [← List.take_append_drop (min p.tokCap p.dictCap) toks] at hstart
  obtain ⟨n, hloop, hn⟩ := lz78EncLoop_emits (p := p) hN hstart (n := input.length) (out := [])
    (Nat.le_add_left _ _) rfl (by simp)
  obtain ⟨he, -⟩ := lz78Parse_getElem? hN hparse (List.getElem?_eq_getElem hfit)
  have hpos := he.cursor_lt
  obtain ⟨n, rfl⟩ : ∃ m, n = m + 1 := ⟨n - 1, by omega⟩
  rw [lz78Encode_eq_bind_encAt, hloop, lz78EncLoop_succ p n _ hpos,
    lz78EncStep_of_not_fits he (by rw [length_lz78Entries_nil, List.nil_append, hlen]; omega),
    length_flatten_lz78Entries]
  rfl

end

/-! ### The command -/

theorem exec_lz78Enc_of_le {s : State} (hlen : s.symLen.toNat ≤ s.params.symCap) :
    exec .lz78Enc s = .next (State.finishEncode (lz78Encode s.params s.input) s) := by
  obtain ⟨hlt, -⟩ | ⟨-, ho⟩ := execLz78Enc_cases (s := s) rfl
  · omega
  · exact ho

section
variable {s : State} {toks : List Token} (hparse : lz78Parse s.input [] 0 toks)
include hparse

theorem length_lz78Parse_input : toks.length ≤ s.symLen.toNat := by
  simpa using length_le_of_lz78Parse hparse

theorem stream_finishEncode_lz78Parse (hfit : toks.length ≤ s.params.tokCap) (d : Nat) :
    (State.finishEncode (.ok (toks, d)) s).stream = toks :=
  stream_finishEncode_ok hfit ((length_lz78Parse_input hparse).trans_lt s.symLen.isLt)

end

/-- Settles O39: the encoder makes the one parse there is while it has room; the parse has at most one token per
symbol. -/
theorem lz78EncodeSucceeds : Obligations.Lz78EncodeSucceeds := by
  intro s hlen
  have hexec := exec_lz78Enc_of_le hlen
  obtain ⟨toks, hparse⟩ := exists_lz78Parse [] 0 (Nat.zero_le s.input.length)
  have htoks := length_lz78Parse_input hparse
  refine ⟨fun htok hdict => ?_, toks, hparse, fun toks' => lz78Parse_unique hparse, htoks, ?_⟩
  · rw [lz78Encode_of_fits (length_input_lt s) hparse (by omega)] at hexec
    exact ⟨_, hexec, rfl, rfl, rfl, rfl, rfl, (toNat_ofNum_le _).trans htoks,
      (stream_finishEncode_lz78Parse hparse (by omega) _).symm ▸ hparse⟩
  · split
    · next hfit =>
      rw [lz78Encode_of_fits (length_input_lt s) hparse hfit] at hexec
      exact ⟨_, hexec, rfl, rfl, rfl, rfl, stream_finishEncode_lz78Parse hparse (by omega) _, rfl⟩
    · next hfit =>
      rw [lz78Encode_of_not_fits (length_input_lt s) hparse (by omega)] at hexec
      exact ⟨_, hexec, rfl, rfl, rfl, rfl, rfl, rfl⟩

/-- What a successful `LZ78.ENC` leaves: the parse, in a `TOK` and a dictionary that have room for it. -/
theorem lz78Enc_success {s t : State} (h : exec .lz78Enc s = .next t) (herr : t.err = none) :
    s.symLen.toNat ≤ s.params.symCap ∧ ∃ toks, lz78Parse s.input [] 0 toks ∧
      toks.length ≤ min s.params.tokCap s.params.dictCap ∧
      t = State.finishEncode (.ok (toks, toks.length)) s ∧ t.stream = toks := by
  obtain ⟨-, ho⟩ | ⟨hlen, ho⟩ := execLz78Enc_cases h <;> cases ho
  · cases herr
  obtain ⟨toks, hparse⟩ := exists_lz78Parse [] 0 (Nat.zero_le s.input.length)
  by_cases hfit : toks.length ≤ min s.params.tokCap s.params.dictCap
  · rw [lz78Encode_of_fits (length_input_lt s) hparse hfit]
    exact ⟨hlen, toks, hparse, hfit, rfl, stream_finishEncode_lz78Parse hparse (by omega) _⟩
  · rw [lz78Encode_of_not_fits (length_input_lt s) hparse (by omega)] at herr
    cases herr

/-! ### The properties of the tokens -/

section
variable {input : List Sym} {dict : List Phrase} {r : Token} (he : Lz78Emits input dict r)
include he

theorem Lz78Emits.search_match : Lz78Match input dict dict.flatten.length r.a.toNat
    (lz78Search input dict dict.flatten.length).2 :=
  he.code_eq ▸ lz78Search_match dict (Nat.le_of_lt he.cursor_lt)

/-- The shape of an emitted token (R176 (e)). -/
theorem Lz78Emits.shape : r.tag = 1#2 ∧ r.b = 0#32 ∧ r.a.toNat ≤ dict.length := by
  refine ⟨?_, ?_, he.search_match.code_le⟩ <;> rw [he.token_eq, lz78TokenAt]
  · exact lz78Token_tag _ _
  · exact lz78Token_b _ _

/-- A token without a symbol is a match of at least one symbol to the end of the input (R174, R176 (f)). -/
theorem Lz78Emits.without_symbol (hsym : r.hasSym = false) :
    (dict ++ [lz78NewPhrase dict r]).flatten.length = input.length ∧ 1 ≤ r.a.toNat := by
  have hpos := he.cursor_lt
  obtain ⟨-, hfits, hphrase, -⟩ := he.search_match
  rw [he.token_eq, lz78TokenAt, lz78Token_hasSym, Option.isSome_eq_false_iff, Option.isNone_iff_eq_none,
    List.getElem?_eq_none_iff] at hsym
  constructor
  · rw [he.cursor_eq, lz78Next]
    omega
  · by_contra h0
    have hnil : lz78Phrase dict r.a.toNat = [] := by rw [Nat.eq_zero_of_not_pos h0]; rfl
    have hlen := congrArg List.length hphrase
    rw [hnil, length_subseq, List.length_nil] at hlen
    omega

end

/-- Settles O40, from the parse: each token is the one emitted with as many entries as there are tokens before it. -/
theorem lz78EncoderOutput : Obligations.Lz78EncoderOutput := by
  intro s t _ h herr
  obtain ⟨-, toks, hparse, -, ht, hstream⟩ := lz78Enc_success h herr
  have hN := length_input_lt s
  have hle := length_lz78Parse_input hparse
  have htokLen : t.tokLen = Word.ofNum toks.length := by rw [ht]; rfl
  have hdcount : t.dcount = Word.ofNum toks.length := by rw [ht]; rfl
  have hlen : toks.length = t.tokLen.toNat := by rw [← hstream, length_stream]
  rw [hstream]
  refine ⟨fun h0 => ?_, hdcount.trans htokLen.symm, fun i r hr => ?_, fun i r hr hsym => ?_, fun r hr => ?_, hlen,
    by omega⟩
  · have hnone : toks.length = 0 := by omega
    exact ⟨by rw [htokLen, hnone], by rw [hdcount, hnone]⟩
  · obtain ⟨he, -⟩ := lz78Parse_getElem? hN hparse hr
    obtain ⟨htag, hb, ha⟩ := he.shape
    rw [length_lz78Entries_nil] at ha
    exact ⟨htag, hb, ha.trans (List.length_take_le i toks)⟩
  · have hi := (List.getElem?_eq_some_iff.mp hr).1
    obtain ⟨he, hrest⟩ := lz78Parse_getElem? hN hparse hr
    obtain ⟨hend, hcode⟩ := he.without_symbol hsym
    have hlast := length_le_of_lz78Parse hrest.parse
    rw [hend, List.length_drop] at hlast
    exact ⟨by omega, hcode⟩
  · exact (lz78Parse_getElem? hN hparse hr).1.token_eq

/-! ### The dictionary -/

/-- The properties (c) and (d) of R176, each entry being compared with those before it. -/
structure Lz78DictOk (dict : List Phrase) (out : List Token) : Prop where
  length_eq : dict.length = out.length
  distinct : ∀ (i j : Nat) (b : Token), i < j → out[j]? = some b → b.hasSym = true → dict[i]? ≠ dict[j]?
  closed : ∀ (i : Nat) (ph : Phrase), dict[i]? = some ph →
    ph.dropLast = [] ∨ ∃ j : Nat, j < i ∧ dict[j]? = some ph.dropLast

section
variable {dict : List Phrase} {out : List Token}

theorem Lz78DictOk.closed_of_mem (h : Lz78DictOk dict out) {ph : Phrase} (hph : ph ∈ dict) :
    ph.dropLast = [] ∨ ph.dropLast ∈ dict := by
  obtain ⟨i, hi⟩ := List.mem_iff_getElem?.mp hph
  exact (h.closed i ph hi).imp_right fun ⟨_, _, hj⟩ => List.mem_of_getElem? hj

theorem Lz78DictOk.snoc (h : Lz78DictOk dict out) {e : Phrase} {t : Token} (hnew : t.hasSym = true → e ∉ dict)
    (hclosed : e.dropLast = [] ∨ e.dropLast ∈ dict) : Lz78DictOk (dict ++ [e]) (out ++ [t]) := by
  obtain ⟨hlen, hdist, hcl⟩ := h
  refine ⟨by simp [hlen], fun i j b hij hb hsym => ?_, fun i ph hph => ?_⟩
  · obtain hb | ⟨rfl, rfl⟩ := getElem?_snoc_eq_some.mp hb
    · have hj := (List.getElem?_eq_some_iff.mp hb).1
      rw [List.getElem?_append_left (by omega), List.getElem?_append_left (by omega)]
      exact hdist i j b hij hb hsym
    · rw [← hlen, List.getElem?_append_left (by omega), List.getElem?_concat_length]
      exact fun heq => hnew hsym (List.mem_of_getElem? heq)
  · obtain hph | ⟨rfl, rfl⟩ := getElem?_snoc_eq_some.mp hph
    · exact (hcl i ph hph).imp_right fun ⟨j, hji, hj⟩ => ⟨j, hji, getElem?_snoc_eq_some.mpr (.inl hj)⟩
    · refine hclosed.imp_right fun hmem => ?_
      obtain ⟨j, hj⟩ := List.mem_iff_getElem?.mp hmem
      exact ⟨j, (List.getElem?_eq_some_iff.mp hj).1, getElem?_snoc_eq_some.mpr (.inl hj)⟩

theorem lz78Phrase_eq_nil_or_mem (dict : List Phrase) (k : Nat) :
    lz78Phrase dict k = [] ∨ lz78Phrase dict k ∈ dict := by
  cases k with
  | zero => exact .inl rfl
  | succ j =>
    cases hj : dict[j]? with
    | none => exact .inl (by rw [lz78Phrase, List.getD_eq_getElem?_getD, hj]; rfl)
    | some ph => exact .inr (lz78Phrase_succ hj ▸ List.mem_of_getElem? hj)

variable {input : List Sym} {pos : Nat} (hpos : pos ≤ input.length)
include hpos

/-- The entry of a token with a symbol is new: the rest of the input begins with it, and it is longer than any entry
that matches (R176 (c)). -/
theorem lz78EntryAt_not_mem (hsym : (lz78TokenAt input dict pos).hasSym = true) :
    lz78EntryAt input dict pos ∉ dict := by
  have hlt : pos + (lz78Search input dict pos).2 < input.length := by simpa [lz78TokenAt] using hsym
  intro hmem
  have hle := (lz78Search_match dict hpos).longest _ hmem (List.take_prefix _ _)
  rw [lz78EntryAt, length_subseq, lz78Next] at hle
  omega

/-- The entry without its last symbol is the phrase of the match, or that phrase without its last one (R176 (d)). -/
theorem lz78EntryAt_dropLast (h : Lz78DictOk dict out) :
    (lz78EntryAt input dict pos).dropLast = [] ∨ (lz78EntryAt input dict pos).dropLast ∈ dict := by
  rw [lz78EntryAt_eq_append dict hpos]
  have hphrase := lz78Phrase_eq_nil_or_mem dict (lz78Search input dict pos).1
  cases input[pos + (lz78Search input dict pos).2]? with
  | some x => rwa [optSym, List.dropLast_concat]
  | none =>
    rw [optSym, List.append_nil]
    obtain hnil | hmem := hphrase
    · exact .inl (by rw [hnil]; rfl)
    · exact h.closed_of_mem hmem

end

/-- Every step keeps the properties of the dictionary. -/
theorem lz78EncStep_dictOk {p : Params} {input : List Sym} {k : Lz78EncWork} (hpos : k.pos < input.length)
    (hk : Lz78DictOk k.dict k.out) :
    resultMeets (fun _ => True) (fun k => Lz78DictOk k.dict k.out) (lz78EncStep p input k) := by
  have hle := Nat.le_of_lt hpos
  obtain ⟨-, ho⟩ | ⟨-, -, ho⟩ := lz78EncStep_cursor_cases (p := p) hpos <;> rw [ho]
  · trivial
  · exact hk.snoc (lz78EntryAt_not_mem hle) (lz78EntryAt_dropLast hle hk)

/-- Settles O41: the loop keeps what every step keeps. -/
theorem lz78DictionaryDistinctPrefixClosed : Obligations.Lz78DictionaryDistinctPrefixClosed := by
  intro p input k hloop
  have hok := whileLoop_meets (lz78EncLoop_stop p) (fun _ => rfl) (lz78EncLoop_succ p)
    (fun _ (hpos : _ < input.length) hk => lz78EncStep_dictOk hpos hk) input.length { pos := 0, dict := [], out := [] }
    ⟨rfl, fun _ _ _ _ hb => by simp at hb, fun _ _ hph => by simp at hph⟩
  rw [hloop] at hok
  obtain ⟨hlen, hdist, hclosed⟩ := hok
  exact ⟨hlen, fun i j _ b hij _ hb _ hsym => hdist i j b hij hb hsym, hclosed⟩

end Sys2Proof.Machine
end

section
/-! PROOF. 42_lz78.md, the decoder: what `LZ78.DEC` makes of a valid stream (R177, R178), where it stops (R179, R180),
one entry per token (R181), and the round trip (R182). The idea: the output is the entries of the dictionary one after
the other, so the decoder's state is its dictionary (`lz78DecAt`), as the encoder's is its dictionary and its tokens;
on the tokens of the parse both dictionaries are `lz78Entries [] toks`. -/

namespace Sys2Proof.Machine

open Sys2Proof.Config

/-! ### One token -/

/-- The working state of the decoder when its entries are `dict`. -/
def lz78DecAt (dict : List Phrase) : Lz78DecWork := { dict := dict, out := dict.flatten }

theorem lz78Decode_eq_bind_decAt (p : Params) (toks : List Token) : lz78Decode p toks =
    (lz78DecLoop p toks 0 (lz78DecAt [])).bind fun w => .ok (w.out, w.dict.length) :=
  lz78Decode_eq_bind p toks

theorem lz78TokenValid_iff {size : Nat} {r : Token} : lz78TokenValid size r = true ↔
    r.tag = 1#2 ∧ r.a.toNat ≤ size ∧ ¬ (r.a.toNat = 0 ∧ r.symbol = none) := by
  cases hx : r.symbol <;> simp [lz78TokenValid, hx, and_assoc]

theorem not_lz78TokenValid_iff {size : Nat} {r : Token} : ¬ lz78TokenValid size r = true ↔
    r.tag ≠ 1#2 ∨ size < r.a.toNat ∨ (r.a.toNat = 0 ∧ r.symbol = none) := by
  rw [lz78TokenValid_iff, not_and_or, not_and_or, not_not, Nat.not_le]

/-- A token that fails a test of R101, R179 or R180 is `CorruptToken(t)`. -/
theorem lz78DecStep_of_corrupt {p : Params} {dict : List Phrase} {r : Token} (t : Nat)
    (hr : r.tag ≠ 1#2 ∨ dict.length < r.a.toNat ∨ (r.a.toNat = 0 ∧ r.symbol = none)) :
    lz78DecStep p t r (lz78DecAt dict) = .error { kind := .corruptToken, info := Word.ofNum t } := by
  obtain ⟨-, ho⟩ | ⟨htag, ha, hsym, -⟩ := lz78DecStep_cases (rfl : lz78DecStep p t r (lz78DecAt dict) = _)
  · exact ho
  · exact absurd (lz78TokenValid_iff.mpr ⟨htag, ha, hsym⟩) (not_lz78TokenValid_iff.mpr hr)

section
variable {dict : List Phrase} {r : Token} (hr : lz78TokenValid dict.length r = true)
include hr

/-- What the step on a valid token can do: no room for its symbols or its entry, or they are appended. -/
theorem lz78DecStep_valid_cases (p : Params) (t : Nat) :
    ((p.symCap - dict.flatten.length < (lz78NewPhrase dict r).length ∨ dict.length = p.dictCap) ∧
      lz78DecStep p t r (lz78DecAt dict) = .error { kind := .capacityExceeded, info := Word.ofNum t }) ∨
    ((lz78NewPhrase dict r).length ≤ p.symCap - dict.flatten.length ∧ dict.length ≠ p.dictCap ∧
      lz78DecStep p t r (lz78DecAt dict) = .ok (lz78DecAt (dict ++ [lz78NewPhrase dict r]))) := by
  obtain ⟨hbad, -⟩ | ⟨-, -, -, new, rfl, hfull | ⟨hsym, hdict, ho⟩⟩ :=
    lz78DecStep_cases (rfl : lz78DecStep p t r (lz78DecAt dict) = _)
  · exact absurd hr (not_lz78TokenValid_iff.mpr hbad)
  · exact .inl hfull
  · refine .inr ⟨hsym, hdict, ho.trans ?_⟩
    rw [lz78DecAt, lz78DecAt, List.flatten_append, List.flatten_singleton]
    rfl

theorem lz78DecStep_of_fits {p : Params} (t : Nat)
    (hsym : dict.flatten.length + (lz78NewPhrase dict r).length ≤ p.symCap) (hdict : dict.length ≠ p.dictCap) :
    lz78DecStep p t r (lz78DecAt dict) = .ok (lz78DecAt (dict ++ [lz78NewPhrase dict r])) := by
  obtain ⟨hfull, -⟩ | ⟨-, -, ho⟩ := lz78DecStep_valid_cases hr p t
  · omega
  · exact ho

/-- A valid token whose symbols or whose entry do not fit is `CapacityExceeded(t)` (R246 (c), (d)). -/
theorem lz78DecStep_of_not_fits {p : Params} (t : Nat) (hle : dict.flatten.length ≤ p.symCap)
    (hfull : p.symCap < dict.flatten.length + (lz78NewPhrase dict r).length ∨ dict.length = p.dictCap) :
    lz78DecStep p t r (lz78DecAt dict) = .error { kind := .capacityExceeded, info := Word.ofNum t } := by
  obtain ⟨-, ho⟩ | ⟨hsym, hdict, -⟩ := lz78DecStep_valid_cases hr p t
  · exact ho
  · omega

end

/-! ### A valid stream -/

/-- The stream is valid after the entries `dict` and fits (R177). -/
def lz78ValidAfter (p : Params) (dict : List Phrase) (toks : List Token) : Prop :=
  lz78StreamValid p.symCap p.dictCap (dict.map List.length) toks = true

section
variable {p : Params}

theorem lz78ValidAfter_cons {dict : List Phrase} {r : Token} {rest : List Token} :
    lz78ValidAfter p dict (r :: rest) ↔ lz78TokenValid dict.length r = true ∧
      dict.flatten.length + (lz78NewPhrase dict r).length ≤ p.symCap ∧ dict.length + 1 ≤ p.dictCap ∧
      lz78ValidAfter p (dict ++ [lz78NewPhrase dict r]) rest := by
  simp only [lz78ValidAfter, lz78StreamValid, Bool.and_eq_true, decide_eq_true_eq, List.length_map, and_assoc,
    List.length_flatten, length_lz78NewPhrase, List.map_append, List.map_singleton]

/-- The loop enters the phrases of a valid stream and goes on with what follows it. -/
theorem lz78DecLoop_append (rest : List Token) : ∀ {toks : List Token} {t : Nat} {dict : List Phrase},
    lz78ValidAfter p dict toks → lz78DecLoop p (toks ++ rest) t (lz78DecAt dict) =
      lz78DecLoop p rest (t + toks.length) (lz78DecAt (lz78Entries dict toks))
  | [], _, _, _ => rfl
  | r :: toks, t, dict, h => by
    obtain ⟨hr, hsym, hdict, hrest⟩ := lz78ValidAfter_cons.mp h
    have hindex : t + (r :: toks).length = t + 1 + toks.length := by rw [List.length_cons]; omega
    rw [List.cons_append, lz78DecLoop_cons, lz78DecStep_of_fits hr t hsym (by omega), Except.bind,
      lz78DecLoop_append rest hrest, hindex, lz78Entries_cons]

/-- The symbols and the entries of a valid stream fit. -/
theorem lz78Entries_fit : ∀ {toks : List Token} {dict : List Phrase}, dict.flatten.length ≤ p.symCap →
    dict.length ≤ p.dictCap → lz78ValidAfter p dict toks →
    (lz78Entries dict toks).flatten.length ≤ p.symCap ∧ (lz78Entries dict toks).length ≤ p.dictCap
  | [], _, hsym, hdict, _ => ⟨hsym, hdict⟩
  | r :: toks, dict, _, _, h => by
    obtain ⟨-, hsym, hdict, hrest⟩ := lz78ValidAfter_cons.mp h
    rw [lz78Entries_cons]
    exact lz78Entries_fit (by simpa using hsym) (by simpa using hdict) hrest

/-- A valid stream decodes to its entries. -/
theorem lz78Decode_of_valid {toks : List Token} (h : lz78ValidAfter p [] toks) :
    lz78Decode p toks = .ok ((lz78Entries [] toks).flatten, toks.length) := by
  have hloop := lz78DecLoop_append [] (t := 0) h
  rw [List.append_nil] at hloop
  rw [lz78Decode_eq_bind_decAt, hloop, lz78DecLoop, Except.bind, lz78DecAt, length_lz78Entries_nil]

/-- A token at which the step raises after a valid stream ends the decoder with what it raises. -/
theorem lz78Decode_of_step_error {pre post : List Token} {r : Token} {e : Raise} (hpre : lz78ValidAfter p [] pre)
    (hstep : lz78DecStep p pre.length r (lz78DecAt (lz78Entries [] pre)) = .error e) :
    lz78Decode p (pre ++ r :: post) = .error e := by
  rw [lz78Decode_eq_bind_decAt, lz78DecLoop_append _ hpre, lz78DecLoop_cons, Nat.zero_add, hstep]
  rfl

end

/-! ### The symbols of a token -/

/-- A phrase among others, one after the other, stands where those before it end. -/
theorem flatten_append_cons_getElem? {α : Type} (pre : List (List α)) (ph : List α) (post : List (List α)) {j : Nat}
    (hj : j < ph.length) : (pre ++ ph :: post).flatten[(pre.map List.length).sum + j]? = ph[j]? := by
  rw [List.flatten_append, List.flatten_cons, ← List.length_flatten,
    List.getElem?_append_right (Nat.le_add_right _ _), Nat.add_sub_cancel_left, List.getElem?_append_left hj]

/-- The phrase with index `k` stands where the `k` before it end, whatever comes after `pre`. -/
theorem flatten_append_getElem? {α : Type} {pre : List (List α)} (post : List (List α)) {k : Nat} {ph : List α}
    (hk : pre[k]? = some ph) {j : Nat} (hj : j < ph.length) :
    (pre ++ post).flatten[((pre.map List.length).take k).sum + j]? = ph[j]? := by
  obtain ⟨hlt, rfl⟩ := List.getElem?_eq_some_iff.mp hk
  have hsplit : pre ++ post = pre.take k ++ pre[k] :: (pre.drop (k + 1) ++ post) := by
    rw [← List.cons_append, List.getElem_cons_drop, ← List.append_assoc, List.take_append_drop]
  rw [hsplit, ← List.map_take]
  exact flatten_append_cons_getElem? _ _ _ hj

/-- The entries of a stream, split at a token. -/
theorem exists_lz78Entries_split (pre post : List Token) (r : Token) : ∃ new, lz78Entries [] (pre ++ r :: post) =
    lz78Entries [] pre ++ lz78NewPhrase (lz78Entries [] pre) r :: new := by
  obtain ⟨new, hnew, -⟩ :=
    exists_lz78Entries_eq_append (lz78Entries [] pre ++ [lz78NewPhrase (lz78Entries [] pre) r]) post
  exact ⟨new, by rw [lz78Entries_append, lz78Entries_cons, hnew, List.append_assoc, List.singleton_append]⟩

/-- In the symbols of a stream every token's are those of the entry of its code, and its symbol (R178). -/
theorem lz78Entries_token (pre post : List Token) (r : Token) :
    (∀ j, 1 ≤ r.a.toNat → j < (lz78Lens [] pre).getD (r.a.toNat - 1) 0 →
      ∃ x, (lz78Entries [] (pre ++ r :: post)).flatten[(lz78Lens [] pre).sum + j]? = some x ∧
        (lz78Entries [] (pre ++ r :: post)).flatten[((lz78Lens [] pre).take (r.a.toNat - 1)).sum + j]? = some x) ∧
    ∀ x, r.symbol = some x → (lz78Entries [] (pre ++ r :: post)).flatten[
      (lz78Lens [] pre).sum + (lz78Span (lz78Lens [] pre) r - 1)]? = some x := by
  obtain ⟨new, hsplit⟩ := exists_lz78Entries_split pre post r
  have hlens : lz78Lens [] pre = (lz78Entries [] pre).map List.length := (map_length_lz78Entries [] pre).symm
  rw [hsplit, hlens]
  generalize lz78Entries [] pre = dict
  constructor
  · intro j ha hj
    obtain ⟨k, hk⟩ : ∃ k, r.a.toNat = k + 1 := ⟨r.a.toNat - 1, by omega⟩
    rw [hk, Nat.add_sub_cancel] at hj ⊢
    rw [List.getD_eq_getElem?_getD, List.getElem?_map] at hj
    cases hq : dict[k]? with
    | none => rw [hq] at hj; exact absurd hj (Nat.not_lt_zero j)
    | some q =>
      rw [hq] at hj
      have hj' : j < q.length := hj
      have hown : lz78NewPhrase dict r = q ++ optSym r.symbol := by rw [lz78NewPhrase, hk, lz78Phrase_succ hq]
      refine ⟨q[j], ?_, ?_⟩
      · rw [flatten_append_cons_getElem? _ _ _ (by rw [hown, List.length_append]; omega), hown,
          List.getElem?_append_left hj', List.getElem?_eq_getElem hj']
      · rw [flatten_append_getElem? _ hq hj', List.getElem?_eq_getElem hj']
  · intro x hx
    have hown : lz78NewPhrase dict r = lz78Phrase dict r.a.toNat ++ [x] := by rw [lz78NewPhrase, hx]; rfl
    have hlen : (lz78NewPhrase dict r).length = (lz78Phrase dict r.a.toNat).length + 1 := by simp [hown]
    rw [← length_lz78NewPhrase, flatten_append_cons_getElem? _ _ _ (by omega), hlen, hown, Nat.add_sub_cancel,
      List.getElem?_concat_length]

/-! ### The command -/

/-- The number of tokens of the stream is put into a register whole. -/
theorem ofNum_length_stream (s : State) : Word.ofNum s.stream.length = s.tokLen := by
  rw [length_stream, Word.ofNum, BitVec.ofNat_toNat, BitVec.setWidth_eq]

theorem exec_lz78Dec_of_le {s : State} (hlen : s.tokLen.toNat ≤ s.params.tokCap) :
    exec .lz78Dec s = .next (State.finishDecode (lz78Decode s.params s.stream) s) := by
  obtain ⟨hlt, -⟩ | ⟨-, ho⟩ := execLz78Dec_cases (s := s) rfl
  · omega
  · exact ho

/-- `LZ78.DEC` on a valid stream. -/
theorem exec_lz78Dec_of_valid {s : State} {toks : List Token} (hstream : s.stream = toks)
    (hlen : s.tokLen.toNat ≤ s.params.tokCap) (hvalid : lz78ValidAfter s.params [] toks) :
    exec .lz78Dec s = .next (State.finishDecode (.ok ((lz78Entries [] toks).flatten, toks.length)) s) := by
  rw [exec_lz78Dec_of_le hlen, hstream, lz78Decode_of_valid hvalid]

/-- Settles O42: `SYM` holds the entries of the stream one after the other, in which every token's symbols are as R178
says. -/
theorem lz78DecodeRebuilds : Obligations.Lz78DecodeRebuilds := by
  intro s hlen hvalid
  have hexec := exec_lz78Dec_of_valid rfl hlen hvalid
  obtain ⟨hfit, -⟩ := lz78Entries_fit (p := s.params) (dict := []) (Nat.zero_le _) (Nat.zero_le _) hvalid
  refine ⟨_, hexec, rfl, rfl, ofNum_length_stream s, rfl, rfl, congrArg Word.ofNum (length_flatten_lz78Entries _),
    fun pre r post hsplit => ?_⟩
  rw [hsplit] at hfit ⊢
  obtain ⟨hcopy, hsym⟩ := lz78Entries_token pre post r
  refine ⟨fun j ha hj => ?_, fun x hx => symAt_finishDecode_of_getElem? hfit (hsym x hx)⟩
  obtain ⟨x, hx, hback⟩ := hcopy j ha hj
  rw [symAt_finishDecode_of_getElem? hfit hx, symAt_finishDecode_of_getElem? hfit hback]

/-- Settles O43: the step on the bad token raises, the dictionary before it having one entry per token and as many
symbols as the tokens stand for. -/
theorem lz78DecodeFailsAtFirstBadToken : Obligations.Lz78DecodeFailsAtFirstBadToken := by
  intro s pre r post hlen hsplit hpre
  have hexec := exec_lz78Dec_of_le hlen
  have hsize := length_lz78Entries_nil pre
  obtain ⟨hsymFit, hdictFit⟩ := lz78Entries_fit (p := s.params) (dict := []) (Nat.zero_le _) (Nat.zero_le _) hpre
  rw [hsplit] at hexec
  constructor
  · intro hbad
    rw [lz78Decode_of_step_error hpre (lz78DecStep_of_corrupt _ (hsize.symm ▸ hbad))] at hexec
    exact ⟨_, hexec, rfl, rfl, rfl, rfl⟩
  · intro hr hfull
    have hspan : (lz78NewPhrase (lz78Entries [] pre) r).length = lz78Span (lz78Lens [] pre) r := by
      rw [length_lz78NewPhrase, map_length_lz78Entries]; rfl
    rw [← length_flatten_lz78Entries, ← hspan] at hfull
    rw [lz78Decode_of_step_error hpre (lz78DecStep_of_not_fits (hsize.symm ▸ hr) _ hsymFit (by omega))] at hexec
    exact ⟨_, hexec, rfl, rfl, rfl, rfl⟩

/-! ### One entry per token -/

theorem lz78EncStep_grows {p : Params} {input : List Sym} {k k' : Lz78EncWork} (h : lz78EncStep p input k = .ok k') :
    k'.dict.length = k.dict.length + 1 ∧ k.dict <+: k'.dict ∧ k'.out.length = k.out.length + 1 := by
  obtain ⟨-, ho⟩ | ⟨-, -, m, adv, -, -, ho⟩ := lz78EncStep_cases h <;> cases ho
  exact ⟨List.length_append, List.prefix_append _ _, List.length_append⟩

theorem lz78DecStep_grows {p : Params} {t : Nat} {r : Token} {w w' : Lz78DecWork} (h : lz78DecStep p t r w = .ok w') :
    w'.dict.length = w.dict.length + 1 ∧ w.dict <+: w'.dict := by
  obtain ⟨-, ho⟩ | ⟨-, -, -, new, -, ⟨-, ho⟩ | ⟨-, -, ho⟩⟩ := lz78DecStep_cases h <;> cases ho
  exact ⟨List.length_append, List.prefix_append _ _⟩

theorem lz78DecLoop_grows {p : Params} : ∀ {toks : List Token} {t : Nat} {w w' : Lz78DecWork},
    lz78DecLoop p toks t w = .ok w' → w'.dict.length = w.dict.length + toks.length
  | [], _, _, _, h => by cases h; rfl
  | r :: toks, t, w, w', h => by
    rw [lz78DecLoop_cons] at h
    cases hstep : lz78DecStep p t r w with
    | error e => rw [hstep] at h; cases h
    | ok w₁ =>
      rw [hstep] at h
      have hrest := lz78DecLoop_grows h
      have hone := (lz78DecStep_grows hstep).1
      rw [List.length_cons]
      omega

/-- A successful `LZ78.DEC` has made one entry per token. -/
theorem lz78Decode_dcount {p : Params} {toks : List Token} {syms : List Sym} {d : Nat}
    (h : lz78Decode p toks = .ok (syms, d)) : d = toks.length := by
  rw [lz78Decode_eq_bind] at h
  cases hloop : lz78DecLoop p toks 0 { dict := [], out := [] } with
  | error e => rw [hloop] at h; cases h
  | ok w =>
    rw [hloop] at h
    cases h
    exact (lz78DecLoop_grows hloop).trans (Nat.zero_add _)

/-- Settles O44, step by step, and by the ends of the two commands. -/
theorem lz78DictionaryGrowsByOne : Obligations.Lz78DictionaryGrowsByOne := by
  refine ⟨fun p input k k' => lz78EncStep_grows, fun p t r k k' => lz78DecStep_grows, fun s t h herr => ?_,
    fun s t h herr => ?_⟩
  · obtain ⟨-, toks, -, -, rfl, -⟩ := lz78Enc_success h herr
    rfl
  · obtain ⟨-, ho⟩ | ⟨-, ho⟩ := execLz78Dec_cases h <;> cases ho
    · cases herr
    cases hres : lz78Decode s.params s.stream with
    | error e => rw [hres] at herr; cases herr
    | ok x =>
      rw [finishDecode_ok, lz78Decode_dcount hres]
      exact ofNum_length_stream s

/-! ### The round trip -/

/-- An emitted token is valid where it was emitted (R182 from R176 (e), (f)). -/
theorem Lz78Emits.tokenValid {input : List Sym} {dict : List Phrase} {r : Token} (he : Lz78Emits input dict r) :
    lz78TokenValid dict.length r = true := by
  obtain ⟨htag, -, ha⟩ := he.shape
  refine lz78TokenValid_iff.mpr ⟨htag, ha, fun ⟨h0, hnone⟩ => ?_⟩
  have hsym : r.hasSym = false := by simpa [Token.symbol] using hnone
  have hcode := (he.without_symbol hsym).2
  omega

/-- The tokens of the parse are a valid stream after the entries made so far: the decoder's dictionary is the encoder's,
and the symbols of the entries are no more than the input (R182). -/
theorem lz78ValidAfter_of_rest {p : Params} {input : List Sym} (hN : input.length < 2 ^ 32)
    (hsym : input.length ≤ p.symCap) : ∀ {toks : List Token} {dict : List Phrase}, Lz78Rest input dict toks →
    dict.length + toks.length ≤ p.dictCap → lz78ValidAfter p dict toks
  | [], _, _, _ => rfl
  | t :: ts, dict, h, hdict => by
    obtain ⟨he, hrest⟩ := h.emits hN
    rw [List.length_cons] at hdict
    refine lz78ValidAfter_cons.mpr ⟨he.tokenValid, ?_, by omega,
      lz78ValidAfter_of_rest hN hsym hrest (by simp only [List.length_append, List.length_singleton]; omega)⟩
    have hle := hrest.isPrefix.length_le
    rw [List.flatten_append, List.flatten_singleton, List.length_append] at hle
    omega

/-- Settles O45: `LZ78.ENC` left the parse of the input, whose entries one after the other are the input. -/
theorem lz78RoundTrip : Obligations.Lz78RoundTrip := by
  intro s t _ h herr
  obtain ⟨hlen, toks, hparse, hfit, rfl, hstream⟩ := lz78Enc_success h herr
  have hN := length_input_lt s
  have htok : (State.finishEncode (.ok (toks, toks.length)) s).tokLen.toNat ≤ s.params.tokCap :=
    (toNat_ofNum_le _).trans (by omega)
  have hvalid : lz78ValidAfter s.params [] toks := lz78ValidAfter_of_rest hN (by rwa [length_input])
    (lz78Rest_start hparse) (by rw [List.length_nil]; omega)
  have hexec := exec_lz78Dec_of_valid hstream htok hvalid
  rw [flatten_lz78Entries_of_parse hN hparse] at hexec
  refine ⟨_, hexec, rfl, ?_, rfl, fun i hi => ?_⟩
  · exact BitVec.eq_of_toNat_eq (by rw [finishDecode_ok, toNat_ofNum hN, length_input])
  · have hi' : i < s.input.length := by rwa [length_input]
    exact symAt_finishDecode_of_getElem? (by rwa [length_input])
      (by rw [List.getElem?_eq_getElem hi', getElem_input])

end Sys2Proof.Machine
end

section
/-! PROOF. 43_lzw.md, the dictionary both engines build. The idea: a stream of codes stands for a list of phrases, one
per token, and both dictionaries are a function of it (`lzwDict`): the seeds, then each phrase with the first symbol of
the next one (R197, R200). The decoder has seen one phrase less than the encoder when it reads a code, which is the
special case of R201: a code resolves to `ph` exactly when it is the code of `ph` in the dictionary that `ph` itself
completes (`lzwResolve_eq_some_iff`). -/

namespace Sys2Proof.Machine

open Sys2Proof.Config

/-! ### First symbols -/

theorem firstSym_append {q : Phrase} (h : q ≠ []) (p : Phrase) : firstSym (q ++ p) = firstSym q := by
  obtain ⟨x, xs, rfl⟩ := List.exists_cons_of_ne_nil h
  rfl

theorem firstSym_eq_headD {q : Phrase} (h : q ≠ []) (d : Sym) : firstSym q = [q.headD d] := by
  obtain ⟨x, xs, rfl⟩ := List.exists_cons_of_ne_nil h
  rfl

/-! ### The dictionary of a list of phrases -/

/-- The entries after the seeds (R197, R200): each phrase with the first symbol of the next one. -/
def lzwChain (phs : List Phrase) : List Phrase := List.zipWith (fun q ph => q ++ firstSym ph) phs phs.tail

/-- The dictionary after the phrases `phs`: the encoder's when the last of them is its accumulator, the decoder's when
it is its previous phrase. -/
def lzwDict (alpha : List Sym) (phs : List Phrase) : List Phrase := lzwSeeds alpha ++ lzwChain phs

section
variable {alpha : List Sym} {phs : List Phrase}

theorem length_lzwSeeds (alpha : List Sym) : (lzwSeeds alpha).length = alpha.length := List.length_map _

/-- R203: one entry for each phrase but the last. -/
theorem length_lzwDict (alpha : List Sym) (phs : List Phrase) :
    (lzwDict alpha phs).length = alpha.length + (phs.length - 1) := by
  simp [lzwDict, lzwChain, length_lzwSeeds]

theorem length_lzwDict_snoc (alpha : List Sym) (phs : List Phrase) (ph : Phrase) :
    (lzwDict alpha (phs ++ [ph])).length = alpha.length + phs.length := by
  simp [length_lzwDict]

theorem lzwDict_nil (alpha : List Sym) : lzwDict alpha [] = lzwSeeds alpha := List.append_nil _

theorem lzwDict_singleton (alpha : List Sym) (ph : Phrase) : lzwDict alpha [ph] = lzwSeeds alpha := List.append_nil _

/-- One phrase more completes the entry of the phrase before it. -/
theorem lzwDict_snoc {q : Phrase} (h : phs.getLast? = some q) (ph : Phrase) :
    lzwDict alpha (phs ++ [ph]) = lzwDict alpha phs ++ [q ++ firstSym ph] := by
  obtain ⟨init, rfl⟩ := List.getLast?_eq_some_iff.mp h
  have hlen : init.length = (init ++ [q]).tail.length := by simp
  have htail : (init ++ [q] ++ [ph]).tail = (init ++ [q]).tail ++ [ph] := List.tail_append_of_ne_nil (by simp)
  have hlong : lzwChain (init ++ [q] ++ [ph]) = List.zipWith (fun q ph => q ++ firstSym ph) init (init ++ [q]).tail ++
      [q ++ firstSym ph] := by
    rw [lzwChain, htail, List.append_assoc, List.zipWith_append hlen]
    rfl
  have hshort : lzwChain (init ++ [q]) = List.zipWith (fun q ph => q ++ firstSym ph) init (init ++ [q]).tail := by
    have happ := List.zipWith_append (f := fun q ph => q ++ firstSym ph) (l₁' := [q]) (l₂' := []) hlen
    rw [List.append_nil] at happ
    rw [lzwChain, happ]
    exact List.append_nil _
  rw [lzwDict, hlong, lzwDict, hshort, List.append_assoc]

/-- A new accumulator `[c]` completes the entry of the phrase before it, as the encoder inserts it (R197). -/
theorem lzwDict_snoc_singleton (cur : Phrase) (c : Sym) :
    lzwDict alpha (phs ++ [cur] ++ [[c]]) = lzwDict alpha (phs ++ [cur]) ++ [cur ++ [c]] :=
  lzwDict_snoc List.getLast?_concat [c]

/-- Of the last phrase the dictionary has the first symbol only: it does not change as that phrase grows (R195). -/
theorem lzwDict_grow {cur : Phrase} (hcur : cur ≠ []) (p : Phrase) :
    lzwDict alpha (phs ++ [cur ++ p]) = lzwDict alpha (phs ++ [cur]) := by
  cases hq : phs.getLast? with
  | none => rw [List.getLast?_eq_none_iff.mp hq]; rfl
  | some q => rw [lzwDict_snoc hq, lzwDict_snoc hq, firstSym_append hcur]

/-- A code below `A` is that of a seed (R193). -/
theorem lzwDict_getElem?_seed {k : Nat} (hk : k < alpha.length) (phs : List Phrase) :
    (lzwDict alpha phs)[k]? = some [alpha[k]] := by
  rw [lzwDict, List.getElem?_append_left (by rwa [length_lzwSeeds]), lzwSeeds, List.getElem?_map,
    List.getElem?_eq_getElem hk]
  rfl

/-- A code `A + j` is that of phrase `j` with the first symbol of the next one. -/
theorem lzwDict_getElem?_chain {j : Nat} {e : Phrase} : (lzwDict alpha phs)[alpha.length + j]? = some e ↔
    ∃ q next, phs[j]? = some q ∧ phs[j + 1]? = some next ∧ q ++ firstSym next = e := by
  rw [lzwDict, List.getElem?_append_right (by rw [length_lzwSeeds]; omega), length_lzwSeeds, Nat.add_sub_cancel_left,
    lzwChain, List.getElem?_zipWith_eq_some]
  simp only [List.getElem?_tail]

theorem nodup_snoc {dict : List Phrase} (h : dict.Nodup) {e : Phrase} (he : e ∉ dict) : (dict ++ [e]).Nodup :=
  List.concat_eq_append ▸ h.concat he

theorem nodup_lzwSeeds (h : alpha.Nodup) : (lzwSeeds alpha).Nodup := h.map fun _ _ heq => (List.cons.inj heq).1

end

/-! ### The phrase of a code -/

/-- The phrase of a token read after the phrases `phs` (R200, R201): a seed, or phrase `j` and the symbol that came
after it; after the last phrase comes its own first symbol. -/
def lzwNewPhrase (alpha : List Sym) (phs : List Phrase) (r : Token) : Phrase :=
  if r.a.toNat < alpha.length then [alpha.getD r.a.toNat 0#24]
  else
    let q := phs.getD (r.a.toNat - alpha.length) []
    q ++ [(phs.getD (r.a.toNat - alpha.length + 1) q).headD 0#24]

/-- The phrases after a list of tokens. -/
def lzwPhrases (alpha : List Sym) (phs : List Phrase) (toks : List Token) : List Phrase :=
  toks.foldl (fun phs r => phs ++ [lzwNewPhrase alpha phs r]) phs

/-- Phrases are non-empty (R39). -/
def phrasesNonempty (phs : List Phrase) : Prop := ∀ ph ∈ phs, ph ≠ []

section
variable {alpha : List Sym} {phs : List Phrase}

theorem phrasesNonempty_nil : phrasesNonempty [] := fun _ h => absurd h List.not_mem_nil

theorem phrasesNonempty.snoc (h : phrasesNonempty phs) {ph : Phrase} (hph : ph ≠ []) :
    phrasesNonempty (phs ++ [ph]) := by
  intro q hq
  obtain hq | hq := List.mem_append.mp hq
  · exact h q hq
  · exact List.mem_singleton.mp hq ▸ hph

theorem lzwNewPhrase_ne_nil (alpha : List Sym) (phs : List Phrase) (r : Token) : lzwNewPhrase alpha phs r ≠ [] := by
  unfold lzwNewPhrase
  split <;> simp

/-- The phrase of a valid code is the entry of that code once it is itself the last phrase. -/
theorem lzwDict_getElem?_newPhrase (hne : phrasesNonempty phs) {r : Token}
    (hr : r.a.toNat < alpha.length + phs.length) :
    (lzwDict alpha (phs ++ [lzwNewPhrase alpha phs r]))[r.a.toNat]? = some (lzwNewPhrase alpha phs r) := by
  by_cases hk : r.a.toNat < alpha.length
  · rw [lzwDict_getElem?_seed hk, lzwNewPhrase, if_pos hk, List.getD_eq_getElem _ _ hk]
  · obtain ⟨j, hj⟩ : ∃ j, r.a.toNat = alpha.length + j := ⟨r.a.toNat - alpha.length, by omega⟩
    have hlt : j < phs.length := by omega
    have hnew : lzwNewPhrase alpha phs r = phs[j] ++ [(phs.getD (j + 1) phs[j]).headD 0#24] := by
      rw [lzwNewPhrase, if_neg hk, hj, Nat.add_sub_cancel_left]
      simp only [List.getD_eq_getElem _ _ hlt]
    have hq : phs[j] ≠ [] := hne _ (List.getElem_mem hlt)
    rw [hj, lzwDict_getElem?_chain]
    by_cases hlast : j + 1 < phs.length
    · refine ⟨phs[j], phs[j + 1], ?_, ?_, ?_⟩
      · rw [List.getElem?_append_left hlt, List.getElem?_eq_getElem hlt]
      · rw [List.getElem?_append_left hlast, List.getElem?_eq_getElem hlast]
      · rw [hnew, List.getD_eq_getElem _ _ hlast, firstSym_eq_headD (hne _ (List.getElem_mem hlast))]
    · refine ⟨phs[j], lzwNewPhrase alpha phs r, ?_, ?_, ?_⟩
      · rw [List.getElem?_append_left hlt, List.getElem?_eq_getElem hlt]
      · rw [show j + 1 = phs.length by omega, List.getElem?_concat_length]
      · rw [hnew, firstSym_append hq, List.getD_eq_default _ _ (by omega), firstSym_eq_headD hq]

/-- A code resolves to the phrase whose entry has that code in the dictionary the phrase completes: the decoder lacks
only the first symbol of this phrase, which is the first of the one before it when the code is that of the entry being
defined (R201). -/
theorem lzwResolve_eq_some_iff (hne : phrasesNonempty phs) {k : Nat} {ph : Phrase} :
    lzwResolve (lzwDict alpha phs) phs.getLast? k = some ph ↔ (lzwDict alpha (phs ++ [ph]))[k]? = some ph := by
  unfold lzwResolve
  cases hq : phs.getLast? with
  | none =>
    obtain rfl := List.getLast?_eq_none_iff.mp hq
    rw [List.nil_append, lzwDict_singleton, lzwDict_nil]
    split
    · exact Iff.rfl
    · next hk => simp [List.getElem?_eq_none_iff.mpr (Nat.le_of_not_lt hk)]
  | some q =>
    have hqne : q ≠ [] := hne q (List.mem_of_getLast? hq)
    rw [lzwDict_snoc hq, getElem?_snoc_eq_some]
    split
    · next hk => exact ⟨.inl, fun h => h.resolve_right fun h => by omega⟩
    · next hk =>
      rw [List.getElem?_eq_none_iff.mpr (Nat.le_of_not_lt hk)]
      split
      · next hlast =>
        simp only [Option.map_some, Option.some.injEq, reduceCtorEq, false_or, hlast, true_and]
        constructor
        · rintro rfl
          rw [firstSym_append hqne]
        · intro h
          have hfirst := congrArg firstSym h
          rw [firstSym_append hqne] at hfirst
          rwa [hfirst]
      · next hlast => simp [hlast]

/-- A valid code resolves (R200, R201). -/
theorem lzwResolve_of_lt (hne : phrasesNonempty phs) {r : Token} (hr : r.a.toNat < alpha.length + phs.length) :
    lzwResolve (lzwDict alpha phs) phs.getLast? r.a.toNat = some (lzwNewPhrase alpha phs r) :=
  (lzwResolve_eq_some_iff hne).mpr (lzwDict_getElem?_newPhrase hne hr)

/-- A code at or above `A + t` does not resolve at token `t` (R202). -/
theorem lzwResolve_of_le (hne : phrasesNonempty phs) {k : Nat} (hk : alpha.length + phs.length ≤ k) :
    lzwResolve (lzwDict alpha phs) phs.getLast? k = none := by
  refine Option.eq_none_iff_forall_ne_some.mpr fun ph h => ?_
  have hlt := (List.getElem?_eq_some_iff.mp ((lzwResolve_eq_some_iff hne).mp h)).1
  rw [length_lzwDict_snoc] at hlt
  omega

/-- The phrase of a code is the only one that is the entry of that code in the dictionary it completes. -/
theorem lzwNewPhrase_of_getElem? (hne : phrasesNonempty phs) {r : Token} {ph : Phrase}
    (h : (lzwDict alpha (phs ++ [ph]))[r.a.toNat]? = some ph) : lzwNewPhrase alpha phs r = ph := by
  have hlt := (List.getElem?_eq_some_iff.mp h).1
  rw [length_lzwDict_snoc] at hlt
  exact Option.some.inj ((lzwResolve_of_lt hne hlt).symm.trans ((lzwResolve_eq_some_iff hne).mpr h))

end

section
variable (alpha : List Sym) (phs : List Phrase) (r : Token) (toks toks' : List Token)

theorem lzwPhrases_cons :
    lzwPhrases alpha phs (r :: toks) = lzwPhrases alpha (phs ++ [lzwNewPhrase alpha phs r]) toks := rfl

theorem lzwPhrases_append :
    lzwPhrases alpha phs (toks ++ toks') = lzwPhrases alpha (lzwPhrases alpha phs toks) toks' := List.foldl_append

/-- The phrases that are there stay, and every token adds one. -/
theorem exists_lzwPhrases_eq_append :
    ∃ new, lzwPhrases alpha phs toks = phs ++ new ∧ new.length = toks.length := by
  induction toks generalizing phs with
  | nil => exact ⟨[], (List.append_nil _).symm, rfl⟩
  | cons r toks ih =>
    obtain ⟨new, hnew, hlen⟩ := ih (phs ++ [lzwNewPhrase alpha phs r])
    refine ⟨lzwNewPhrase alpha phs r :: new, ?_, congrArg (· + 1) hlen⟩
    rw [lzwPhrases_cons, hnew, List.append_assoc, List.singleton_append]

theorem length_lzwPhrases : (lzwPhrases alpha phs toks).length = phs.length + toks.length := by
  obtain ⟨new, hnew, hlen⟩ := exists_lzwPhrases_eq_append alpha phs toks
  rw [hnew, List.length_append, hlen]

theorem length_lzwPhrases_nil : (lzwPhrases alpha [] toks).length = toks.length :=
  (length_lzwPhrases alpha [] toks).trans (Nat.zero_add _)

/-- `lzwSpan` is the length of the phrase. -/
theorem length_lzwNewPhrase :
    (lzwNewPhrase alpha phs r).length = lzwSpan alpha.length (phs.map List.length) r := by
  unfold lzwNewPhrase lzwSpan
  split
  · rfl
  · rw [List.length_append, List.length_singleton]
    exact congrArg (· + 1) (List.getD_map phs [] List.length).symm

/-- `lzwLens` are the lengths of the phrases. -/
theorem map_length_lzwPhrases :
    (lzwPhrases alpha phs toks).map List.length = lzwLens alpha.length (phs.map List.length) toks := by
  induction toks generalizing phs with
  | nil => rfl
  | cons r toks ih =>
    rw [lzwPhrases_cons, ih, List.map_append, List.map_singleton, length_lzwNewPhrase]
    rfl

/-- The symbols of the phrases of a stream are as many as its tokens stand for. -/
theorem length_flatten_lzwPhrases :
    (lzwPhrases alpha [] toks).flatten.length = (lzwLens alpha.length [] toks).sum := by
  rw [List.length_flatten, map_length_lzwPhrases]
  rfl

variable {phs} in
theorem phrasesNonempty_lzwPhrases (hne : phrasesNonempty phs) : phrasesNonempty (lzwPhrases alpha phs toks) := by
  induction toks generalizing phs with
  | nil => exact hne
  | cons r toks ih => exact ih (hne.snoc (lzwNewPhrase_ne_nil alpha phs r))

end

end Sys2Proof.Machine
end

section
/-! PROOF. 43_lzw.md, the encoder: the alphabet (R191), one symbol (R195, R197), the dictionary (R193, R196, R204), the
codes of `LZW.ENC` (R190, R194, R198, R104) and their properties (R204). The idea: the parse is a run of three moves,
extend, emit and flush, on the phrases emitted, the accumulator and the input to come (`LzwRun`); the engine's state and
its result, the parse's tokens and their phrases are read off a run by induction on its moves. -/

namespace Sys2Proof.Machine

open Sys2Proof.Config

/-! ### The alphabet -/

section
variable {s : State}

theorem alphabet_ne_nil_iff : s.alphabet ≠ [] ↔ 1 ≤ s.alphaLen.toNat := by
  rw [← length_alphabet, Nat.one_le_iff_ne_zero, ne_eq, ne_eq, List.length_eq_zero_iff]

/-- The distinctness R191 asks, entry by entry. -/
theorem nodup_alphabet_iff :
    s.alphabet.Nodup ↔ ∀ a b, a < b → b < s.alphaLen.toNat → s.alphaAt a ≠ s.alphaAt b := by
  rw [List.Nodup, List.pairwise_iff_getElem]
  simp only [getElem_alphabet, length_alphabet]
  exact ⟨fun h a b hab hb => h a b (hab.trans hb) hb hab, fun h a b _ hb hab => h a b hab hb⟩

/-- R247, priorities 2 and 3: an invalid alphabet of a legal length. -/
theorem exec_lzwEnc_of_invalid (hlen : s.symLen.toNat ≤ s.params.symCap)
    (halpha : s.alphaLen.toNat ≤ s.params.alphaCap) (hbad : ¬ (s.alphabet ≠ [] ∧ s.alphabet.Nodup)) :
    exec .lzwEnc s = .next (State.raiseEncode .invalidConfiguration 0#32 s) := by
  obtain ⟨hlong, -⟩ | ⟨-, -, ⟨-, ho⟩ | ⟨hne, hnd, -⟩⟩ := execLzwEnc_cases (s := s) rfl
  · omega
  · exact ho
  · exact absurd ⟨hne, hnd⟩ hbad

theorem exec_lzwDec_of_invalid (hlen : s.tokLen.toNat ≤ s.params.tokCap)
    (halpha : s.alphaLen.toNat ≤ s.params.alphaCap) (hbad : ¬ (s.alphabet ≠ [] ∧ s.alphabet.Nodup)) :
    exec .lzwDec s = .next (State.raiseDecode .invalidConfiguration 0#32 s) := by
  obtain ⟨hlong, -⟩ | ⟨-, -, ⟨-, ho⟩ | ⟨hne, hnd, -⟩⟩ := execLzwDec_cases (s := s) rfl
  · omega
  · exact ho
  · exact absurd ⟨hne, hnd⟩ hbad

theorem exec_lzwEnc_of_valid (hlen : s.symLen.toNat ≤ s.params.symCap)
    (halpha : s.alphaLen.toNat ≤ s.params.alphaCap) (hne : s.alphabet ≠ []) (hnd : s.alphabet.Nodup)
    (hin : ∀ x ∈ s.input, x ∈ s.alphabet) :
    exec .lzwEnc s = .next (State.finishEncode (lzwEncode s.params s.alphabet s.input) s) := by
  obtain ⟨hlong, -⟩ | ⟨-, -, ⟨hbad, -⟩ | ⟨-, -, ⟨i, hi, -⟩ | ⟨-, ho⟩⟩⟩ := execLzwEnc_cases (s := s) rfl
  · omega
  · exact absurd ⟨hne, hnd⟩ hbad
  · rw [firstUnknown_eq_none.mpr hin] at hi
    cases hi
  · exact ho

theorem exec_lzwDec_of_valid (hlen : s.tokLen.toNat ≤ s.params.tokCap)
    (halpha : s.alphaLen.toNat ≤ s.params.alphaCap) (hne : s.alphabet ≠ []) (hnd : s.alphabet.Nodup) :
    exec .lzwDec s = .next (State.finishDecode (lzwDecode s.params s.alphabet s.stream) s) := by
  obtain ⟨hlong, -⟩ | ⟨-, -, ⟨hbad, -⟩ | ⟨-, -, ho⟩⟩ := execLzwDec_cases (s := s) rfl
  · omega
  · exact absurd ⟨hne, hnd⟩ hbad
  · exact ho

/-- What a success of `LZW.ENC` tells of its operands (R191, R192). -/
theorem lzwEnc_success_operands {t : State} (h : exec .lzwEnc s = .next t) (herr : t.err = none) :
    s.symLen.toNat ≤ s.params.symCap ∧ s.alphaLen.toNat ≤ s.params.alphaCap ∧ s.alphabet ≠ [] ∧ s.alphabet.Nodup ∧
      (∀ x ∈ s.input, x ∈ s.alphabet) ∧ t = State.finishEncode (lzwEncode s.params s.alphabet s.input) s := by
  obtain ⟨-, ho⟩ | ⟨hlen, halpha, ⟨-, ho⟩ | ⟨hne, hnd, ⟨_, -, ho⟩ | ⟨hin, ho⟩⟩⟩ := execLzwEnc_cases h <;> cases ho
  · cases herr
  · cases herr
  · cases herr
  · exact ⟨hlen, halpha, hne, hnd, hin, rfl⟩

end

/-- Settles O22: the configuration test of both commands, which looks at the alphabet only. -/
theorem lzwAlphabetMustBeDistinct : Obligations.LzwAlphabetMustBeDistinct := by
  intro s
  refine ⟨fun halpha hbad => ?_, fun t hp h herr => ?_⟩
  · have hinvalid : ¬ (s.alphabet ≠ [] ∧ s.alphabet.Nodup) := by
      rw [alphabet_ne_nil_iff, nodup_alphabet_iff]
      rintro ⟨hone, hdist⟩
      obtain hnone | ⟨i, j, hij, hj, heq⟩ := hbad
      · omega
      · exact hdist i j hij hj heq
    exact ⟨fun hlen => exec_lzwEnc_of_invalid hlen halpha hinvalid,
      fun hlen => exec_lzwDec_of_invalid hlen halpha hinvalid⟩
  · obtain ⟨-, halpha, hne, -⟩ := lzwEnc_success_operands h herr
    simp only [Params.wf, Bool.and_eq_true, decide_eq_true_eq, le_min_iff] at hp
    have hone := alphabet_ne_nil_iff.mp hne
    exact ⟨hone, by omega⟩

/-! ### One symbol -/

/-- A code of a dictionary of distinct phrases is found again (R196). -/
theorem codeOf_of_getElem? {dict : List Phrase} {n : Nat} {ph : Phrase} (hnd : dict.Nodup)
    (h : dict[n]? = some ph) : codeOf dict ph = n := by
  obtain ⟨hn, rfl⟩ := List.getElem?_eq_some_iff.mp h
  exact hnd.idxOf_getElem n hn

section
variable {p : Params} {pos n : Nat} {c : Sym} {k : LzwEncWork}

theorem lzwEncStep_extend (hmem : k.cur ++ [c] ∈ k.dict) :
    lzwEncStep p pos c k = .ok { dict := k.dict, cur := k.cur ++ [c], out := k.out } := by
  obtain ⟨-, ho⟩ | ⟨hnew, -⟩ | ⟨hnew, -⟩ := lzwEncStep_cases (rfl : lzwEncStep p pos c k = _)
  · exact ho
  · exact absurd hmem hnew
  · exact absurd hmem hnew

variable (hnew : k.cur ++ [c] ∉ k.dict)
include hnew

theorem lzwEncStep_emit (htok : k.out.length ≠ p.tokCap) (hdict : k.dict.length ≠ p.dictCap) (hnd : k.dict.Nodup)
    (hcode : k.dict[n]? = some k.cur) : lzwEncStep p pos c k =
      .ok { dict := k.dict ++ [k.cur ++ [c]], cur := [c], out := k.out ++ [lzwToken n] } := by
  obtain ⟨hmem, -⟩ | ⟨-, hfull, -⟩ | ⟨-, -, -, ho⟩ := lzwEncStep_cases (rfl : lzwEncStep p pos c k = _)
  · exact absurd hmem hnew
  · exact absurd hfull (not_or.mpr ⟨htok, hdict⟩)
  · rw [ho, codeOf_of_getElem? hnd hcode]

theorem lzwEncStep_full (hfull : k.out.length = p.tokCap ∨ k.dict.length = p.dictCap) :
    lzwEncStep p pos c k = .error { kind := .capacityExceeded, info := Word.ofNum pos } := by
  obtain ⟨hmem, -⟩ | ⟨-, -, ho⟩ | ⟨-, htok, hdict, -⟩ := lzwEncStep_cases (rfl : lzwEncStep p pos c k = _)
  · exact absurd hmem hnew
  · exact ho
  · exact absurd hfull (not_or.mpr ⟨htok, hdict⟩)

end

/-- Settles O47, by the two cases of a step with room. -/
theorem lzwEncodeStep : Obligations.LzwEncodeStep := fun _ _ _ _ =>
  ⟨lzwEncStep_extend, fun hnew htok hdict _ hcode hnd =>
    lzwEncStep_emit hnew (Nat.ne_of_lt htok) (Nat.ne_of_lt hdict) hnd hcode⟩

/-- Dropping the last symbol of a phrase gives the empty sequence or a phrase again (R204 (b)). -/
def prefixClosed (dict : List Phrase) : Prop := ∀ ph ∈ dict, ph.dropLast = [] ∨ ph.dropLast ∈ dict

theorem prefixClosed.snoc {dict : List Phrase} (h : prefixClosed dict) {cur : Phrase} (hcur : cur ∈ dict) (c : Sym) :
    prefixClosed (dict ++ [cur ++ [c]]) := by
  intro ph hph
  obtain hph | hph := List.mem_append.mp hph
  · exact (h ph hph).imp_right (List.mem_append_left _)
  · rw [List.mem_singleton.mp hph, List.dropLast_concat]
    exact .inr (List.mem_append_left _ hcur)

/-- Settles O48: the start by the seeds, an iteration by the two cases that succeed. -/
theorem lzwDictionaryDistinctPrefixClosed : Obligations.LzwDictionaryDistinctPrefixClosed := by
  refine ⟨fun alpha c hnd hc => ?_, fun p pos c k k' h hnd hcur hc hclosed => ?_⟩
  · have hseed : ∀ x ∈ alpha, [x] ∈ lzwSeeds alpha := fun x => List.mem_map_of_mem
    refine ⟨length_lzwSeeds alpha, fun k x hx => ?_, rfl, rfl, nodup_lzwSeeds hnd, hseed c hc, hseed, fun ph hph => ?_⟩
    · rw [lzwEncInit_dict, List.getElem?_map, hx]
      rfl
    · obtain ⟨x, -, rfl⟩ := List.mem_map.mp hph
      exact .inl rfl
  · obtain ⟨hmem, ho⟩ | ⟨-, -, ho⟩ | ⟨hnew, -, -, ho⟩ := lzwEncStep_cases h <;> cases ho
    · exact ⟨hnd, hmem, List.prefix_rfl, fun _ => id, hclosed⟩
    · exact ⟨nodup_snoc hnd hnew, List.mem_append_left _ hc, List.prefix_append _ _,
        fun _ => List.mem_append_left _, prefixClosed.snoc hclosed hcur c⟩

/-! ### The parse -/

/-- Every input over the seeds of the dictionary has a parse. -/
theorem exists_lzwParse : ∀ (rest : List Sym) {dict : List Phrase} {cur : Phrase}, cur ∈ dict →
    (∀ x ∈ rest, [x] ∈ dict) → ∃ toks, lzwParse dict cur rest toks
  | [], dict, cur, hcur, _ => by
    obtain ⟨n, hn⟩ := List.mem_iff_getElem?.mp hcur
    exact ⟨_, n, hn, rfl⟩
  | c :: rest, dict, cur, hcur, hseeds => by
    obtain ⟨hc, hrest⟩ := List.forall_mem_cons.mp hseeds
    simp only [lzwParse]
    split
    · next hmem => exact exists_lzwParse rest hmem hrest
    · obtain ⟨n, hn⟩ := List.mem_iff_getElem?.mp hcur
      obtain ⟨toks, ht⟩ := exists_lzwParse rest (dict := dict ++ [cur ++ [c]]) (List.mem_append_left _ hc)
        fun x hx => List.mem_append_left _ (hrest x hx)
      exact ⟨_, n, toks, hn, rfl, ht⟩

/-- From a dictionary of distinct phrases there is one parse only. -/
theorem lzwParse_unique : ∀ {rest : List Sym} {dict : List Phrase} {cur : Phrase} {toks toks' : List Token},
    dict.Nodup → lzwParse dict cur rest toks → lzwParse dict cur rest toks' → toks' = toks
  | [], dict, cur, _, _, hnd, ⟨n, hn, ht⟩, ⟨n', hn', ht'⟩ => by
    rw [ht, ht', ← codeOf_of_getElem? hnd hn, codeOf_of_getElem? hnd hn']
  | c :: rest, dict, cur, toks, toks', hnd, h, h' => by
    simp only [lzwParse] at h h'
    split at h
    · next hmem => exact lzwParse_unique hnd h (by rwa [if_pos hmem] at h')
    · next hnew =>
      rw [if_neg hnew] at h'
      obtain ⟨n, ts, hn, rfl, ht⟩ := h
      obtain ⟨n', ts', hn', rfl, ht'⟩ := h'
      rw [lzwParse_unique (nodup_snoc hnd hnew) ht ht', ← codeOf_of_getElem? hnd hn, codeOf_of_getElem? hnd hn']

/-- Where an encoder can be: it has emitted the phrases `phs`, its accumulator is `cur` (R204 (a)). -/
structure LzwCut (alpha : List Sym) (phs : List Phrase) (cur : Phrase) : Prop where
  phrases_ne : phrasesNonempty phs
  cur_ne : cur ≠ []
  nodup : (lzwDict alpha (phs ++ [cur])).Nodup

/-- The encoder's way through the input to come, with the tokens it emits: flush (R198), extend (R195), or emit, insert
and reset (R197). -/
inductive LzwRun (alpha : List Sym) : List Phrase → Phrase → List Sym → List Token → Prop
  | flush {phs cur n} : LzwCut alpha phs cur → (lzwDict alpha (phs ++ [cur]))[n]? = some cur →
      LzwRun alpha phs cur [] [lzwToken n]
  | extend {phs cur c rest toks} : LzwCut alpha phs cur → cur ++ [c] ∈ lzwDict alpha (phs ++ [cur]) →
      LzwRun alpha phs (cur ++ [c]) rest toks → LzwRun alpha phs cur (c :: rest) toks
  | emit {phs cur n c rest toks} : LzwCut alpha phs cur → (lzwDict alpha (phs ++ [cur]))[n]? = some cur →
      cur ++ [c] ∉ lzwDict alpha (phs ++ [cur]) → LzwRun alpha (phs ++ [cur]) [c] rest toks →
      LzwRun alpha phs cur (c :: rest) (lzwToken n :: toks)

section
variable {alpha : List Sym} {phs : List Phrase} {cur : Phrase}

theorem lzwCut_start (hnd : alpha.Nodup) (c : Sym) : LzwCut alpha [] [c] :=
  ⟨phrasesNonempty_nil, List.cons_ne_nil _ _, lzwDict_singleton alpha [c] ▸ nodup_lzwSeeds hnd⟩

theorem LzwCut.extend (h : LzwCut alpha phs cur) (c : Sym) : LzwCut alpha phs (cur ++ [c]) :=
  ⟨h.phrases_ne, by simp, (lzwDict_grow h.cur_ne [c]).symm ▸ h.nodup⟩

theorem LzwCut.emit (h : LzwCut alpha phs cur) {c : Sym} (hnew : cur ++ [c] ∉ lzwDict alpha (phs ++ [cur])) :
    LzwCut alpha (phs ++ [cur]) [c] :=
  ⟨h.phrases_ne.snoc h.cur_ne, List.cons_ne_nil _ _, (lzwDict_snoc_singleton cur c).symm ▸ nodup_snoc h.nodup hnew⟩

/-- A parse is a run: the dictionary is that of the phrases emitted and the accumulator. -/
theorem lzwRun_of_parse : ∀ {rest : List Sym} {phs : List Phrase} {cur : Phrase} {toks : List Token},
    LzwCut alpha phs cur → lzwParse (lzwDict alpha (phs ++ [cur])) cur rest toks → LzwRun alpha phs cur rest toks
  | [], _, _, _, hcut, ⟨_, hn, ht⟩ => ht ▸ .flush hcut hn
  | c :: rest, phs, cur, toks, hcut, h => by
    simp only [lzwParse] at h
    split at h
    · next hmem =>
      rw [← lzwDict_grow hcut.cur_ne [c]] at h
      exact .extend hcut hmem (lzwRun_of_parse (hcut.extend c) h)
    · next hnew =>
      obtain ⟨n, ts, hn, rfl, ht⟩ := h
      have hdict : lzwDict alpha (phs ++ [cur]) ++ [cur ++ [c]] = lzwDict alpha (phs ++ [cur] ++ [[c]]) :=
        (lzwDict_snoc_singleton cur c).symm
      rw [hdict] at ht
      exact .emit hcut hn hnew (lzwRun_of_parse (hcut.emit hnew) ht)

end

/-! ### The engine makes the run -/

/-- The engine from an iteration on (R190): the rest of the loop, then the flush. -/
def lzwEncRest (p : Params) (rest : List Sym) (pos : Nat) (k : LzwEncWork) : Except Raise (List Token × Nat) :=
  (lzwEncLoop p rest pos k).bind fun k =>
    (lzwEncFlush p (pos + rest.length) k).bind fun out => .ok (out, k.dict.length)

/-- The working state of the encoder when it has emitted the phrases `phs` as the tokens `out`. -/
def lzwEncAt (alpha : List Sym) (phs : List Phrase) (cur : Phrase) (out : List Token) : LzwEncWork :=
  { dict := lzwDict alpha (phs ++ [cur]), cur := cur, out := out }

section
variable {p : Params} {alpha : List Sym}

theorem lzwEncRest_cons (c : Sym) (rest : List Sym) (pos : Nat) (k : LzwEncWork) :
    lzwEncRest p (c :: rest) pos k = (lzwEncStep p pos c k).bind (lzwEncRest p rest (pos + 1)) := by
  have hend : pos + (c :: rest).length = pos + 1 + rest.length := by rw [List.length_cons]; omega
  rw [lzwEncRest, lzwEncLoop_cons, hend]
  cases lzwEncStep p pos c k <;> rfl

theorem lzwEncode_eq_rest (c : Sym) (rest : List Sym) :
    lzwEncode p alpha (c :: rest) = lzwEncRest p rest 1 (lzwEncAt alpha [] [c] []) := by
  have hinit : lzwEncInit alpha c = lzwEncAt alpha [] [c] [] := by
    rw [lzwEncAt, List.nil_append, lzwDict_singleton]
    rfl
  rw [lzwEncode_cons, lzwEncRest, List.length_cons, Nat.add_comm, hinit]

section
variable {phs : List Phrase} {cur : Phrase} {out : List Token} {pos n : Nat} {c : Sym} (hcut : LzwCut alpha phs cur)
include hcut

theorem lzwEncStep_extend_encAt (hmem : cur ++ [c] ∈ lzwDict alpha (phs ++ [cur])) :
    lzwEncStep p pos c (lzwEncAt alpha phs cur out) = .ok (lzwEncAt alpha phs (cur ++ [c]) out) := by
  have ho := lzwEncStep_extend (p := p) (pos := pos) (k := lzwEncAt alpha phs cur out) hmem
  rw [ho, lzwEncAt, lzwEncAt, lzwDict_grow hcut.cur_ne]

theorem lzwEncStep_emit_encAt (hcode : (lzwDict alpha (phs ++ [cur]))[n]? = some cur)
    (hnew : cur ++ [c] ∉ lzwDict alpha (phs ++ [cur])) (htok : out.length ≠ p.tokCap)
    (hdict : alpha.length + phs.length ≠ p.dictCap) :
    lzwEncStep p pos c (lzwEncAt alpha phs cur out) =
      .ok (lzwEncAt alpha (phs ++ [cur]) [c] (out ++ [lzwToken n])) := by
  have ho := lzwEncStep_emit (p := p) (pos := pos) (k := lzwEncAt alpha phs cur out) hnew htok
    (by rwa [lzwEncAt, length_lzwDict_snoc]) hcut.nodup hcode
  rw [ho, lzwEncAt, lzwEncAt, lzwDict_snoc_singleton]

/-- The flush ends the engine, with a token if there is room (R198). -/
theorem lzwEncRest_nil (hcode : (lzwDict alpha (phs ++ [cur]))[n]? = some cur) :
    lzwEncRest p [] pos (lzwEncAt alpha phs cur out) =
      if out.length = p.tokCap then .error { kind := .capacityExceeded, info := Word.ofNum pos }
      else .ok (out ++ [lzwToken n], alpha.length + phs.length) := by
  have hflush : lzwEncRest p [] pos (lzwEncAt alpha phs cur out) =
      (emit p.tokCap pos (lzwToken n) out).bind fun out => .ok (out, alpha.length + phs.length) := by
    rw [← codeOf_of_getElem? hcut.nodup hcode, ← length_lzwDict_snoc alpha phs cur]
    rfl
  rw [hflush]
  obtain ⟨hfull, ho⟩ | ⟨hroom, ho⟩ := emit_cases (rfl : emit p.tokCap pos (lzwToken n) out = _)
  · rw [ho, if_pos hfull]; rfl
  · rw [ho, if_neg hroom]; rfl

end

variable {phs : List Phrase} {cur : Phrase} {rest : List Sym} {toks : List Token} (h : LzwRun alpha phs cur rest toks)
include h

/-- Every phrase has a symbol, so there are no more tokens than symbols to come (R204 (c)). -/
theorem LzwRun.length_le : 1 ≤ toks.length ∧ toks.length ≤ rest.length + 1 := by
  induction h with
  | flush => exact ⟨le_rfl, le_rfl⟩
  | extend _ _ _ ih => exact ⟨ih.1, Nat.le_succ_of_le ih.2⟩
  | emit _ _ _ _ ih => exact ⟨Nat.le_add_left _ _, Nat.succ_le_succ ih.2⟩

/-- The code of a token is below the dictionary size at its emission (R204 (d)). -/
theorem LzwRun.code_lt {i : Nat} {r : Token} (hr : toks[i]? = some r) :
    ∃ n, r = lzwToken n ∧ n < alpha.length + phs.length + i := by
  have hcode {phs : List Phrase} {cur : Phrase} {n : Nat} (hn : (lzwDict alpha (phs ++ [cur]))[n]? = some cur) :
      n < alpha.length + phs.length :=
    length_lzwDict_snoc alpha phs cur ▸ (List.getElem?_eq_some_iff.mp hn).1
  induction h generalizing i with
  | flush _ hn =>
    cases i with
    | zero => exact ⟨_, (Option.some.inj hr).symm, hcode hn⟩
    | succ i => cases hr
  | extend _ _ _ ih => exact ih hr
  | emit _ hn _ _ ih =>
    cases i with
    | zero => exact ⟨_, (Option.some.inj hr).symm, hcode hn⟩
    | succ i =>
      obtain ⟨n, hn, hlt⟩ := ih hr
      rw [List.length_append, List.length_singleton] at hlt
      exact ⟨n, hn, by omega⟩

/-- With room for its tokens and their entries the engine makes the run, with one entry for each token but the last. -/
theorem LzwRun.encode_of_fits {out : List Token} {pos : Nat} (htok : out.length + toks.length ≤ p.tokCap)
    (hdict : alpha.length + (phs.length + toks.length) ≤ p.dictCap + 1) :
    lzwEncRest p rest pos (lzwEncAt alpha phs cur out) =
      .ok (out ++ toks, alpha.length + (phs.length + toks.length - 1)) := by
  induction h generalizing out pos with
  | flush hcut hn =>
    rw [List.length_singleton] at htok
    rw [lzwEncRest_nil hcut hn, if_neg (by omega), List.length_singleton, Nat.add_sub_cancel]
  | extend hcut hmem _ ih =>
    rw [lzwEncRest_cons, lzwEncStep_extend_encAt hcut hmem]
    exact ih htok hdict
  | emit hcut hn hnew hrun ih =>
    have hone := hrun.length_le.1
    rw [List.length_cons] at htok hdict
    rw [lzwEncRest_cons, lzwEncStep_emit_encAt hcut hn hnew (by omega) (by omega), Except.bind,
      ih (by rw [List.length_append, List.length_singleton]; omega)
        (by rw [List.length_append, List.length_singleton]; omega),
      List.append_assoc, List.singleton_append, List.length_append, List.length_singleton, List.length_cons,
      Nat.add_assoc, Nat.add_comm 1]

end

/-! ### The phrases of the run -/

theorem toNat_lzwToken_a {n : Nat} (h : n < 2 ^ 32) : (lzwToken n).a.toNat = n := toNat_ofNum h

section
variable {alpha : List Sym} {phs : List Phrase} {cur : Phrase}

/-- A decoder that has read the phrases emitted reads the accumulator's code as the accumulator. -/
theorem LzwCut.newPhrase_eq (h : LzwCut alpha phs cur) {n : Nat} (hn : (lzwDict alpha (phs ++ [cur]))[n]? = some cur)
    (hlt : alpha.length + phs.length ≤ 2 ^ 32) : lzwNewPhrase alpha phs (lzwToken n) = cur := by
  have hcode := (List.getElem?_eq_some_iff.mp hn).1
  rw [length_lzwDict_snoc] at hcode
  exact lzwNewPhrase_of_getElem? h.phrases_ne (by rwa [toNat_lzwToken_a (by omega)])

variable {rest : List Sym} {toks : List Token} (h : LzwRun alpha phs cur rest toks)
include h

/-- The phrases of the run, one after the other, are the input (R205). -/
theorem LzwRun.flatten_phrases (hlt : alpha.length + (phs.length + toks.length) ≤ 2 ^ 32) :
    (lzwPhrases alpha phs toks).flatten = phs.flatten ++ (cur ++ rest) := by
  induction h with
  | flush hcut hn =>
    rw [lzwPhrases_cons, hcut.newPhrase_eq hn (by omega), lzwPhrases, List.foldl_nil]
    simp
  | extend _ _ _ ih => rw [ih hlt, List.append_assoc, List.singleton_append]
  | emit hcut hn _ _ ih =>
    rw [List.length_cons] at hlt
    rw [lzwPhrases_cons, hcut.newPhrase_eq hn (by omega),
      ih (by rw [List.length_append, List.length_singleton]; omega)]
    simp

/-- The first token of the run without room, the one with as many tokens before it as `TOK` holds or as the dictionary
has room for, ends the engine where its phrase ends (R104, R246 (b), (d)). -/
theorem LzwRun.encode_of_not_fits {p : Params} (halpha : alpha.length ≤ p.dictCap) (hcap : p.dictCap < 2 ^ 32)
    {m : Nat} (hm : m = min p.tokCap (p.dictCap - alpha.length)) {out : List Token} (hout : out.length = phs.length)
    (hroom : phs.length ≤ m) (hfit : ¬ (phs.length + toks.length ≤ p.tokCap ∧
      alpha.length + (phs.length + toks.length) ≤ p.dictCap + 1)) :
    lzwEncRest p rest (phs.flatten.length + cur.length) (lzwEncAt alpha phs cur out) =
      .error { kind := .capacityExceeded
               info := Word.ofNum (lzwPhrases alpha phs (toks.take (m + 1 - phs.length))).flatten.length } := by
  induction h generalizing out with
  | @flush phs cur n hcut hn =>
    rw [List.length_singleton] at hfit
    have hone : m + 1 - phs.length = 1 := by omega
    rw [lzwEncRest_nil hcut hn, if_pos (by omega), hone, List.take_succ_cons, lzwPhrases_cons,
      hcut.newPhrase_eq hn (by omega)]
    simp [lzwPhrases]
  | @extend phs cur c rest toks hcut hmem _ ih =>
    rw [lzwEncRest_cons, lzwEncStep_extend_encAt hcut hmem, ← ih hout hroom hfit, List.length_append]
    rfl
  | @emit phs cur n c rest toks hcut hn hnew _ ih =>
    have hphrase := hcut.newPhrase_eq hn (by omega)
    rw [List.length_cons] at hfit
    by_cases hfull : phs.length = m
    · have hone : m + 1 - phs.length = 1 := by omega
      rw [lzwEncRest_cons, lzwEncStep_full hnew, hone, List.take_succ_cons, lzwPhrases_cons, hphrase]
      · simp [lzwPhrases, Except.bind]
      · simp only [lzwEncAt, length_lzwDict_snoc]
        omega
    · have hlen : (phs ++ [cur]).length = phs.length + 1 := List.length_append
      have hsucc : m + 1 - phs.length = m + 1 - (phs ++ [cur]).length + 1 := by omega
      rw [lzwEncRest_cons, lzwEncStep_emit_encAt hcut hn hnew (by omega) (by omega), hsucc, List.take_succ_cons,
        lzwPhrases_cons, hphrase, Except.bind,
        ← ih (out := out ++ [lzwToken n]) (by simp [hout]) (by omega) (by omega)]
      simp [Nat.add_assoc]

end

/-! ### A whole input -/

section
variable {p : Params} {alpha : List Sym} (hnd : alpha.Nodup)

theorem exists_lzwParseInput {input : List Sym} (hin : ∀ x ∈ input, x ∈ alpha) :
    ∃ toks, lzwParseInput alpha input toks := by
  cases input with
  | nil => exact ⟨[], rfl⟩
  | cons c rest =>
    obtain ⟨hc, hrest⟩ := List.forall_mem_cons.mp hin
    exact exists_lzwParse rest (List.mem_map_of_mem hc) fun x hx => List.mem_map_of_mem (hrest x hx)

include hnd

theorem lzwParseInput_unique {input : List Sym} {toks toks' : List Token} (h : lzwParseInput alpha input toks)
    (h' : lzwParseInput alpha input toks') : toks' = toks := by
  cases input with
  | nil => rw [lzwParseInput] at h h'; rw [h, h']
  | cons c rest => exact lzwParse_unique (nodup_lzwSeeds hnd) h h'

theorem lzwRun_of_parseInput {c : Sym} {rest : List Sym} {toks : List Token}
    (h : lzwParseInput alpha (c :: rest) toks) : LzwRun alpha [] [c] rest toks :=
  lzwRun_of_parse (lzwCut_start hnd c) (by rwa [List.nil_append, lzwDict_singleton])

variable {input : List Sym} {toks : List Token} (h : lzwParseInput alpha input toks)
include h

theorem length_le_of_lzwParseInput : toks.length ≤ input.length ∧ (toks = [] ↔ input = []) := by
  cases input with
  | nil => rw [lzwParseInput] at h; simp [h]
  | cons c rest =>
    obtain ⟨hone, hle⟩ := (lzwRun_of_parseInput hnd h).length_le
    refine ⟨hle, ?_⟩
    simp [List.ne_nil_of_length_pos hone]

theorem lzwParseInput_code_lt {i : Nat} {r : Token} (hr : toks[i]? = some r) :
    ∃ n, r = lzwToken n ∧ n < alpha.length + i := by
  cases input with
  | nil => rw [lzwParseInput] at h; rw [h] at hr; cases hr
  | cons c rest => exact (lzwRun_of_parseInput hnd h).code_lt hr

/-- The phrases of the parse, one after the other, are the input. -/
theorem flatten_lzwPhrases_of_parse (hlt : alpha.length + toks.length ≤ 2 ^ 32) :
    (lzwPhrases alpha [] toks).flatten = input := by
  cases input with
  | nil => rw [lzwParseInput] at h; rw [h]; rfl
  | cons c rest => exact (lzwRun_of_parseInput hnd h).flatten_phrases (by simpa using hlt)

/-- A parse that fits `TOK` and the dictionary is what the encoder makes. -/
theorem lzwEncode_of_fits (htok : toks.length ≤ p.tokCap) (hdict : alpha.length + toks.length ≤ p.dictCap + 1) :
    lzwEncode p alpha input = .ok (toks, alpha.length + (toks.length - 1)) := by
  cases input with
  | nil => rw [lzwParseInput] at h; rw [h, lzwEncode, length_lzwSeeds]; rfl
  | cons c rest =>
    rw [lzwEncode_eq_rest, (lzwRun_of_parseInput hnd h).encode_of_fits (by simpa using htok) (by simpa using hdict)]
    simp

/-- A parse that does not fit ends the encoder where the phrase of its first token without room ends. -/
theorem lzwEncode_of_not_fits (halpha : alpha.length ≤ p.dictCap) (hcap : p.dictCap < 2 ^ 32)
    (hfit : ¬ (toks.length ≤ p.tokCap ∧ alpha.length + toks.length ≤ p.dictCap + 1)) :
    lzwEncode p alpha input = .error { kind := .capacityExceeded, info := Word.ofNum (lzwLens alpha.length []
      (toks.take (min p.tokCap (p.dictCap - alpha.length) + 1))).sum } := by
  cases input with
  | nil =>
    rw [lzwParseInput] at h
    rw [h, List.length_nil] at hfit
    omega
  | cons c rest =>
    have herr := (lzwRun_of_parseInput hnd h).encode_of_not_fits halpha hcap rfl (out := []) rfl
      (Nat.zero_le _) (by simpa using hfit)
    rw [List.length_nil, Nat.sub_zero, length_flatten_lzwPhrases] at herr
    rw [lzwEncode_eq_rest]
    exact herr

end

/-! ### The command -/

theorem dictCap_lt_of_wf {p : Params} (hp : p.wf = true) : p.dictCap < 2 ^ 32 := by
  simp only [Params.wf, Bool.and_eq_true, decide_eq_true_eq] at hp
  have hmax : maxCap = 4294967294 := rfl
  omega

/-- `DCOUNT` as a register holds it: `A`, or `A + T - 1` for `T >= 1` tokens (R203). -/
theorem ofNum_dictSize (a : Word) {n : Nat} (hn : n < 2 ^ 32) :
    Word.ofNum (a.toNat + (n - 1)) = if Word.ofNum n = 0#32 then a else a + Word.ofNum n - 1#32 := by
  have hzero : Word.ofNum n = 0#32 ↔ n = 0 := by
    rw [← BitVec.toNat_inj, toNat_ofNum hn, BitVec.toNat_ofNat, Nat.zero_mod]
  split
  · next h0 => rw [hzero.mp h0]; simp
  · next h0 =>
    rw [hzero] at h0
    apply BitVec.eq_of_toNat_eq
    simp only [BitVec.toNat_sub, BitVec.toNat_add, BitVec.toNat_ofNat]
    omega

/-- What a successful `LZW.ENC` leaves: the parse, in a `TOK` and a dictionary that have room for it. -/
theorem lzwEnc_success {s t : State} (hp : s.params.wf = true) (h : exec .lzwEnc s = .next t) (herr : t.err = none) :
    ∃ toks, lzwParseInput s.alphabet s.input toks ∧ toks.length ≤ s.params.tokCap ∧
      s.alphabet.length + toks.length ≤ s.params.dictCap + 1 ∧
      t = State.finishEncode (.ok (toks, s.alphabet.length + (toks.length - 1))) s ∧ t.stream = toks := by
  obtain ⟨-, halpha, -, hnd, hin, rfl⟩ := lzwEnc_success_operands h herr
  obtain ⟨toks, hparse⟩ := exists_lzwParseInput hin
  have hle := (length_le_of_lzwParseInput hnd hparse).1
  by_cases hfit : toks.length ≤ s.params.tokCap ∧ s.alphabet.length + toks.length ≤ s.params.dictCap + 1
  · obtain ⟨htok, hdict⟩ := hfit
    rw [lzwEncode_of_fits hnd hparse htok hdict]
    exact ⟨toks, hparse, htok, hdict, rfl, stream_finishEncode_ok htok (hle.trans_lt (length_input_lt s))⟩
  · rw [lzwEncode_of_not_fits hnd hparse (length_alphabet_le_dictCap halpha hp) (dictCap_lt_of_wf hp) hfit] at herr
    cases herr

/-- Settles O46: the encoder makes the one parse there is while it has room; the parse has at most one token per
symbol. -/
theorem lzwEncodeSucceeds : Obligations.LzwEncodeSucceeds := by
  intro s hlen halpha hone hdist hclosed
  have hnd : s.alphabet.Nodup := nodup_alphabet_iff.mpr hdist
  have hin : ∀ x ∈ s.input, x ∈ s.alphabet := by
    intro x hx
    obtain ⟨i, hi, rfl⟩ := mem_input.mp hx
    obtain ⟨j, hj, heq⟩ := hclosed i hi
    exact mem_alphabet.mpr ⟨j, hj, heq.symm⟩
  have hexec := exec_lzwEnc_of_valid hlen halpha (alphabet_ne_nil_iff.mpr hone) hnd hin
  obtain ⟨toks, hparse⟩ := exists_lzwParseInput hin
  obtain ⟨hle, hnil⟩ := length_le_of_lzwParseInput hnd hparse
  rw [length_input] at hle
  have hlt : toks.length < 2 ^ 32 := hle.trans_lt s.symLen.isLt
  have hsize := ofNum_dictSize s.alphaLen hlt
  have hfits (htok : toks.length ≤ s.params.tokCap) (hdict : s.alphaLen.toNat + toks.length ≤ s.params.dictCap + 1) :
      exec .lzwEnc s = .next (State.finishEncode (.ok (toks, s.alphaLen.toNat + (toks.length - 1))) s) := by
    rw [hexec, lzwEncode_of_fits hnd hparse htok (by rwa [length_alphabet]), length_alphabet]
  refine ⟨fun htok hdict => ?_, fun hp => ⟨toks, hparse, fun _ => lzwParseInput_unique hnd hparse, hle, ?_⟩⟩
  · have hempty : Word.ofNum toks.length = 0#32 ↔ s.symLen = 0#32 := by
      rw [← BitVec.toNat_inj, ← BitVec.toNat_inj, toNat_ofNum hlt, BitVec.toNat_ofNat, Nat.zero_mod, ← length_input,
        List.length_eq_zero_iff, List.length_eq_zero_iff]
      exact hnil
    have htoks : toks.length ≤ s.params.tokCap := hle.trans htok
    exact ⟨_, hfits htoks (by omega), rfl, rfl, rfl, rfl, (toNat_ofNum_le _).trans hle, hempty, hsize,
      (stream_finishEncode_ok htoks hlt).symm ▸ hparse⟩
  · split
    · next hfit =>
      obtain ⟨htok, hdict⟩ := hfit
      exact ⟨_, hfits htok hdict, rfl, rfl, rfl, rfl, stream_finishEncode_ok htok hlt, hsize⟩
    · next hfit =>
      rw [← length_alphabet] at hfit
      rw [lzwEncode_of_not_fits hnd hparse (length_alphabet_le_dictCap halpha hp) (dictCap_lt_of_wf hp) hfit,
        length_alphabet] at hexec
      exact ⟨_, hexec, rfl, rfl, rfl, rfl, rfl, rfl⟩

/-- Settles O49, from the parse. -/
theorem lzwEncoderOutput : Obligations.LzwEncoderOutput := by
  intro s t hp h herr
  obtain ⟨-, -, -, hnd, -, -⟩ := lzwEnc_success_operands h herr
  obtain ⟨toks, hparse, -, hdict, -, hstream⟩ := lzwEnc_success hp h herr
  have hle := (length_le_of_lzwParseInput hnd hparse).1
  have hlen : toks.length = t.tokLen.toNat := by rw [← hstream, length_stream]
  have hcap := dictCap_lt_of_wf hp
  rw [length_alphabet] at hdict
  rw [length_input] at hle
  rw [hstream]
  refine ⟨hlen, by omega, fun i r hr => ?_, fun hone => ?_⟩
  · obtain ⟨n, rfl, hn⟩ := lzwParseInput_code_lt hnd hparse hr
    have hi := (List.getElem?_eq_some_iff.mp hr).1
    rw [length_alphabet] at hn
    rw [toNat_lzwToken_a (by omega)]
    exact ⟨rfl, hn⟩
  · have hinput : s.input = [s.symAt 0] := by simp [State.input, State.symView, hone]
    rw [hinput] at hparse
    obtain ⟨n, hn, rfl⟩ := hparse
    rw [List.getElem?_map, Option.map_eq_some_iff] at hn
    obtain ⟨x, hx, heq⟩ := hn
    obtain ⟨hlt, rfl⟩ := List.getElem?_eq_some_iff.mp hx
    rw [getElem_alphabet] at heq
    exact ⟨n, rfl, by rwa [length_alphabet] at hlt, List.singleton_inj.mp heq⟩

end Sys2Proof.Machine
end

section
/-! PROOF. 43_lzw.md, the decoder: one code (R200, R201), what `LZW.DEC` makes of a valid stream (R199), where it stops
(R202), the size of the dictionary (R203) and the round trip (R205). The idea: the decoder's state is the list of the
phrases read (`lzwDecAt`), as the encoder's is the list of the phrases emitted; on the tokens of the parse both lists
are `lzwPhrases alpha [] toks`. -/

namespace Sys2Proof.Machine

open Sys2Proof.Config

/-! ### One token -/

section
variable {p : Params} {t : Nat} {r : Token} {w : LzwDecWork} {ph : Phrase} (htag : r.tag = 2#2)
  (hph : lzwResolve w.dict w.prev r.a.toNat = some ph) (hroom : w.out.length + ph.length ≤ p.symCap)
include htag hph hroom

/-- The first token inserts nothing (R200). -/
theorem lzwDecStep_first (hprev : w.prev = none) :
    lzwDecStep p t r w = .ok { dict := w.dict, prev := some ph, out := w.out ++ ph } := by
  obtain ⟨hbad | hbad, -⟩ | ⟨-, ph', hph', hc⟩ := lzwDecStep_cases (rfl : lzwDecStep p t r w = _)
  · exact absurd htag hbad
  · rw [hph] at hbad; cases hbad
  obtain rfl : ph = ph' := Option.some.inj (hph.symm.trans hph')
  obtain ⟨hfull | ⟨hsome, -⟩, -⟩ | ⟨-, -, ho⟩ | ⟨-, -, q, hq, -⟩ := hc
  · omega
  · exact absurd hprev hsome
  · exact ho
  · rw [hprev] at hq; cases hq

/-- Every later token inserts the previous phrase with the first symbol of its own (R200). -/
theorem lzwDecStep_later {q : Phrase} (hprev : w.prev = some q) (hdict : w.dict.length < p.dictCap) :
    lzwDecStep p t r w = .ok { dict := w.dict ++ [q ++ firstSym ph], prev := some ph, out := w.out ++ ph } := by
  obtain ⟨hbad | hbad, -⟩ | ⟨-, ph', hph', hc⟩ := lzwDecStep_cases (rfl : lzwDecStep p t r w = _)
  · exact absurd htag hbad
  · rw [hph] at hbad; cases hbad
  obtain rfl : ph = ph' := Option.some.inj (hph.symm.trans hph')
  obtain ⟨hfull | ⟨-, hfull⟩, -⟩ | ⟨-, hnone, -⟩ | ⟨-, -, q', hq', ho⟩ := hc
  · omega
  · omega
  · rw [hprev] at hnone; cases hnone
  · obtain rfl : q = q' := Option.some.inj (hprev.symm.trans hq')
    exact ho

end

/-- The code of an entry resolves to it (R200). -/
theorem lzwResolve_of_getElem? {dict : List Phrase} {k : Nat} {ph : Phrase} (h : dict[k]? = some ph)
    (prev : Option Phrase) : lzwResolve dict prev k = some ph := by
  rw [lzwResolve, if_pos (List.getElem?_eq_some_iff.mp h).1, h]

/-- The next free code resolves to the entry being defined (R201). -/
theorem lzwResolve_next_free (dict : List Phrase) (q : Phrase) :
    lzwResolve dict (some q) dict.length = some (q ++ firstSym q) := by
  rw [lzwResolve, if_neg (Nat.lt_irrefl _), if_pos rfl]
  rfl

/-- Settles O52, by what the code resolves to and whether there is a previous phrase. -/
theorem lzwDecodeStep : Obligations.LzwDecodeStep := by
  intro p t r k htag
  refine ⟨fun ph hph hroom hprev => lzwDecStep_first htag (lzwResolve_of_getElem? hph _) hroom hprev,
    fun ph q hph hroom hprev hdict => lzwDecStep_later htag (lzwResolve_of_getElem? hph _) hroom hprev hdict,
    fun q hcode hprev hq hroom hdict => ?_⟩
  have hresolve : lzwResolve k.dict k.prev r.a.toNat = some (q ++ firstSym q) := by
    rw [hcode, hprev, lzwResolve_next_free]
  have hone : (firstSym q).length = 1 := by rw [firstSym_eq_headD hq 0#24, List.length_singleton]
  have hstep := lzwDecStep_later (t := t) htag hresolve (by rw [List.length_append]; omega) hprev hdict
  rwa [firstSym_append hq] at hstep

/-! ### The decoder's state as a list of phrases -/

/-- The working state of the decoder when it has read the phrases `phs`. -/
def lzwDecAt (alpha : List Sym) (phs : List Phrase) : LzwDecWork :=
  { dict := lzwDict alpha phs, prev := phs.getLast?, out := phs.flatten }

theorem lzwDecode_eq_bind_decAt (p : Params) (alpha : List Sym) (toks : List Token) : lzwDecode p alpha toks =
    (lzwDecLoop p toks 0 (lzwDecAt alpha [])).bind fun w => .ok (w.out, w.dict.length) := by
  rw [lzwDecAt, lzwDict_nil]
  exact lzwDecode_eq_bind p alpha toks

theorem lzwTokenValid_iff {a t : Nat} {r : Token} :
    lzwTokenValid a t r = true ↔ r.tag = 2#2 ∧ r.a.toNat < a + t := by
  simp [lzwTokenValid]

/-- The tests of R202 as its two rows have them: for the first token, and for the later ones. -/
theorem not_lzwTokenValid_iff {a : Nat} {pre : List Token} {r : Token} :
    ¬ lzwTokenValid a pre.length r = true ↔
      r.tag ≠ 2#2 ∨ (pre = [] ∧ a ≤ r.a.toNat) ∨ (pre ≠ [] ∧ a + pre.length - 1 < r.a.toNat) := by
  rw [lzwTokenValid_iff, not_and_or, Nat.not_lt]
  refine or_congr_right ?_
  cases pre with
  | nil => simp
  | cons x pre =>
    simp only [reduceCtorEq, false_and, ne_eq, not_false_eq_true, true_and, false_or, List.length_cons]
    omega

section
variable {alpha : List Sym} {phs : List Phrase} (hne : phrasesNonempty phs)
include hne

/-- What a token can do after the phrases `phs`: be invalid, have no room for its symbols or its entry, or add its
phrase. -/
theorem lzwDecStep_decAt_cases (p : Params) (t : Nat) (r : Token) :
    (¬ lzwTokenValid alpha.length phs.length r = true ∧
      lzwDecStep p t r (lzwDecAt alpha phs) = .error { kind := .corruptToken, info := Word.ofNum t }) ∨
    (lzwTokenValid alpha.length phs.length r = true ∧
      (p.symCap - phs.flatten.length < (lzwNewPhrase alpha phs r).length ∨
        (phs ≠ [] ∧ alpha.length + phs.length = p.dictCap + 1)) ∧
      lzwDecStep p t r (lzwDecAt alpha phs) = .error { kind := .capacityExceeded, info := Word.ofNum t }) ∨
    (lzwTokenValid alpha.length phs.length r = true ∧
      (lzwNewPhrase alpha phs r).length ≤ p.symCap - phs.flatten.length ∧
      (phs ≠ [] → alpha.length + phs.length ≠ p.dictCap + 1) ∧
      lzwDecStep p t r (lzwDecAt alpha phs) = .ok (lzwDecAt alpha (phs ++ [lzwNewPhrase alpha phs r]))) := by
  have hsize : (lzwDecAt alpha phs).dict.length = alpha.length + (phs.length - 1) := length_lzwDict alpha phs
  have hprev : (lzwDecAt alpha phs).prev ≠ none ↔ phs ≠ [] := not_congr List.getLast?_eq_none_iff
  have hpos : phs ≠ [] ↔ phs.length ≠ 0 := not_congr List.length_eq_zero_iff.symm
  obtain ⟨hbad, ho⟩ | ⟨htag, ph, hph, hc⟩ := lzwDecStep_cases (rfl : lzwDecStep p t r (lzwDecAt alpha phs) = _)
  · refine .inl ⟨fun hvalid => ?_, ho⟩
    obtain ⟨htag, hlt⟩ := lzwTokenValid_iff.mp hvalid
    obtain hbad | hbad := hbad
    · exact hbad htag
    · exact absurd (hbad.symm.trans (lzwResolve_of_lt hne hlt)) (by simp)
  have hlt : r.a.toNat < alpha.length + phs.length := by
    by_contra hle
    exact absurd (hph.symm.trans (lzwResolve_of_le hne (Nat.le_of_not_lt hle))) (by simp)
  have hvalid := lzwTokenValid_iff.mpr ⟨htag, hlt⟩
  obtain rfl : ph = lzwNewPhrase alpha phs r := Option.some.inj (hph.symm.trans (lzwResolve_of_lt hne hlt))
  obtain ⟨hfull, ho⟩ | ⟨hroom, hnone, ho⟩ | ⟨hroom, hdict, q, hq, ho⟩ := hc
  · rw [hprev, hsize] at hfull
    exact .inr (.inl ⟨hvalid, hfull.imp_right fun ⟨hphs, heq⟩ => ⟨hphs, by rw [hpos] at hphs; omega⟩, ho⟩)
  · obtain rfl := List.getLast?_eq_none_iff.mp hnone
    refine .inr (.inr ⟨hvalid, hroom, fun h => absurd rfl h, ho.trans ?_⟩)
    simp [lzwDecAt, lzwDict_singleton, lzwDict_nil]
  · rw [hsize] at hdict
    refine .inr (.inr ⟨hvalid, hroom, fun hphs => by rw [hpos] at hphs; omega, ho.trans ?_⟩)
    simp [lzwDecAt, lzwDict_snoc hq]

/-- An invalid token is `CorruptToken(t)` (R101, R202). -/
theorem lzwDecStep_of_corrupt {p : Params} {r : Token} (t : Nat)
    (hr : ¬ lzwTokenValid alpha.length phs.length r = true) :
    lzwDecStep p t r (lzwDecAt alpha phs) = .error { kind := .corruptToken, info := Word.ofNum t } := by
  obtain ⟨-, ho⟩ | ⟨hvalid, -⟩ | ⟨hvalid, -⟩ := lzwDecStep_decAt_cases hne p t r
  · exact ho
  · exact absurd hvalid hr
  · exact absurd hvalid hr

variable {r : Token} (hr : lzwTokenValid alpha.length phs.length r = true)
include hr

theorem lzwDecStep_of_fits {p : Params} (t : Nat)
    (hsym : phs.flatten.length + (lzwNewPhrase alpha phs r).length ≤ p.symCap)
    (hdict : alpha.length + phs.length ≤ p.dictCap) :
    lzwDecStep p t r (lzwDecAt alpha phs) = .ok (lzwDecAt alpha (phs ++ [lzwNewPhrase alpha phs r])) := by
  obtain ⟨hbad, -⟩ | ⟨-, hfull, -⟩ | ⟨-, -, -, ho⟩ := lzwDecStep_decAt_cases hne p t r
  · exact absurd hr hbad
  · omega
  · exact ho

/-- A valid token whose symbols or whose entry do not fit is `CapacityExceeded(t)` (R246 (c), (d)). -/
theorem lzwDecStep_of_not_fits {p : Params} (t : Nat) (hle : phs.flatten.length ≤ p.symCap)
    (hfull : p.symCap < phs.flatten.length + (lzwNewPhrase alpha phs r).length ∨
      (phs ≠ [] ∧ alpha.length + phs.length = p.dictCap + 1)) :
    lzwDecStep p t r (lzwDecAt alpha phs) = .error { kind := .capacityExceeded, info := Word.ofNum t } := by
  obtain ⟨hbad, -⟩ | ⟨-, -, ho⟩ | ⟨-, hroom, hdict, -⟩ := lzwDecStep_decAt_cases hne p t r
  · exact absurd hr hbad
  · exact ho
  · obtain hfull | ⟨hphs, hfull⟩ := hfull
    · omega
    · exact absurd hfull (hdict hphs)

end

/-! ### A valid stream -/

/-- The stream is valid after the phrases `phs` and fits (R199, R202). -/
def lzwValidAfter (p : Params) (alpha : List Sym) (phs : List Phrase) (toks : List Token) : Prop :=
  lzwStreamValid p.symCap p.dictCap alpha.length (phs.map List.length) toks = true

section
variable {p : Params} {alpha : List Sym}

theorem lzwValidAfter_cons {phs : List Phrase} {r : Token} {rest : List Token} :
    lzwValidAfter p alpha phs (r :: rest) ↔ lzwTokenValid alpha.length phs.length r = true ∧
      phs.flatten.length + (lzwNewPhrase alpha phs r).length ≤ p.symCap ∧
      alpha.length + phs.length ≤ p.dictCap ∧ lzwValidAfter p alpha (phs ++ [lzwNewPhrase alpha phs r]) rest := by
  simp only [lzwValidAfter, lzwStreamValid, Bool.and_eq_true, decide_eq_true_eq, List.length_map, and_assoc,
    List.length_flatten, length_lzwNewPhrase, List.map_append, List.map_singleton]

/-- The first tokens of a valid stream are one, and those after them are valid after their phrases. -/
theorem lzwValidAfter_append {post : List Token} : ∀ {pre : List Token} {phs : List Phrase},
    lzwValidAfter p alpha phs (pre ++ post) →
      lzwValidAfter p alpha phs pre ∧ lzwValidAfter p alpha (lzwPhrases alpha phs pre) post
  | [], _, h => ⟨rfl, h⟩
  | r :: pre, phs, h => by
    obtain ⟨hr, hsym, hdict, hrest⟩ := lzwValidAfter_cons.mp h
    obtain ⟨hpre, hpost⟩ := lzwValidAfter_append hrest
    exact ⟨lzwValidAfter_cons.mpr ⟨hr, hsym, hdict, hpre⟩, hpost⟩

/-- The loop reads the phrases of a valid stream and goes on with what follows it. -/
theorem lzwDecLoop_append (rest : List Token) : ∀ {toks : List Token} {t : Nat} {phs : List Phrase},
    phrasesNonempty phs → lzwValidAfter p alpha phs toks → lzwDecLoop p (toks ++ rest) t (lzwDecAt alpha phs) =
      lzwDecLoop p rest (t + toks.length) (lzwDecAt alpha (lzwPhrases alpha phs toks))
  | [], _, _, _, _ => rfl
  | r :: toks, t, phs, hne, h => by
    obtain ⟨hr, hsym, hdict, hrest⟩ := lzwValidAfter_cons.mp h
    have hindex : t + (r :: toks).length = t + 1 + toks.length := by rw [List.length_cons]; omega
    rw [List.cons_append, lzwDecLoop_cons, lzwDecStep_of_fits hne hr t hsym hdict, Except.bind,
      lzwDecLoop_append rest (hne.snoc (lzwNewPhrase_ne_nil alpha phs r)) hrest, hindex, lzwPhrases_cons]

/-- The symbols and the entries of a valid stream fit; its last phrase has no entry yet. -/
theorem lzwPhrases_fit : ∀ {toks : List Token} {phs : List Phrase}, phs.flatten.length ≤ p.symCap →
    alpha.length + (phs.length - 1) ≤ p.dictCap → lzwValidAfter p alpha phs toks →
    (lzwPhrases alpha phs toks).flatten.length ≤ p.symCap ∧
      alpha.length + ((lzwPhrases alpha phs toks).length - 1) ≤ p.dictCap
  | [], _, hsym, hdict, _ => ⟨hsym, hdict⟩
  | r :: toks, phs, _, _, h => by
    obtain ⟨-, hsym, hdict, hrest⟩ := lzwValidAfter_cons.mp h
    rw [lzwPhrases_cons]
    exact lzwPhrases_fit (by simpa using hsym) (by simpa using hdict) hrest

/-- A valid stream decodes to its phrases. -/
theorem lzwDecode_of_valid {toks : List Token} (h : lzwValidAfter p alpha [] toks) :
    lzwDecode p alpha toks = .ok ((lzwPhrases alpha [] toks).flatten, alpha.length + (toks.length - 1)) := by
  have hloop := lzwDecLoop_append [] (t := 0) phrasesNonempty_nil h
  rw [List.append_nil] at hloop
  rw [lzwDecode_eq_bind_decAt, hloop, lzwDecLoop, Except.bind, lzwDecAt, length_lzwDict, length_lzwPhrases_nil]

/-- A token at which the step raises after a valid stream ends the decoder with what it raises. -/
theorem lzwDecode_of_step_error {pre post : List Token} {r : Token} {e : Raise} (hpre : lzwValidAfter p alpha [] pre)
    (hstep : lzwDecStep p pre.length r (lzwDecAt alpha (lzwPhrases alpha [] pre)) = .error e) :
    lzwDecode p alpha (pre ++ r :: post) = .error e := by
  rw [lzwDecode_eq_bind_decAt, lzwDecLoop_append _ phrasesNonempty_nil hpre, lzwDecLoop_cons, Nat.zero_add, hstep]
  rfl

/-- Where the loop succeeds it has read the phrases of the tokens. -/
theorem lzwDecLoop_eq_ok : ∀ {toks : List Token} {t : Nat} {phs : List Phrase} {w : LzwDecWork}, phrasesNonempty phs →
    lzwDecLoop p toks t (lzwDecAt alpha phs) = .ok w → w = lzwDecAt alpha (lzwPhrases alpha phs toks)
  | [], _, _, _, _, h => (Except.ok.inj h).symm
  | r :: toks, t, phs, w, hne, h => by
    rw [lzwDecLoop_cons] at h
    obtain ⟨-, ho⟩ | ⟨-, -, ho⟩ | ⟨-, -, -, ho⟩ := lzwDecStep_decAt_cases (alpha := alpha) hne p t r <;> rw [ho] at h
    · cases h
    · cases h
    · rw [lzwPhrases_cons]
      exact lzwDecLoop_eq_ok (hne.snoc (lzwNewPhrase_ne_nil alpha phs r)) h

/-- R203: the dictionary size after a success. -/
theorem lzwDecode_dcount {toks : List Token} {syms : List Sym} {d : Nat}
    (h : lzwDecode p alpha toks = .ok (syms, d)) : d = alpha.length + (toks.length - 1) := by
  rw [lzwDecode_eq_bind_decAt] at h
  cases hloop : lzwDecLoop p toks 0 (lzwDecAt alpha []) with
  | error e => rw [hloop] at h; cases h
  | ok w =>
    rw [hloop] at h
    cases h
    rw [lzwDecLoop_eq_ok phrasesNonempty_nil hloop, lzwDecAt, length_lzwDict, length_lzwPhrases_nil]

end

/-! ### The symbols of a token -/

/-- The entry of phrase `j` is what stands in the symbols from that phrase on, whatever comes after `phs`. -/
theorem flatten_getElem?_chain {phs : List Phrase} (post : List Phrase) {j : Nat} {q next : Phrase}
    (hq : phs[j]? = some q) (hnext : phs[j + 1]? = some next) {i : Nat} (hi : i < (q ++ firstSym next).length) :
    (phs ++ post).flatten[((phs.map List.length).take j).sum + i]? = (q ++ firstSym next)[i]? := by
  obtain ⟨hj, rfl⟩ := List.getElem?_eq_some_iff.mp hq
  obtain ⟨hj', rfl⟩ := List.getElem?_eq_some_iff.mp hnext
  have hrest : phs.drop j = phs[j] :: phs[j + 1] :: phs.drop (j + 1 + 1) := by
    rw [List.drop_eq_getElem_cons hj, List.drop_eq_getElem_cons hj']
  have hprefix : phs[j] ++ firstSym phs[j + 1] <+: (phs.drop j ++ post).flatten := by
    rw [hrest, List.cons_append, List.cons_append, List.flatten_cons, List.flatten_cons, List.prefix_append_right_inj]
    exact (List.take_prefix 1 _).trans (List.prefix_append _ _)
  have hsplit : (phs ++ post).flatten = (phs.take j).flatten ++ (phs.drop j ++ post).flatten := by
    rw [← List.flatten_append, ← List.append_assoc, List.take_append_drop]
  rw [hsplit, ← List.map_take, ← List.length_flatten, List.getElem?_append_right (Nat.le_add_right _ _),
    Nat.add_sub_cancel_left]
  obtain ⟨rest, hentry⟩ := hprefix
  rw [← hentry, List.getElem?_append_left hi]

section
variable {alpha : List Sym} (pre post : List Token) {r : Token}

/-- The phrases of a stream, split at a token. -/
theorem exists_lzwPhrases_split (r : Token) : ∃ new, lzwPhrases alpha [] (pre ++ r :: post) =
    lzwPhrases alpha [] pre ++ lzwNewPhrase alpha (lzwPhrases alpha [] pre) r :: new := by
  obtain ⟨new, hnew, -⟩ := exists_lzwPhrases_eq_append alpha
    (lzwPhrases alpha [] pre ++ [lzwNewPhrase alpha (lzwPhrases alpha [] pre) r]) post
  exact ⟨new, by rw [lzwPhrases_append, lzwPhrases_cons, hnew, List.append_assoc, List.singleton_append]⟩

/-- `lzwSpan` is the length of the phrase of a token after those of `pre`. -/
theorem length_lzwNewPhrase_lens (r : Token) : (lzwNewPhrase alpha (lzwPhrases alpha [] pre) r).length =
    lzwSpan alpha.length (lzwLens alpha.length [] pre) r := by
  rw [length_lzwNewPhrase, map_length_lzwPhrases]
  rfl

/-- In the symbols of a stream a token's phrase stands where the phrases before it end. -/
theorem lzwPhrases_flatten_getElem? {i : Nat}
    (hi : i < lzwSpan alpha.length (lzwLens alpha.length [] pre) r) :
    (lzwPhrases alpha [] (pre ++ r :: post)).flatten[(lzwLens alpha.length [] pre).sum + i]? =
      (lzwNewPhrase alpha (lzwPhrases alpha [] pre) r)[i]? := by
  obtain ⟨new, hsplit⟩ := exists_lzwPhrases_split (alpha := alpha) pre post r
  have hlens : lzwLens alpha.length [] pre = (lzwPhrases alpha [] pre).map List.length :=
    (map_length_lzwPhrases alpha [] pre).symm
  rw [← length_lzwNewPhrase_lens] at hi
  rw [hsplit, hlens, flatten_append_cons_getElem? _ _ _ hi]

/-- The symbols of a token with the code `A + j` are those from phrase `j` on. -/
theorem lzwPhrases_flatten_getElem?_copy (hvalid : lzwTokenValid alpha.length pre.length r = true)
    (hcode : alpha.length ≤ r.a.toNat) {i : Nat} (hi : i < lzwSpan alpha.length (lzwLens alpha.length [] pre) r) :
    (lzwPhrases alpha [] (pre ++ r :: post)).flatten[
        ((lzwLens alpha.length [] pre).take (r.a.toNat - alpha.length)).sum + i]? =
      (lzwNewPhrase alpha (lzwPhrases alpha [] pre) r)[i]? := by
  obtain ⟨new, hsplit⟩ := exists_lzwPhrases_split (alpha := alpha) pre post r
  have hlens : lzwLens alpha.length [] pre = (lzwPhrases alpha [] pre).map List.length :=
    (map_length_lzwPhrases alpha [] pre).symm
  have hne := phrasesNonempty_lzwPhrases alpha pre phrasesNonempty_nil
  have hlt : r.a.toNat < alpha.length + (lzwPhrases alpha [] pre).length := by
    rw [length_lzwPhrases_nil]
    exact (lzwTokenValid_iff.mp hvalid).2
  obtain ⟨j, hj⟩ : ∃ j, r.a.toNat = alpha.length + j := ⟨r.a.toNat - alpha.length, by omega⟩
  have hentry := lzwDict_getElem?_newPhrase hne hlt
  rw [hj, lzwDict_getElem?_chain] at hentry
  obtain ⟨q, next, hq, hnext, heq⟩ := hentry
  have hlast := (List.getElem?_eq_some_iff.mp hnext).1
  rw [List.length_append, List.length_singleton] at hlast
  have htake : ((lzwPhrases alpha [] pre).map List.length).take j =
      (((lzwPhrases alpha [] pre) ++ [lzwNewPhrase alpha (lzwPhrases alpha [] pre) r]).map List.length).take j := by
    rw [List.map_append, List.take_append_of_le_length (by rw [List.length_map]; omega)]
  rw [← length_lzwNewPhrase_lens, ← heq] at hi
  rw [hlens, hj, Nat.add_sub_cancel_left, hsplit, List.append_cons, htake, flatten_getElem?_chain new hq hnext hi, heq]

end

/-! ### The command -/

/-- `LZW.DEC` on a valid stream. -/
theorem exec_lzwDec_of_validStream {s : State} {alpha : List Sym} {toks : List Token} (hstream : s.stream = toks)
    (halphabet : s.alphabet = alpha) (hlen : s.tokLen.toNat ≤ s.params.tokCap)
    (halpha : s.alphaLen.toNat ≤ s.params.alphaCap) (hne : alpha ≠ []) (hnd : alpha.Nodup)
    (hvalid : lzwValidAfter s.params alpha [] toks) :
    exec .lzwDec s = .next (State.finishDecode
      (.ok ((lzwPhrases alpha [] toks).flatten, alpha.length + (toks.length - 1))) s) := by
  subst halphabet
  rw [exec_lzwDec_of_valid hlen halpha hne hnd, hstream, lzwDecode_of_valid hvalid]

/-- Under legal parameters the symbols and the entries of a valid stream fit, the seeds fitting the dictionary (R10). -/
theorem lzwPhrases_fit_of_wf {s : State} (hp : s.params.wf = true) (halpha : s.alphaLen.toNat ≤ s.params.alphaCap)
    {toks : List Token} (h : lzwValidAfter s.params s.alphabet [] toks) :
    (lzwPhrases s.alphabet [] toks).flatten.length ≤ s.params.symCap ∧
      s.alphabet.length + (toks.length - 1) ≤ s.params.dictCap := by
  have hfit := lzwPhrases_fit (phs := []) (Nat.zero_le _) (length_alphabet_le_dictCap halpha hp) h
  rwa [length_lzwPhrases_nil] at hfit

/-- The dictionary size as R203 states it. -/
theorem dictSize_eq_ite (a n : Nat) : a + (n - 1) = if n = 0 then a else a + n - 1 := by
  split <;> omega

/-- Settles O51: `SYM` holds the phrases of the stream one after the other, in which every token's symbols are as R200
and R201 say. -/
theorem lzwDecodeRebuilds : Obligations.LzwDecodeRebuilds := by
  intro s hp hlen halpha hone hdist hstreamValid
  have hvalid : lzwValidAfter s.params s.alphabet [] s.stream := by
    rwa [lzwValidAfter, length_alphabet]
  obtain ⟨hsym, hdict⟩ := lzwPhrases_fit_of_wf hp halpha hvalid
  have hexec := exec_lzwDec_of_validStream rfl rfl hlen halpha (alphabet_ne_nil_iff.mpr hone)
    (nodup_alphabet_iff.mpr hdist) hvalid
  refine ⟨_, hexec, rfl, rfl, rfl, rfl, ?_, ?_, fun pre r post hsplit => ?_⟩
  · rw [finishDecode_ok, toNat_ofNum (hsym.trans_lt (caps_lt_of_wf hp).1), length_flatten_lzwPhrases, length_alphabet]
  · rw [finishDecode_ok, toNat_ofNum (hdict.trans_lt (dictCap_lt_of_wf hp)), length_alphabet, length_stream,
      dictSize_eq_ite]
  · rw [hsplit] at hvalid hsym ⊢
    obtain ⟨-, hrest⟩ := lzwValidAfter_append hvalid
    obtain ⟨hr, -⟩ := lzwValidAfter_cons.mp hrest
    rw [length_lzwPhrases_nil] at hr
    rw [← length_alphabet]
    constructor
    · intro hcode
      refine symAt_finishDecode_of_getElem? hsym ?_
      have hown := lzwPhrases_flatten_getElem? (alpha := s.alphabet) pre post (r := r) (i := 0)
        (by rw [lzwSpan, if_pos hcode]; exact Nat.one_pos)
      rw [Nat.add_zero, lzwNewPhrase, if_pos hcode] at hown
      rw [hown, List.getD_eq_getElem _ _ hcode, getElem_alphabet]
      rfl
    · intro hcode j hj
      have hown := lzwPhrases_flatten_getElem? pre post hj
      have hcopy := lzwPhrases_flatten_getElem?_copy pre post hr hcode hj
      rw [← length_lzwNewPhrase_lens] at hj
      rw [List.getElem?_eq_getElem hj] at hown hcopy
      rw [symAt_finishDecode_of_getElem? hsym hown, symAt_finishDecode_of_getElem? hsym hcopy]

/-- Settles O53: the step on the bad token raises, the phrases before it being those of the valid stream. -/
theorem lzwDecodeFailsAtFirstBadToken : Obligations.LzwDecodeFailsAtFirstBadToken := by
  intro s pre r post hp hlen halpha hone hdist hsplit hpreValid
  have hpre : lzwValidAfter s.params s.alphabet [] pre := by
    rwa [lzwValidAfter, length_alphabet]
  obtain ⟨hsymFit, hdictFit⟩ := lzwPhrases_fit_of_wf hp halpha hpre
  have hne := phrasesNonempty_lzwPhrases s.alphabet pre phrasesNonempty_nil
  have hsize := length_lzwPhrases_nil s.alphabet pre
  have hexec := exec_lzwDec_of_valid hlen halpha (alphabet_ne_nil_iff.mpr hone) (nodup_alphabet_iff.mpr hdist)
  rw [hsplit] at hexec
  rw [← length_alphabet]
  constructor
  · intro hbad
    have hr := not_lzwTokenValid_iff.mpr hbad
    rw [← hsize] at hr
    rw [lzwDecode_of_step_error hpre (lzwDecStep_of_corrupt hne _ hr)] at hexec
    exact ⟨_, hexec, rfl, rfl, rfl, rfl⟩
  · intro hr hfull
    have hpos : pre ≠ [] ↔ lzwPhrases s.alphabet [] pre ≠ [] := by
      rw [← List.length_pos_iff, ← List.length_pos_iff, hsize]
    rw [← length_flatten_lzwPhrases, ← length_lzwNewPhrase_lens] at hfull
    rw [← hsize] at hr
    have hfull' := hfull.imp_right fun ⟨hnil, hlt⟩ =>
      (⟨hpos.mp hnil, by have := List.length_pos_iff.mpr hnil; omega⟩ : lzwPhrases s.alphabet [] pre ≠ [] ∧
        s.alphabet.length + (lzwPhrases s.alphabet [] pre).length = s.params.dictCap + 1)
    rw [lzwDecode_of_step_error hpre (lzwDecStep_of_not_fits hne hr _ hsymFit hfull')] at hexec
    exact ⟨_, hexec, rfl, rfl, rfl, rfl⟩

/-! ### The size of the dictionary -/

theorem lzwEncStep_dict_prefix {p : Params} {pos : Nat} {c : Sym} {k k' : LzwEncWork}
    (h : lzwEncStep p pos c k = .ok k') : k.dict <+: k'.dict := by
  obtain ⟨-, ho⟩ | ⟨-, -, ho⟩ | ⟨-, -, -, ho⟩ := lzwEncStep_cases h <;> cases ho
  · exact List.prefix_rfl
  · exact List.prefix_append _ _

theorem lzwDecStep_dict_prefix {p : Params} {t : Nat} {r : Token} {w w' : LzwDecWork}
    (h : lzwDecStep p t r w = .ok w') : w.dict <+: w'.dict := by
  obtain ⟨-, ho⟩ | ⟨-, ph, -, ⟨-, ho⟩ | ⟨-, -, ho⟩ | ⟨-, -, q, -, ho⟩⟩ := lzwDecStep_cases h <;> cases ho
  · exact List.prefix_rfl
  · exact List.prefix_append _ _

/-- Settles O50, by the ends of the two commands, and step by step. -/
theorem lzwDictionarySize : Obligations.LzwDictionarySize := by
  refine ⟨fun s t hp h herr => ?_, fun s t hp h herr => ?_, fun p pos c k k' => lzwEncStep_dict_prefix,
    fun p t r k k' => lzwDecStep_dict_prefix⟩
  · obtain ⟨-, halpha, -⟩ := lzwEnc_success_operands h herr
    obtain ⟨toks, -, -, hdict, ht, hstream⟩ := lzwEnc_success hp h herr
    have hseeds := length_alphabet_le_dictCap halpha hp
    have hcap := dictCap_lt_of_wf hp
    have hd : t.dcount = Word.ofNum (s.alphabet.length + (toks.length - 1)) := by rw [ht]; rfl
    rw [hd, toNat_ofNum (by omega), dictSize_eq_ite, length_alphabet, ← hstream, length_stream]
  · obtain ⟨-, ho⟩ | ⟨hlen, halpha, ⟨-, ho⟩ | ⟨-, -, ho⟩⟩ := execLzwDec_cases h <;> cases ho
    · cases herr
    · cases herr
    have hmeets := lzwDecode_meets (p := s.params) (ok := fun _ => True) (toks := s.stream) (alpha := s.alphabet)
      (by rwa [length_stream]) (fun _ _ => trivial) (length_alphabet_le_dictCap halpha)
    cases hres : lzwDecode s.params s.alphabet s.stream with
    | error e => rw [hres] at herr; cases herr
    | ok x =>
      obtain ⟨syms, d⟩ := x
      rw [hres] at hmeets
      have hd := hmeets.size_le hp
      rw [finishDecode_ok, toNat_ofNum (hd.trans_lt (dictCap_lt_of_wf hp)), lzwDecode_dcount hres, dictSize_eq_ite,
        length_alphabet, length_stream]

/-! ### The round trip -/

section
variable {p : Params} {alpha : List Sym} {phs : List Phrase} {cur : Phrase} {toks : List Token}

/-- The code of the accumulator is valid where it is emitted, if its phrase and the entry before it fit. -/
theorem LzwCut.validAfter_cons (h : LzwCut alpha phs cur) {n : Nat}
    (hn : (lzwDict alpha (phs ++ [cur]))[n]? = some cur) (hcap : p.dictCap < 2 ^ 32)
    (hsym : phs.flatten.length + cur.length ≤ p.symCap) (hdict : alpha.length + phs.length ≤ p.dictCap)
    (hrest : lzwValidAfter p alpha (phs ++ [cur]) toks) : lzwValidAfter p alpha phs (lzwToken n :: toks) := by
  have hcode := (List.getElem?_eq_some_iff.mp hn).1
  rw [length_lzwDict_snoc] at hcode
  rw [lzwValidAfter_cons, h.newPhrase_eq hn (by omega), lzwTokenValid_iff, toNat_lzwToken_a (by omega)]
  exact ⟨⟨rfl, hcode⟩, hsym, hdict, hrest⟩

/-- The tokens of a run are a valid stream after the phrases emitted: the decoder reads the phrases the encoder emits,
and their symbols are no more than the input (R205). -/
theorem LzwRun.validAfter {rest : List Sym} (h : LzwRun alpha phs cur rest toks) (hcap : p.dictCap < 2 ^ 32)
    (hsym : phs.flatten.length + (cur.length + rest.length) ≤ p.symCap)
    (hdict : alpha.length + (phs.length + toks.length) ≤ p.dictCap + 1) : lzwValidAfter p alpha phs toks := by
  induction h with
  | flush hcut hn =>
    rw [List.length_singleton] at hdict
    exact hcut.validAfter_cons hn hcap hsym (by omega) rfl
  | extend _ _ _ ih =>
    rw [List.length_cons] at hsym
    exact ih (by rw [List.length_append, List.length_singleton]; omega) hdict
  | emit hcut hn _ hrun ih =>
    have hone := hrun.length_le.1
    rw [List.length_cons] at hsym hdict
    refine hcut.validAfter_cons hn hcap (by omega) (by omega) (ih ?_ ?_)
    · rw [List.flatten_append, List.flatten_singleton, List.length_append, List.length_singleton]
      omega
    · rw [List.length_append, List.length_singleton]
      omega

end

/-- The tokens of the parse are a valid stream (R205). -/
theorem lzwValidAfter_of_parse {p : Params} {alpha : List Sym} (hnd : alpha.Nodup) {input : List Sym}
    {toks : List Token} (h : lzwParseInput alpha input toks) (hcap : p.dictCap < 2 ^ 32)
    (hsym : input.length ≤ p.symCap) (hdict : alpha.length + toks.length ≤ p.dictCap + 1) :
    lzwValidAfter p alpha [] toks := by
  cases input with
  | nil => rw [lzwParseInput] at h; rw [h]; rfl
  | cons c rest =>
    rw [List.length_cons] at hsym
    exact (lzwRun_of_parseInput hnd h).validAfter hcap (by simpa [Nat.add_comm] using hsym) (by simpa using hdict)

/-- An encode does not touch `ALPHA` (table after R32). -/
theorem alphabet_finishEncode (r : Except Raise (List Token × Nat)) (s : State) :
    (State.finishEncode r s).alphabet = s.alphabet := by
  cases r <;> rfl

/-- Settles O54: `LZW.ENC` left the parse of the input, whose phrases one after the other are the input. -/
theorem lzwRoundTrip : Obligations.LzwRoundTrip := by
  intro s t hp h herr
  obtain ⟨hlen, halpha, hne, hnd, -, -⟩ := lzwEnc_success_operands h herr
  obtain ⟨toks, hparse, htok, hdict, rfl, hstream⟩ := lzwEnc_success hp h herr
  have hcap := dictCap_lt_of_wf hp
  have hN := length_input_lt s
  have hvalid := lzwValidAfter_of_parse hnd hparse hcap (by rwa [length_input]) hdict
  have hexec := exec_lzwDec_of_validStream hstream (alphabet_finishEncode _ s) ((toNat_ofNum_le _).trans htok) halpha
    hne hnd hvalid
  rw [flatten_lzwPhrases_of_parse hnd hparse (by omega)] at hexec
  refine ⟨_, hexec, rfl, ?_, rfl, fun i hi => ?_⟩
  · exact BitVec.eq_of_toNat_eq (by rw [finishDecode_ok, toNat_ofNum hN, length_input])
  · have hi' : i < s.input.length := by rwa [length_input]
    exact symAt_finishDecode_of_getElem? (by rwa [length_input])
      (by rw [List.getElem?_eq_getElem hi', getElem_input])

end Sys2Proof.Machine
end

section
/-! PROOF. 45_host_interface.md: the register and memory operations of the host (R220, R221), and the issue and the
completion of a command (R223, R226, R227). The idea: with LZC not busy a step is the operation at the head of the
script, so each statement is about what one operation does to the state that has the rest of the script. -/

namespace Sys2Proof.Machine

/-! ### Every command completes -/

@[simp] theorem finishEncode_busy (r : Except Raise (List Token × Nat)) (s : State) :
    (State.finishEncode r s).busy = false := by
  cases r <;> rfl

@[simp] theorem finishEncode_done (r : Except Raise (List Token × Nat)) (s : State) :
    (State.finishEncode r s).done = true := by
  cases r <;> rfl

@[simp] theorem finishDecode_busy (r : Except Raise (List Sym × Nat)) (s : State) :
    (State.finishDecode r s).busy = false := by
  cases r <;> rfl

@[simp] theorem finishDecode_done (r : Except Raise (List Sym × Nat)) (s : State) :
    (State.finishDecode r s).done = true := by
  cases r <;> rfl

/-- Every end of a command, an error before its loop or the loop's result, is a completion (R226). -/
theorem exec_completes (i : Instr) (s : State) : ∃ t, exec i s = .next t ∧ t.busy = false ∧ t.done = true := by
  cases i with
  | lz77Enc =>
    obtain ⟨-, ho⟩ | ⟨-, -, ho⟩ | ⟨-, -, -, ho⟩ := execLz77Enc_cases (s := s) rfl <;>
      exact ⟨_, ho, by simp, by simp⟩
  | lz78Enc =>
    obtain ⟨-, ho⟩ | ⟨-, ho⟩ := execLz78Enc_cases (s := s) rfl <;> exact ⟨_, ho, by simp, by simp⟩
  | lzwEnc =>
    obtain ⟨-, ho⟩ | ⟨-, -, ⟨-, ho⟩ | ⟨-, -, ⟨_, -, ho⟩ | ⟨-, ho⟩⟩⟩ := execLzwEnc_cases (s := s) rfl <;>
      exact ⟨_, ho, by simp, by simp⟩
  | sbLpm =>
    obtain ⟨-, ho⟩ | ⟨-, _, _, ho⟩ := execSbLpm_cases (s := s) rfl <;> exact ⟨_, ho, by simp, by simp⟩
  | lz77Dec =>
    obtain ⟨-, ho⟩ | ⟨-, -, ho⟩ | ⟨-, -, -, ho⟩ := execLz77Dec_cases (s := s) rfl <;>
      exact ⟨_, ho, by simp, by simp⟩
  | lz78Dec =>
    obtain ⟨-, ho⟩ | ⟨-, ho⟩ := execLz78Dec_cases (s := s) rfl <;> exact ⟨_, ho, by simp, by simp⟩
  | lzwDec =>
    obtain ⟨-, ho⟩ | ⟨-, -, ⟨-, ho⟩ | ⟨-, -, ho⟩⟩ := execLzwDec_cases (s := s) rfl <;>
      exact ⟨_, ho, by simp, by simp⟩
  | sbSlice =>
    obtain ⟨-, ho⟩ | ⟨-, ho⟩ := execSbSlice_cases (s := s) rfl <;> exact ⟨_, ho, by simp, by simp⟩

/-- A word written to `CMD` completes as well, a command or not (R223). -/
theorem issue_completes (w : Word) (s : State) :
    ∃ t, State.issue w s = .next t ∧ t.busy = false ∧ t.done = true := by
  obtain ⟨i, -, hi⟩ | ⟨-, hi⟩ := issue_cases w s
  · rw [hi]
    exact exec_completes i s.start
  · exact ⟨_, hi, by simp, by simp⟩

/-! ### The register operations -/

/-- `WRREG` as one update (R21, R220): each read/write register takes the value at its own number. -/
theorem writeReg_eq (i : Nat) (v : Word) (s : State) : State.writeReg i v s =
    { s with
      wsize := if i = 3 then v else s.wsize
      lsize := if i = 4 then v else s.lsize
      alphaLen := if i = 5 then v else s.alphaLen
      symLen := if i = 6 then v else s.symLen
      tokLen := if i = 7 then v else s.tokLen
      qpos := if i = 8 then v else s.qpos
      qend := if i = 9 then v else s.qend
      qmax := if i = 10 then v else s.qmax
      clo := if i = 11 then v else s.clo
      chi := if i = 12 then v else s.chi } := by
  unfold State.writeReg
  split <;> simp_all

@[simp] theorem writeReg_busy (i : Nat) (v : Word) (s : State) : (State.writeReg i v s).busy = s.busy := by
  rw [writeReg_eq]

/-- `WRREG` writes registers only. -/
theorem writeReg_frame (i : Nat) (v : Word) (s : State) :
    (State.writeReg i v s).params = s.params ∧ (State.writeReg i v s).sym = s.sym ∧
    (State.writeReg i v s).tok = s.tok ∧ (State.writeReg i v s).alpha = s.alpha ∧
    (State.writeReg i v s).script = s.script ∧ (State.writeReg i v s).reply = s.reply := by
  rw [writeReg_eq]
  exact ⟨rfl, rfl, rfl, rfl, rfl, rfl⟩

/-- Only the numbers 3 to 12 are read/write registers (R21, R63). -/
theorem writeReg_of_not_readWrite {i : Nat} (h : i < 3 ∨ 12 < i) (v : Word) (s : State) :
    State.writeReg i v s = s := by
  unfold State.writeReg
  split
  case h_11 => rfl
  all_goals omega

theorem readReg_writeReg_same {i : Nat} (h3 : 3 ≤ i) (h12 : i ≤ 12) (v : Word) (s : State) :
    (State.writeReg i v s).readReg i = v := by
  interval_cases i <;> rfl

theorem readReg_writeReg_other {i j : Nat} (h : j ≠ i) (v : Word) (s : State) :
    (State.writeReg i v s).readReg j = s.readReg j := by
  rw [writeReg_eq]
  unfold State.readReg
  split <;> simp [h.symm, State.status]

/-- The register space as the table of R21 (10_state.md): what is not in the table reads 0. -/
theorem readReg_eq_table (s : State) (i : Nat) : s.readReg i =
    ([0#32, statusWord s.busy s.done s.err, s.errinfo, s.wsize, s.lsize, s.alphaLen, s.symLen, s.tokLen, s.qpos,
      s.qend, s.qmax, s.clo, s.chi, s.rlen, s.roff, s.dcount] : List Word).getD i 0#32 := by
  obtain hlt | ⟨n, rfl⟩ := (Nat.lt_or_ge i 16).imp_right Nat.exists_eq_add_of_le'
  · interval_cases i <;> rfl
  · rfl

/-- Settles O10: a read answers from the table, and a write is ignored, sets one register, or issues a word. -/
theorem registerOperations : Obligations.RegisterOperations := by
  refine ⟨fun s i rest hb hs => ?_, fun s i v rest hb hs h3 h12 => ?_, fun s v rest hb hs => ?_,
    fun s i v rest hb hs h0 hi => ?_⟩ <;> rw [step_eq_perform hb hs]
  · simp only [HostOp.perform, readReg_eq_table]
    rfl
  · obtain ⟨hpar, hsym, htok, halpha, hscr, hrep⟩ := writeReg_frame i v (s.take rest)
    exact ⟨State.writeReg i v (s.take rest), if_neg (by omega), readReg_writeReg_same h3 h12 v _,
      fun j hj => readReg_writeReg_other hj v _, hpar, hsym, htok, halpha, hscr, hrep⟩
  · rfl
  · rw [HostOp.perform, State.hostWriteReg, if_neg h0, writeReg_of_not_readWrite hi]
    rfl

/-! ### The memory operations -/

theorem symAt_of_cap_le {s : State} {i : Nat} (h : s.params.symCap ≤ i) : s.symAt i = 0#24 := if_neg (by omega)

theorem alphaAt_of_cap_le {s : State} {i : Nat} (h : s.params.alphaCap ≤ i) : s.alphaAt i = 0#24 := if_neg (by omega)

theorem tokAt_of_cap_le {s : State} {i : Nat} (h : s.params.tokCap ≤ i) : s.tokAt i = zeroToken := if_neg (by omega)

/-- The record of a read beyond `TOK_CAP` has every bit 0 (R62). -/
theorem packToken_zeroToken (symW : Nat) : packToken symW zeroToken = 0#96 := by
  simp [packToken, zeroToken, narrow]

/-- `WRSYM` as one update: `SYM` alone is written, within its bound (R62, R64). -/
theorem writeSym_eq (i v : Nat) (s : State) : State.writeSym i v s =
    { s with sym := if i < s.params.symCap then s.sym.write i (narrow s.params.symW v) else s.sym } := by
  unfold State.writeSym
  split <;> rfl

/-- `WRALPHA` as one update: `ALPHA` alone is written, within its bound (R62, R64). -/
theorem writeAlpha_eq (i v : Nat) (s : State) : State.writeAlpha i v s =
    { s with alpha := if i < s.params.alphaCap then s.alpha.write i (narrow s.params.symW v) else s.alpha } := by
  unfold State.writeAlpha
  split <;> rfl

/-- `WRTOK` as one update: `TOK` alone is written, within its bound (R62, R64). -/
theorem writeTok_eq (i : Nat) (r : Record) (s : State) : State.writeTok i r s =
    { s with tok := if i < s.params.tokCap then s.tok.write i (unpackToken s.params.symW r) else s.tok } := by
  unfold State.writeTok
  split <;> rfl

/-- The read of an entry after a write, both within the bound of the memory (R62): the write is seen at its own
entry, if that is below the bound, and nowhere else. -/
theorem Memory.boundedRead_boundedWrite {α : Type} (cap : Nat) (free : Nat → Nat → α) (zero : α) (m : Memory α)
    (i j : Nat) (v : α) :
    (if j < cap then (if i < cap then m.write i v else m).read free j else zero) =
      if j = i ∧ i < cap then v else if j < cap then m.read free j else zero := by
  by_cases hi : i < cap
  · by_cases hj : j = i
    · subst hj
      simp [hi]
    · simp [hi, hj, Memory.read_write]
  · simp [hi]

theorem symAt_writeSym (i v j : Nat) (s : State) : (State.writeSym i v s).symAt j =
    if j = i ∧ i < s.params.symCap then narrow s.params.symW v else s.symAt j := by
  rw [writeSym_eq]
  exact Memory.boundedRead_boundedWrite s.params.symCap s.freeSymAt 0#24 s.sym i j _

theorem alphaAt_writeAlpha (i v j : Nat) (s : State) : (State.writeAlpha i v s).alphaAt j =
    if j = i ∧ i < s.params.alphaCap then narrow s.params.symW v else s.alphaAt j := by
  rw [writeAlpha_eq]
  exact Memory.boundedRead_boundedWrite s.params.alphaCap s.freeAlphaAt 0#24 s.alpha i j _

theorem tokAt_writeTok (i : Nat) (r : Record) (j : Nat) (s : State) : (State.writeTok i r s).tokAt j =
    if j = i ∧ i < s.params.tokCap then unpackToken s.params.symW r else s.tokAt j := by
  rw [writeTok_eq]
  exact Memory.boundedRead_boundedWrite s.params.tokCap s.freeTokAt zeroToken s.tok i j _

/-- Settles O11: a read answers the entry or the value beyond the bound, and a write is seen at its own entry only. -/
theorem memoryOperations : Obligations.MemoryOperations := by
  refine ⟨fun s i rest hb hs => ?_, fun s i rest hb hs => ?_, fun s i rest hb hs => ?_, fun s i v rest hb hs => ?_,
    fun s i v rest hb hs => ?_, fun s i r rest hb hs => ?_⟩ <;> rw [step_eq_perform hb hs]
  · exact ⟨rfl, symAt_of_cap_le⟩
  · exact ⟨rfl, alphaAt_of_cap_le⟩
  · exact ⟨rfl, fun h => by rw [tokAt_of_cap_le h, packToken_zeroToken]⟩
  · exact ⟨_, rfl, by rw [writeSym_eq]; rfl, fun j => symAt_writeSym i v j (s.take rest)⟩
  · exact ⟨_, rfl, by rw [writeAlpha_eq]; rfl, fun j => alphaAt_writeAlpha i v j (s.take rest)⟩
  · exact ⟨_, rfl, by rw [writeTok_eq]; rfl, fun j => tokAt_writeTok i r j (s.take rest)⟩

/-! ### The step of a host that may act -/

/-- No operation of the host fails, and each leaves LZC not busy (R220, R226). -/
theorem perform_idle {s : State} (hb : s.busy = false) (op : HostOp) :
    ∃ t, op.perform s = .next t ∧ t.busy = false := by
  cases op with
  | rdReg | rdSym | rdTok | rdAlpha => exact ⟨_, rfl, hb⟩
  | wrReg i v =>
    by_cases hi : i = 0
    · obtain ⟨t, ht, hbt, -⟩ := issue_completes v s
      exact ⟨t, by rw [HostOp.perform, State.hostWriteReg, if_pos hi, ht], hbt⟩
    · exact ⟨State.writeReg i v s, if_neg hi, by rw [writeReg_busy, hb]⟩
  | wrSym i v => exact ⟨_, rfl, by rw [writeSym_eq]; exact hb⟩
  | wrTok i r => exact ⟨_, rfl, by rw [writeTok_eq]; exact hb⟩
  | wrAlpha i v => exact ⟨_, rfl, by rw [writeAlpha_eq]; exact hb⟩
  | reset => exact ⟨_, rfl, rfl⟩

/-- Settles O6: every end of a command is a completion, and with LZC not busy a step is idle or performs an operation
of the host. -/
theorem everyCommandCompletes : Obligations.EveryCommandCompletes := by
  refine ⟨exec_completes, fun s hb => ?_⟩
  obtain ⟨-, ho⟩ | ⟨_, _, -, hbusy, -, -⟩ | ⟨op, rest, -, -, hp⟩ := step_cases (s := s) rfl
  · exact ⟨s, ho, hb⟩
  · rw [hb] at hbusy
    cases hbusy
  · obtain ⟨t, ht, hbt⟩ := perform_idle (s := s.take rest) hb op
    exact ⟨t, hp.symm.trans ht, hbt⟩

/-! ### Issuing a command -/

/-- A word that decodes to a command runs it (R223). -/
theorem issue_of_decode {w : Word} {i : Instr} (h : decode w = .ok i) (s : State) :
    State.issue w s = exec i s.start := by
  rw [State.issue, h]

/-- A command is one whole 32-bit word (R90). -/
theorem tableWord_toNat (w : Word) : tableWord 32 w.toNat = w := by
  rw [tableWord, Nat.mod_eq_of_lt w.isLt, Word.ofNum, BitVec.ofNat_toNat, BitVec.setWidth_eq]

/-- With LZC not busy, the host's write of a command to `CMD` runs it on the started state (R223). -/
theorem step_eq_exec {s : State} {w : Word} {rest : List HostOp} {i : Instr} (hb : s.busy = false)
    (hs : s.script = .wrReg 0 w :: rest) (hi : decode w = .ok i) : step s = exec i (s.take rest).start :=
  (step_eq_perform hb hs).trans (issue_of_decode hi _)

/-- Settles O5: a write to `CMD` issues the word, and `withFetchWord` puts that write before the other operations. -/
theorem stepRunsDecodedCommand : Obligations.StepRunsDecodedCommand := by
  refine ⟨fun _ _ _ _ => step_eq_exec, fun s w i hi => step_eq_exec (s := s.withFetchWord 32 w.toNat) rfl ?_ hi⟩
  rw [State.withFetchWord, tableWord_toNat]
  rfl

end Sys2Proof.Machine
end

section
/-! PROOF. 60_exceptions.md: a word that is no command (R245), the errors raised before a command looks at its input
(R242, R246 (a), R247), and what an error leaves (R249, R250). The idea: say once how each class of command can end in an
error (`EncodeError`, `DecodeError`, `exec_query_error`), with the tests that failed or passed before it and the `info` it
carries; the statements are read off these cases. -/

namespace Sys2Proof.Machine

open Sys2Proof.Config

/-! ### A word that is no command -/

/-- Settles O7: with LZC not busy the step issues the word, which decodes to an error. -/
theorem illegalCommandTouchesOnlyStatus : Obligations.IllegalCommandTouchesOnlyStatus := by
  intro s w rest hb hs hw
  obtain ⟨i, hi, -⟩ | ⟨-, ho⟩ := issue_cases w (s.take rest)
  · rw [decode_of_mask_ne_zero hw] at hi
    cases hi
  · exact (step_eq_perform hb hs).trans ho

/-! ### An input length beyond its memory -/

section
variable {s : State}

theorem symLenTooLong_iff : s.symLenTooLong = true ↔ s.params.symCap < s.symLen.toNat := decide_eq_true_iff

theorem tokLenTooLong_iff : s.tokLenTooLong = true ↔ s.params.tokCap < s.tokLen.toNat := decide_eq_true_iff

theorem alphaLenTooLong_iff : s.alphaLenTooLong = true ↔ s.params.alphaCap < s.alphaLen.toNat := decide_eq_true_iff

/-- The first test of `LZW.ENC` (R246 (a)). -/
theorem lzwEncTooLong_iff : (s.symLenTooLong || s.alphaLenTooLong) = true ↔
    s.params.symCap < s.symLen.toNat ∨ s.params.alphaCap < s.alphaLen.toNat :=
  Bool.or_eq_true_iff.trans (or_congr symLenTooLong_iff alphaLenTooLong_iff)

/-- The first test of `LZW.DEC` (R246 (a)). -/
theorem lzwDecTooLong_iff : (s.tokLenTooLong || s.alphaLenTooLong) = true ↔
    s.params.tokCap < s.tokLen.toNat ∨ s.params.alphaCap < s.alphaLen.toNat :=
  Bool.or_eq_true_iff.trans (or_congr tokLenTooLong_iff alphaLenTooLong_iff)

end

/-- Settles O20: the test of the lengths is the first one of each command (R247). -/
theorem inputLengthBeyondMemory : Obligations.InputLengthBeyondMemory := fun _ =>
  ⟨fun h => ⟨if_pos (symLenTooLong_iff.mpr h), if_pos (symLenTooLong_iff.mpr h)⟩,
    fun h => if_pos (lzwEncTooLong_iff.mpr h),
    fun h => ⟨if_pos (tokLenTooLong_iff.mpr h), if_pos (tokLenTooLong_iff.mpr h)⟩,
    fun h => if_pos (lzwDecTooLong_iff.mpr h)⟩

/-! ### The errors of the loops -/

/-- The only error of an encoder's loop: a full memory at a cursor `pos <= n` (R246 (b), (d)). -/
def Raise.atCursor (n : Nat) (e : Raise) : Prop :=
  ∃ pos, pos ≤ n ∧ e = { kind := .capacityExceeded, info := Word.ofNum pos }

/-- The errors of a decoder's loop: an invalid token, or no room for one, at an index `t < n` (R243, R246 (c), (d)). -/
def Raise.atToken (n : Nat) (e : Raise) : Prop :=
  ∃ t, t < n ∧ ∃ kind, (kind = .corruptToken ∨ kind = .capacityExceeded) ∧ e = { kind := kind, info := Word.ofNum t }

/-- Every error of the result is one of `E`. -/
abbrev raisesOnly {α : Type} (E : Raise → Prop) (r : Except Raise α) : Prop := resultMeets E (fun _ => True) r

theorem raisesOnly.bind {α β : Type} {E : Raise → Prop} {r : Except Raise α} {f : α → Except Raise β}
    (hr : raisesOnly E r) (hf : ∀ a, raisesOnly E (f a)) : raisesOnly E (r.bind f) :=
  resultMeets.bind hr fun a _ => hf a

section
variable {p : Params} {input : List Sym}

theorem lz77EncStep_raisesOnly (w l : Nat) {k : Lz77EncWork} (hpos : k.pos < input.length) :
    raisesOnly (Raise.atCursor input.length) (lz77EncStep p w l input k) := by
  obtain ⟨-, h⟩ | ⟨-, _, _, -, -, h⟩ := lz77EncStep_cases (rfl : lz77EncStep p w l input k = _) <;> rw [h]
  · exact ⟨k.pos, Nat.le_of_lt hpos, rfl⟩
  · trivial

theorem lz77Encode_raisesOnly (w l : Nat) : raisesOnly (Raise.atCursor input.length) (lz77Encode p w l input) := by
  rw [lz77Encode_eq_bind]
  exact raisesOnly.bind (whileLoop_meets (lz77EncLoop_stop p w l) (fun _ => rfl) (lz77EncLoop_succ p w l)
    (fun _ hpos _ => lz77EncStep_raisesOnly w l hpos) _ _ trivial) fun _ => trivial

theorem lz78EncStep_raisesOnly {k : Lz78EncWork} (hpos : k.pos < input.length) :
    raisesOnly (Raise.atCursor input.length) (lz78EncStep p input k) := by
  obtain ⟨-, h⟩ | ⟨-, -, _, _, -, -, h⟩ := lz78EncStep_cases (rfl : lz78EncStep p input k = _) <;> rw [h]
  · exact ⟨k.pos, Nat.le_of_lt hpos, rfl⟩
  · trivial

theorem lz78Encode_raisesOnly : raisesOnly (Raise.atCursor input.length) (lz78Encode p input) := by
  rw [lz78Encode_eq_bind]
  exact raisesOnly.bind (whileLoop_meets (lz78EncLoop_stop p) (fun _ => rfl) (lz78EncLoop_succ p)
    (fun _ hpos _ => lz78EncStep_raisesOnly hpos) _ _ trivial) fun _ => trivial

theorem lzwEncStep_raisesOnly {n pos : Nat} (hpos : pos ≤ n) (c : Sym) (k : LzwEncWork) :
    raisesOnly (Raise.atCursor n) (lzwEncStep p pos c k) := by
  obtain ⟨-, h⟩ | ⟨-, -, h⟩ | ⟨-, -, -, h⟩ := lzwEncStep_cases (rfl : lzwEncStep p pos c k = _) <;> rw [h]
  · trivial
  · exact ⟨pos, hpos, rfl⟩
  · trivial

theorem lzwEncFlush_raisesOnly (n : Nat) (k : LzwEncWork) : raisesOnly (Raise.atCursor n) (lzwEncFlush p n k) := by
  obtain ⟨-, h⟩ | ⟨-, h⟩ := emit_cases (rfl : lzwEncFlush p n k = _) <;> rw [h]
  · exact ⟨n, Nat.le_refl n, rfl⟩
  · trivial

theorem lzwEncode_raisesOnly (alpha : List Sym) :
    raisesOnly (Raise.atCursor input.length) (lzwEncode p alpha input) := by
  cases input with
  | nil => trivial
  | cons c rest =>
    rw [lzwEncode_cons]
    have hloop := listLoop_meets (fun _ _ => rfl) (lzwEncLoop_cons p) (E := Raise.atCursor (c :: rest).length)
      (P := fun _ => True) rest 1 (lzwEncInit alpha c)
      (fun j x k hj _ _ => lzwEncStep_raisesOnly (by simp only [List.length_cons]; omega) x k) trivial
    exact raisesOnly.bind hloop fun k => (lzwEncFlush_raisesOnly _ k).bind fun _ => trivial

end

section
variable {p : Params} {n t : Nat} (ht : t < n) (r : Token)
include ht

theorem lz77DecStep_raisesOnly (out : List Sym) : raisesOnly (Raise.atToken n) (lz77DecStep p t r out) := by
  obtain ⟨-, h⟩ | ⟨-, -, -, -, ⟨-, h⟩ | ⟨-, h⟩⟩ := lz77DecStep_cases (rfl : lz77DecStep p t r out = _) <;> rw [h]
  · exact ⟨t, ht, _, .inl rfl, rfl⟩
  · exact ⟨t, ht, _, .inr rfl, rfl⟩
  · trivial

theorem lz78DecStep_raisesOnly (w : Lz78DecWork) : raisesOnly (Raise.atToken n) (lz78DecStep p t r w) := by
  obtain ⟨-, h⟩ | ⟨-, -, -, _, -, ⟨-, h⟩ | ⟨-, -, h⟩⟩ :=
    lz78DecStep_cases (rfl : lz78DecStep p t r w = _) <;> rw [h]
  · exact ⟨t, ht, _, .inl rfl, rfl⟩
  · exact ⟨t, ht, _, .inr rfl, rfl⟩
  · trivial

theorem lzwDecStep_raisesOnly (w : LzwDecWork) : raisesOnly (Raise.atToken n) (lzwDecStep p t r w) := by
  obtain ⟨-, h⟩ | ⟨-, _, -, ⟨-, h⟩ | ⟨-, -, h⟩ | ⟨-, -, _, -, h⟩⟩ :=
    lzwDecStep_cases (rfl : lzwDecStep p t r w = _) <;> rw [h]
  · exact ⟨t, ht, _, .inl rfl, rfl⟩
  · exact ⟨t, ht, _, .inr rfl, rfl⟩
  · trivial
  · trivial

end

section
variable (p : Params) (toks : List Token)

/-- A decoder's loop from token 0 on raises only at the tokens of its stream, when each step does. -/
theorem decLoop_raisesOnly {β : Type} {loop : List Token → Nat → β → Except Raise β}
    {step : Nat → Token → β → Except Raise β} (hnil : ∀ t k, loop [] t k = .ok k)
    (hcons : ∀ r rest t k, loop (r :: rest) t k = (step t r k).bind (loop rest (t + 1)))
    (hstep : ∀ {n t}, t < n → ∀ r k, raisesOnly (Raise.atToken n) (step t r k)) (k : β) :
    raisesOnly (Raise.atToken toks.length) (loop toks 0 k) :=
  listLoop_meets hnil hcons toks 0 k (fun _ r k hj _ _ => hstep (by simpa using hj) r k) trivial

theorem lz77Decode_raisesOnly : raisesOnly (Raise.atToken toks.length) (lz77Decode p toks) := by
  rw [lz77Decode_eq_bind]
  exact (decLoop_raisesOnly toks (fun _ _ => rfl) (lz77DecLoop_cons p) lz77DecStep_raisesOnly _).bind fun _ => trivial

theorem lz78Decode_raisesOnly : raisesOnly (Raise.atToken toks.length) (lz78Decode p toks) := by
  rw [lz78Decode_eq_bind]
  exact (decLoop_raisesOnly toks (fun _ _ => rfl) (lz78DecLoop_cons p) lz78DecStep_raisesOnly _).bind fun _ => trivial

theorem lzwDecode_raisesOnly (alpha : List Sym) :
    raisesOnly (Raise.atToken toks.length) (lzwDecode p alpha toks) := by
  rw [lzwDecode_eq_bind]
  exact (decLoop_raisesOnly toks (fun _ _ => rfl) (lzwDecLoop_cons p) lzwDecStep_raisesOnly _).bind fun _ => trivial

end

/-! ### How a command ends in an error -/

/-- The ways the encode command `i` can end in an error from `s` (R247), and the state each leaves. -/
inductive EncodeError (i : Instr) (s : State) : State → Prop
  /-- Priority 2: a length beyond its memory. -/
  | tooLong (hlong : s.params.symCap < s.symLen.toNat ∨ (i = .lzwEnc ∧ s.params.alphaCap < s.alphaLen.toNat)) :
      EncodeError i s (State.raiseEncode .capacityExceeded 0#32 s)
  /-- Priority 3: the sizes of LZ77, the alphabet of LZW. -/
  | badConfiguration (hi : i = .lz77Enc ∨ i = .lzwEnc) :
      EncodeError i s (State.raiseEncode .invalidConfiguration 0#32 s)
  /-- Priority 4: symbol `j` is outside the alphabet. -/
  | unknown (hi : i = .lzwEnc) (j : Nat) (hj : j < s.symLen.toNat) :
      EncodeError i s (State.raiseEncode .unknownSymbol (Word.ofNum j) s)
  /-- Priority 5: no room at cursor `pos`. -/
  | runTime (hlen : s.symLen.toNat ≤ s.params.symCap) (halpha : i = .lzwEnc → s.alphaLen.toNat ≤ s.params.alphaCap)
      (pos : Nat) (hpos : pos ≤ s.symLen.toNat) :
      EncodeError i s (State.finishEncode (.error { kind := .capacityExceeded, info := Word.ofNum pos }) s)

/-- The ways the decode command `i` can end in an error from `s` (R247), and the state each leaves. -/
inductive DecodeError (i : Instr) (s : State) : State → Prop
  /-- Priority 2: a length beyond its memory. -/
  | tooLong (hlong : s.params.tokCap < s.tokLen.toNat ∨ (i = .lzwDec ∧ s.params.alphaCap < s.alphaLen.toNat)) :
      DecodeError i s (State.raiseDecode .capacityExceeded 0#32 s)
  /-- Priority 3: the sizes of LZ77, the alphabet of LZW. -/
  | badConfiguration (hi : i = .lz77Dec ∨ i = .lzwDec) :
      DecodeError i s (State.raiseDecode .invalidConfiguration 0#32 s)
  /-- Priority 5: token `n` is invalid, or there is no room for it. -/
  | runTime (hlen : s.tokLen.toNat ≤ s.params.tokCap) (halpha : i = .lzwDec → s.alphaLen.toNat ≤ s.params.alphaCap)
      (n : Nat) (hn : n < s.tokLen.toNat) (kind : ErrKind) (hkind : kind = .corruptToken ∨ kind = .capacityExceeded) :
      DecodeError i s (State.finishDecode (.error { kind := kind, info := Word.ofNum n }) s)

section
variable {i : Instr} {s t : State}

theorem EncodeError.of_loop (hlen : s.symLen.toNat ≤ s.params.symCap)
    (halpha : i = .lzwEnc → s.alphaLen.toNat ≤ s.params.alphaCap) {r : Except Raise (List Token × Nat)}
    (hr : raisesOnly (Raise.atCursor s.input.length) r) (herr : (State.finishEncode r s).err ≠ none) :
    EncodeError i s (State.finishEncode r s) := by
  cases r with
  | error e =>
    obtain ⟨pos, hpos, rfl⟩ := hr
    exact .runTime hlen halpha pos (by simpa using hpos)
  | ok x => exact absurd rfl herr

theorem DecodeError.of_loop (hlen : s.tokLen.toNat ≤ s.params.tokCap)
    (halpha : i = .lzwDec → s.alphaLen.toNat ≤ s.params.alphaCap) {r : Except Raise (List Sym × Nat)}
    (hr : raisesOnly (Raise.atToken s.stream.length) r) (herr : (State.finishDecode r s).err ≠ none) :
    DecodeError i s (State.finishDecode r s) := by
  cases r with
  | error e =>
    obtain ⟨n, hn, kind, hkind, rfl⟩ := hr
    exact .runTime hlen halpha n (by simpa using hn) kind hkind
  | ok x => exact absurd rfl herr

/-- The scan of R192 finds a symbol of the input. -/
theorem lt_symLen_of_firstUnknown {j : Nat} (h : firstUnknown s.alphabet s.input 0 = some j) : j < s.symLen.toNat := by
  obtain ⟨j', rfl, ⟨x, hx, -⟩, -⟩ := firstUnknown_eq_some h
  simpa using (List.getElem?_eq_some_iff.mp hx).1

theorem exec_encode_error (hi : i = .lz77Enc ∨ i = .lz78Enc ∨ i = .lzwEnc) (h : exec i s = .next t)
    (herr : t.err ≠ none) : EncodeError i s t := by
  obtain rfl | rfl | rfl := hi
  · obtain ⟨hlong, ho⟩ | ⟨-, -, ho⟩ | ⟨hlen, -, -, ho⟩ := execLz77Enc_cases h <;> cases ho
    · exact .tooLong (.inl hlong)
    · exact .badConfiguration (.inl rfl)
    · exact .of_loop hlen (by simp) (lz77Encode_raisesOnly _ _) herr
  · obtain ⟨hlong, ho⟩ | ⟨hlen, ho⟩ := execLz78Enc_cases h <;> cases ho
    · exact .tooLong (.inl hlong)
    · exact .of_loop hlen (by simp) lz78Encode_raisesOnly herr
  · obtain ⟨hlong, ho⟩ | ⟨hlen, halpha, ⟨-, ho⟩ | ⟨-, -, ⟨j, hj, ho⟩ | ⟨-, ho⟩⟩⟩ := execLzwEnc_cases h <;> cases ho
    · exact .tooLong (hlong.imp_right fun ha => ⟨rfl, ha⟩)
    · exact .badConfiguration (.inr rfl)
    · exact .unknown rfl j (lt_symLen_of_firstUnknown hj)
    · exact .of_loop hlen (fun _ => halpha) (lzwEncode_raisesOnly _) herr

theorem exec_decode_error (hi : i = .lz77Dec ∨ i = .lz78Dec ∨ i = .lzwDec) (h : exec i s = .next t)
    (herr : t.err ≠ none) : DecodeError i s t := by
  obtain rfl | rfl | rfl := hi
  · obtain ⟨hlong, ho⟩ | ⟨-, -, ho⟩ | ⟨hlen, -, -, ho⟩ := execLz77Dec_cases h <;> cases ho
    · exact .tooLong (.inl hlong)
    · exact .badConfiguration (.inl rfl)
    · exact .of_loop hlen (by simp) (lz77Decode_raisesOnly _ _) herr
  · obtain ⟨hlong, ho⟩ | ⟨hlen, ho⟩ := execLz78Dec_cases h <;> cases ho
    · exact .tooLong (.inl hlong)
    · exact .of_loop hlen (by simp) (lz78Decode_raisesOnly _ _) herr
  · obtain ⟨hlong, ho⟩ | ⟨hlen, halpha, ⟨-, ho⟩ | ⟨-, -, ho⟩⟩ := execLzwDec_cases h <;> cases ho
    · exact .tooLong (hlong.imp_right fun ha => ⟨rfl, ha⟩)
    · exact .badConfiguration (.inr rfl)
    · exact .of_loop hlen (fun _ => halpha) (lzwDecode_raisesOnly _ _ _) herr

/-- The one error of a query: an input longer than `SYM` (R246 (a)). -/
theorem exec_query_error (hi : i = .sbLpm ∨ i = .sbSlice) (h : exec i s = .next t) (herr : t.err ≠ none) :
    t = State.raiseQuery .capacityExceeded 0#32 s := by
  obtain rfl | rfl := hi
  · obtain ⟨-, ho⟩ | ⟨-, _, _, ho⟩ := execSbLpm_cases h <;> cases ho
    · rfl
    · exact absurd rfl herr
  · obtain ⟨-, ho⟩ | ⟨-, ho⟩ := execSbSlice_cases h <;> cases ho
    · rfl
    · exact absurd rfl herr

end

/-! ### The kinds of error -/

/-- Every command is an encode, a decode or a query (R3). -/
theorem instr_classes : ∀ i : Instr, (i = .lz77Enc ∨ i = .lz78Enc ∨ i = .lzwEnc) ∨
    (i = .lz77Dec ∨ i = .lz78Dec ∨ i = .lzwDec) ∨ (i = .sbLpm ∨ i = .sbSlice) := by
  rintro (_ | _ | _ | _ | _ | _ | _ | _) <;> decide

/-- Settles O24, by the ways each class of command can end in an error. -/
theorem errorKindsByCommand : Obligations.ErrorKindsByCommand := by
  intro i s t k h herr
  have hne : t.err ≠ none := by simp [herr]
  obtain hi | hi | hi := instr_classes i
  · cases exec_encode_error hi h hne with
    | tooLong => cases herr; simp
    | badConfiguration hcfg => cases herr; obtain rfl | rfl := hcfg <;> simp
    | unknown hlzw j hj => cases herr; simpa [hlzw] using (toNat_ofNum_le j).trans_lt hj
    | runTime _ _ pos hpos =>
      cases herr
      have hinfo := (toNat_ofNum_le pos).trans hpos
      obtain rfl | rfl | rfl := hi <;> simpa [finishEncode_error] using hinfo
  · cases exec_decode_error hi h hne with
    | tooLong => cases herr; simp
    | badConfiguration hcfg => cases herr; obtain rfl | rfl := hcfg <;> simp
    | runTime _ _ n hn kind hkind =>
      cases herr
      have hinfo := (toNat_ofNum_le n).trans_lt hn
      obtain rfl | rfl := hkind
      · exact ⟨nofun, fun _ => ⟨hi, hinfo⟩, nofun, nofun, nofun⟩
      · obtain rfl | rfl | rfl := hi <;> simpa [finishDecode_error] using .inr hinfo
  · obtain rfl := exec_query_error hi h hne
    cases herr
    simp

/-! ### The first unknown symbol -/

/-- The scan of R192 ends at the first symbol outside the alphabet. -/
theorem firstUnknown_of_first {alpha xs : List Sym} {i : Nat} {x : Sym} (hx : xs[i]? = some x) (hout : x ∉ alpha)
    (hbefore : ∀ j, j < i → ∃ y, xs[j]? = some y ∧ y ∈ alpha) : firstUnknown alpha xs 0 = some i := by
  cases h : firstUnknown alpha xs 0 with
  | none => exact absurd (firstUnknown_eq_none.mp h x (List.mem_of_getElem? hx)) hout
  | some n =>
    obtain ⟨j, rfl, ⟨y, hy, hyout⟩, hj⟩ := firstUnknown_eq_some h
    obtain hlt | rfl | hgt := Nat.lt_trichotomy j i
    · obtain ⟨z, hz, hzin⟩ := hbefore j hlt
      cases hy.symm.trans hz
      exact absurd hzin hyout
    · rw [Nat.zero_add]
    · obtain ⟨z, hz, hzin⟩ := hj i hgt
      cases hx.symm.trans hz
      exact absurd hzin hout

/-- R242: an unknown symbol in an input and over an alphabet that pass the tests of priorities 2 and 3. -/
theorem exec_lzwEnc_of_unknown {s : State} {i : Nat} (hlen : s.symLen.toNat ≤ s.params.symCap)
    (halpha : s.alphaLen.toNat ≤ s.params.alphaCap) (hne : s.alphabet ≠ []) (hnd : s.alphabet.Nodup)
    (hfirst : firstUnknown s.alphabet s.input 0 = some i) :
    exec .lzwEnc s = .next (State.raiseEncode .unknownSymbol (Word.ofNum i) s) := by
  obtain ⟨hlong, -⟩ | ⟨-, -, ⟨hbad, -⟩ | ⟨-, -, ⟨j, hj, ho⟩ | ⟨hin, -⟩⟩⟩ := execLzwEnc_cases (s := s) rfl
  · omega
  · exact absurd ⟨hne, hnd⟩ hbad
  · cases hfirst.symm.trans hj
    exact ho
  · cases hfirst.symm.trans (firstUnknown_eq_none.mpr hin)

/-- Settles O23: the scan ends at the first unknown symbol; the other commands by the table of the kinds. -/
theorem unknownSymbolIsTheFirst : Obligations.UnknownSymbolIsTheFirst := by
  refine ⟨fun s i hlen halpha hone hdist hi hout hbefore => ?_, fun i s t h herr =>
    ((errorKindsByCommand i s t _ h herr).1 rfl).1⟩
  have hinput (j : Nat) (hj : j < s.symLen.toNat) : s.input[j]? = some (s.symAt j) := by simp [hj]
  refine exec_lzwEnc_of_unknown hlen halpha (alphabet_ne_nil_iff.mpr hone) (nodup_alphabet_iff.mpr hdist)
    (firstUnknown_of_first (hinput i hi) ?_ fun j hj => ⟨_, hinput j (hj.trans hi), ?_⟩)
  · rw [mem_alphabet]
    rintro ⟨a, ha, heq⟩
    exact hout a ha heq.symm
  · obtain ⟨a, ha, heq⟩ := hbefore j hj
    exact mem_alphabet.mpr ⟨a, ha, heq.symm⟩

/-! ### What an error leaves -/

/-- Settles O28: every way to end in an error zeroes the result registers of its class (R249), and an illegal word
writes `STATUS` and `ERRINFO` alone. -/
theorem resultRegistersAfterError : Obligations.ResultRegistersAfterError := by
  refine ⟨fun i s t k h herr => ?_, fun s w rest hb hs hw =>
    ⟨_, illegalCommandTouchesOnlyStatus s w rest hb hs hw, rfl, rfl, rfl, rfl, rfl⟩⟩
  have hne : t.err ≠ none := by simp [herr]
  refine ⟨fun hi => ?_, fun hi => ?_, fun hi => ?_⟩
  · cases exec_encode_error hi h hne <;> exact ⟨rfl, rfl, rfl⟩
  · cases exec_decode_error hi h hne <;> exact ⟨rfl, rfl, rfl⟩
  · obtain rfl := exec_query_error hi h hne
    exact ⟨rfl, rfl, rfl⟩

/-- R250: `TOK` after a run-time error of an encode. -/
theorem tokAt_finishEncode_error (e : Raise) (s : State) {j : Nat} (hj : j < s.params.tokCap) :
    (State.finishEncode (.error e) s).tokAt j = unpackToken s.params.symW (freeTok (s.tok.gen + 1) j) := if_pos hj

/-- R250: `SYM` after a run-time error of a decode. -/
theorem symAt_finishDecode_error (e : Raise) (s : State) {j : Nat} (hj : j < s.params.symCap) :
    (State.finishDecode (.error e) s).symAt j = narrow s.params.symW (freeSym (s.sym.gen + 1) j).toNat := if_pos hj

/-- A length beyond its memory is not one that fits: the test of priority 2, with the alphabet's for LZW. -/
theorem not_tooLong_of_fits {i lzw : Instr} {cap len alphaCap alphaLen : Nat} (hlen : len ≤ cap)
    (halpha : i = lzw → alphaLen ≤ alphaCap) : ¬ (cap < len ∨ (i = lzw ∧ alphaCap < alphaLen)) := by
  rintro (hlong | ⟨hlzw, hlong⟩)
  · omega
  · exact absurd (halpha hlzw) (by omega)

/-- Settles O29: an error before the loop is told from one of the loop by its kind or by a length out of range. -/
theorem memoriesAfterError : Obligations.MemoriesAfterError := by
  refine ⟨fun i s t hi h hne => ?_, fun i s t hi h hne => ?_⟩
  · cases exec_encode_error hi h hne with
    | tooLong hlong =>
      exact ⟨rfl, rfl, fun _ => rfl, fun _ hlen halpha => absurd hlong (not_tooLong_of_fits hlen halpha)⟩
    | badConfiguration => exact ⟨rfl, rfl, fun _ => rfl, nofun⟩
    | unknown => exact ⟨rfl, rfl, fun _ => rfl, nofun⟩
    | runTime hlen halpha =>
      refine ⟨rfl, rfl, fun hearly => ?_, fun _ _ _ _ => tokAt_finishEncode_error _ s⟩
      obtain herr | herr | hlong := hearly
      · cases herr
      · cases herr
      · exact absurd hlong (not_tooLong_of_fits hlen halpha)
  · cases exec_decode_error hi h hne with
    | tooLong hlong =>
      refine ⟨rfl, rfl, fun _ => rfl, ?_⟩
      rintro (herr | ⟨-, hlen, halpha⟩)
      · cases herr
      · exact absurd hlong (not_tooLong_of_fits hlen halpha)
    | badConfiguration =>
      refine ⟨rfl, rfl, fun _ => rfl, ?_⟩
      rintro (herr | ⟨herr, -⟩) <;> cases herr
    | runTime hlen halpha _ _ _ hkind =>
      refine ⟨rfl, rfl, fun hearly => ?_, fun _ _ => symAt_finishDecode_error _ s⟩
      obtain herr | hlong := hearly
      · cases herr
        simp at hkind
      · exact absurd hlong (not_tooLong_of_fits hlen halpha)

end Sys2Proof.Machine
end

section
/-! PROOF. 70_reset_and_hazards.md: the busy rule (R279), and the reset (R270 to R273). The idea: a step is idle,
refused or the operation at the head of the script (`step_cases`), and what LZC answers while busy is a read of `STATUS`
or the reset input; so the statements are about these two operations. -/

namespace Sys2Proof.Machine

open Sys2Proof.Config

/-! ### The busy rule -/

theorem allowedWhileBusy_iff {op : HostOp} : op.allowedWhileBusy = true ↔ op = .rdReg 1 ∨ op = .reset := by
  cases op <;> simp [HostOp.allowedWhileBusy]

/-- With no operation pending nothing changes (log entry 5). -/
theorem step_idle {s : State} (hs : s.script = []) : step s = .next s := by
  obtain ⟨-, ho⟩ | ⟨_, _, hs', -⟩ | ⟨_, _, hs', -⟩ := step_cases (s := s) rfl
  · exact ho
  · simp [hs] at hs'
  · simp [hs] at hs'

/-- What may be done while busy is done, busy or not. -/
theorem step_eq_perform_of_allowed {s : State} {op : HostOp} {rest : List HostOp} (hs : s.script = op :: rest)
    (ha : op.allowedWhileBusy = true) : step s = op.perform (s.take rest) := by
  obtain ⟨hs', -⟩ | ⟨_, _, hs', -, hf, -⟩ | ⟨_, _, hs', -, hp⟩ := step_cases (s := s) rfl
  · simp [hs] at hs'
  · cases hs.symm.trans hs'
    simp [ha] at hf
  · cases hs.symm.trans hs'
    exact hp.symm

/-- Any other operation is refused by name while busy (R279, log entry 6). -/
theorem step_refused {s : State} {op : HostOp} {rest : List HostOp} (hb : s.busy = true) (hs : s.script = op :: rest)
    (hf : ¬ op.allowedWhileBusy = true) : step s = .refused .busyAccess := by
  obtain ⟨hs', -⟩ | ⟨_, _, -, -, -, ho⟩ | ⟨_, _, hs', ha, -⟩ := step_cases (s := s) rfl
  · simp [hs] at hs'
  · exact ho
  · cases hs.symm.trans hs'
    simp [hb, hf] at ha

/-- Settles O8: while busy a read of `STATUS` is performed, and an operation that is neither it nor the reset input is
refused. -/
theorem idleStepAndBusyRule : Obligations.IdleStepAndBusyRule := by
  refine ⟨fun s => step_idle, fun s rest hb hs => ?_, fun s op rest hb hs hread hreset => ?_⟩
  · rw [step_eq_perform_of_allowed hs rfl, ← hb]
    rfl
  · exact step_refused hb hs fun ha => (allowedWhileBusy_iff.mp ha).elim hread hreset

/-! ### Reset -/

/-- The reset input acts in every state, busy or not (R273). -/
theorem step_reset {s : State} {rest : List HostOp} (hs : s.script = .reset :: rest) :
    step s = .next (s.take rest).resetInput :=
  step_eq_perform_of_allowed hs rfl

theorem readReg_reset (i : Nat) : State.reset.readReg i = 0#32 := by
  unfold State.readReg
  split <;> rfl

/-- The register space after the reset input is that of the state after reset (R271). -/
theorem readReg_resetInput (s : State) (i : Nat) : s.resetInput.readReg i = 0#32 :=
  readReg_reset i

/-- Settles O12: the register space after reset is 0, and the reset input acts whatever LZC does. -/
theorem resetLeavesRegistersZero : Obligations.ResetLeavesRegistersZero :=
  ⟨readReg_reset, rfl, rfl, rfl, fun _ _ hs => ⟨_, step_reset hs, readReg_resetInput _, rfl, rfl, rfl⟩⟩

/-- R272: an entry of `SYM` after the reset input is a free value of the fresh generation. -/
theorem symAt_resetInput (s : State) {i : Nat} (hi : i < s.params.symCap) :
    s.resetInput.symAt i = narrow s.params.symW (freeSym (s.sym.gen + 1) i).toNat := if_pos hi

/-- Settles O13: the reset input scrambles each memory and keeps the instance and the rest of the script. -/
theorem resetLeavesMemoriesUnspecified : Obligations.ResetLeavesMemoriesUnspecified :=
  ⟨rfl, rfl, rfl, rfl, fun s rest hs =>
    ⟨_, step_reset hs, rfl, rfl, rfl, rfl, rfl, rfl, fun _ => symAt_resetInput (s.take rest)⟩⟩

end Sys2Proof.Machine
end
